-- ==== Sys2Proof/Word.lean ====
section
/-! DEFINITION. The widths the spec fixes: a byte (00_scope.md R8), a 32-bit register word
(00_scope.md R7, 10_state.md R21), and a bit string (00_scope.md R9). -/

namespace Sys2Proof

/-- A byte, 0..255 (00_scope.md R8). -/
abbrev Byte := BitVec 8

/-- A host-visible register word, 32 bits (10_state.md R21). -/
abbrev Word := BitVec 32

/-- A bit string: element 0 is the first bit in stream order (00_scope.md R9, 41_bitstream.md R120). -/
abbrev Bits := List Bool

end Sys2Proof
end

