-- ==== Sys2Proof/Config.lean ====
section
/-! DEFINITION. What an implementation fixes, the constants the source fixes, and the free values.
An opaque constant has no value that a proof can see: a claim about it holds for every value. -/

namespace Sys2Proof.Config

/-! ### The OPEN parameters (00_scope.md R7, 92_eei_decisions.md D10 and D22; log 1)

Three unconstrained naturals stand for the implementation's choice, and the parameters are those
naturals brought into the range R7 gives: every allowed value is reached and no other one is. -/

/-- The implementation's free choice behind IN_CAP. -/
opaque inCapChoice : Nat

/-- The implementation's free choice behind OUT_CAP. -/
opaque outCapChoice : Nat

/-- The implementation's free choice behind LZW_DICT_CAP. -/
opaque lzwDictCapChoice : Nat

/-- A natural brought into `1 .. 2^32 - 1`, the range of the buffer capacities (R7). -/
def capacityOf (choice : Nat) : Word := BitVec.ofNat 32 (choice % (2 ^ 32 - 1) + 1)

/-- IN_CAP, the capacity of IN_MEM in bytes (R7: `1 <= IN_CAP <= 2^32 - 1`). -/
def inCap : Word := capacityOf inCapChoice

/-- OUT_CAP, the capacity of OUT_MEM in bytes (R7: `1 <= OUT_CAP <= 2^32 - 1`). -/
def outCap : Word := capacityOf outCapChoice

/-- LZW_DICT_CAP, the entries the dictionary RAM holds (R7: `LZW_DICT_CAP >= 65536`). -/
def lzwDictCap : Nat := 65536 + lzwDictCapChoice

/-! ### Constants fixed by the source or by a decision (00_scope.md R7) -/

/-- The longest run of one RLE pair (42_rle.md R141). -/
abbrev rleMaxRun : Nat := 255

/-- COUNT_W, the width of a frequency counter in bits (10_state.md R36). -/
abbrev countW : Nat := 32

/-- The number of byte values (R7, "symbol alphabet"). -/
abbrev alphabetSize : Nat := 256

/-- The Golomb divisor (44_golomb.md R200). -/
abbrev golombDivisor : Nat := 4

/-- The largest Golomb quotient of a byte (44_golomb.md R200). -/
abbrev golombMaxQuotient : Nat := 63

/-- The first LZW code that does not fit in 16 bits (45_lzw.md R222). -/
abbrev lzwCodeLimit : Nat := 65536

/-! ### Free values -/

/-- Byte `address` of IN_MEM as the reset numbered `epoch` left it (70_reset_and_hazards.md R282,
93_implementation_defined.md U14; log 2). -/
opaque freeInByte (epoch address : Nat) : Byte

/-- The byte that the `draw`-th drawing gives an OUT_MEM read whose value is unspecified
(70_reset_and_hazards.md R285, 93_implementation_defined.md U11 to U14; log 3). -/
opaque freeOutByte (draw : Nat) : Byte

/-- The number of host actions taken before the completion step, for the `draw`-th drawing
(40_dispatch.md R102, 93_implementation_defined.md U22; log 4). -/
opaque freeDelay (draw : Nat) : Nat

end Sys2Proof.Config
end

