-- ==== Sys2Proof/Syntax.lean ====
section
/-! DEFINITION. The syntax of the core: its sixteen commands (30_encoding.md R80 to R83), the four
errors a command can end with (60_exceptions.md R250), and the host's actions and script statements
(20_memory.md R60, 30_encoding.md R88 to R90). -/

namespace Sys2Proof

/-- One constructor per row of spec/opcode_table.json (30_encoding.md R83). A command has no operand
field (R85). -/
inductive Instr where
  | rleEnc
  | rleDec
  | hufEnc
  | hufDec
  | golEnc
  | golDec
  | lzwEnc
  | lzwDec
  | reserved8
  | reserved9
  | reservedA
  | reservedB
  | reservedC
  | reservedD
  | reservedE
  | reservedF
  deriving DecidableEq, Repr

/-- The codec selector CMD[3:1] (30_encoding.md R81). -/
inductive Codec where
  | runLength
  | huffman
  | golomb
  | lzw
  /-- Codec 4: the legacy arithmetic transform, out of scope (00_scope.md R4). -/
  | legacyArithmetic
  | reserved5
  | reserved6
  | reserved7
  deriving DecidableEq, Repr

/-- The direction CMD[0] (30_encoding.md R82). -/
inductive Dir where
  | compress
  | decompress
  deriving DecidableEq, Repr

/-- The errors of 60_exceptions.md R250. `IOFailure` is never raised (R255) and is no member. -/
inductive CmdError where
  /-- Raised exactly by the reserved opcodes 0x8 to 0xF (R251). -/
  | unsupportedAlgorithm
  /-- Raised by the four decompress commands (R252). -/
  | malformedData
  /-- Raised by HUF_ENC, LZW_ENC and LZW_DEC under a CONFIG guard (R253). -/
  | unsupportedInput
  /-- Raised by opcodes 0x0 to 0x7 on a finite resource (R254). -/
  | capacityExceeded
  deriving DecidableEq, Repr

/-- The three address spaces the host reaches (20_memory.md R60). -/
inductive Space where
  | reg
  | inBuf
  | outBuf
  deriving DecidableEq, Repr

/-- The five host actions (20_memory.md R60). Offsets and addresses are naturals: every one the host
can name has a defined result (10_state.md R30, 20_memory.md R65). -/
inductive HostAction where
  | regRead (off : Nat)
  | regWrite (off : Nat) (v : Word)
  | inRead (a : Nat)
  | inWrite (a : Nat) (b : Byte)
  | outRead (a : Nat)
  deriving DecidableEq, Repr

/-- An access as a bus could carry it, of any width and to any space. Only the well-formed ones are
host actions (20_memory.md R61). `data` is read for a write only. -/
structure Access where
  write : Bool
  space : Space
  width : Nat
  addr : Nat
  data : Nat
  deriving DecidableEq, Repr

/-- What a read gives the host: 32 bits from REG, a byte from IN or OUT (20_memory.md R60). -/
inductive Response where
  | word (v : Word)
  | byte (b : Byte)
  deriving DecidableEq, Repr

/-- A statement of the host's program. WR, RD, WIN, RIN and ROUT are host actions (30_encoding.md
R88). POLL and COPYBACK depend on what they read, so they are statements of their own (R89). -/
inductive HostStmt where
  /-- One of the five host actions. -/
  | act (a : HostAction)
  /-- An access given by space, width and direction, admitted or outside the interface (R61). -/
  | raw (x : Access)
  /-- POLL: repeat `RD STATUS` until bit 0 of the value read is 0 (R89). -/
  | poll
  /-- COPYBACK: its first action, `RD OUT_LEN` giving `n`, and then the loop (R89). -/
  | copyback
  /-- COPYBACK under way: bytes `i .. n` are still to be copied, then `WR IN_LEN, n` (R89). -/
  | copyLoop (i n : Nat)
  /-- The reset line is asserted here (70_reset_and_hazards.md R280). -/
  | reset
  deriving DecidableEq, Repr

namespace HostScript

/-- The register offsets of 10_state.md R21, by name. -/
def offCmd : Nat := 0x00
def offCtrl : Nat := 0x04
def offStatus : Nat := 0x08
def offConfig : Nat := 0x0C
def offInLen : Nat := 0x10
def offOutLen : Nat := 0x14
def offInCap : Nat := 0x18
def offOutCap : Nat := 0x1C

/-- `WR <reg>, <v>` (30_encoding.md R88). -/
def wr (off : Nat) (v : Word) : List HostStmt := [.act (.regWrite off v)]

/-- `RD <reg>` (30_encoding.md R88). -/
def rd (off : Nat) : List HostStmt := [.act (.regRead off)]

/-- `WIN <a>, <b0>, <b1>, ...` (30_encoding.md R88): the bytes from address `a` upward. -/
def win : Nat → List Byte → List HostStmt
  | _, [] => []
  | a, b :: bs => .act (.inWrite a b) :: win (a + 1) bs

/-- `RIN <a>` (30_encoding.md R88). -/
def rin (a : Nat) : List HostStmt := [.act (.inRead a)]

/-- `ROUT <a>` (30_encoding.md R88). -/
def rout (a : Nat) : List HostStmt := [.act (.outRead a)]

/-- `LOAD <bytes>` (30_encoding.md R89). -/
def load (bs : List Byte) : List HostStmt := win 0 bs ++ wr offInLen (BitVec.ofNat 32 bs.length)

end HostScript

end Sys2Proof
end

