-- ==== Sys2Proof/Machine/State.lean ====
section
/-! DEFINITION. The machine's state as plain data: every register, buffer, snapshot register and
internal RAM that 10_state.md names, the host agent's side, and the counters behind the free values;
the reasons a step can stop; and the state after reset (70_reset_and_hazards.md R280, R282). -/

namespace Sys2Proof.Machine

/-- The engine's sequencing state (10_state.md R34). -/
inductive Phase where
  | idle
  | busy
  deriving DecidableEq, Repr

/-- A buffer's listed bytes, at strictly rising addresses. An address that is not listed holds an
unspecified byte (70_reset_and_hazards.md R282, 20_memory.md R67; logs 2 and 3). -/
abbrev Memory := List Host.Cell

/-- A node of the prefix tree with the fields of 10_state.md R37. `kind` is the constructor, and the
children are the nodes themselves in place of their indices (92_eei_decisions.md D31; log 8). -/
inductive HuffTree where
  | leaf (sym : Byte) (freq seq : Nat)
  | node (freq seq : Nat) (left right : HuffTree)
  deriving DecidableEq, Repr

/-- The internal RAMs (10_state.md R36 to R39). None is host-visible (R40). -/
structure Ram where
  /-- FT, 256 counters of COUNT_W bits (R36). -/
  ft : List (BitVec Config.countW)
  /-- The prefix tree built last, none before the first (R37). -/
  arena : Option HuffTree
  /-- The code table, an entry per byte value; an entry's length is its `len` (R38). -/
  codeTable : List Bits
  /-- The LZW dictionary: entry `k` is D[k], and `next` is the number of entries (R39,
  45_lzw.md R220). -/
  dict : List (List Byte)
  deriving DecidableEq, Repr

/-- The machine's state. -/
structure State where
  /-- IN_CAP, constant (10_state.md R28). -/
  inCap : Word
  /-- OUT_CAP, constant (10_state.md R29). -/
  outCap : Word
  /-- LZW_DICT_CAP, constant (00_scope.md R7). -/
  lzwDictCap : Nat
  /-- CMD[3:0] (10_state.md R22). -/
  cmd : BitVec 4
  /-- STATUS (10_state.md R24). -/
  status : Word
  /-- CONFIG[2:0] (10_state.md R25). -/
  config : BitVec 3
  /-- IN_LEN (10_state.md R26). -/
  inLen : Word
  /-- OUT_LEN (10_state.md R27). -/
  outLen : Word
  /-- The engine's phase (10_state.md R34). -/
  phase : Phase
  /-- IN_MEM (10_state.md R31). -/
  inMem : Memory
  /-- OUT_MEM (10_state.md R32): the bytes that are specified. -/
  outMem : Memory
  /-- The snapshot register OP_S (10_state.md R35). -/
  opS : BitVec 4
  /-- The snapshot register CFG_S (10_state.md R35). -/
  cfgS : BitVec 3
  /-- The snapshot register IN_LEN_S (10_state.md R35). -/
  inLenS : Word
  /-- The internal RAMs (10_state.md R36 to R39). -/
  ram : Ram
  /-- What the host has still to issue, oldest first (10_state.md R20; log 5). -/
  host : List HostStmt
  /-- What the host's reads have returned, oldest first (20_memory.md R60; log 9). -/
  responses : List Response
  /-- How many host actions are still taken before the completion step (40_dispatch.md R102; log 4). -/
  delay : Nat
  /-- Delays supplied for the coming STARTs; when none is left the delay is drawn (log 4). -/
  delays : List Nat
  /-- How many free values have been drawn (log 3). -/
  draws : Nat
  /-- Which drawing IN_MEM's unwritten bytes come from (log 2). -/
  inEpoch : Nat
  deriving DecidableEq, Repr

/-- No behaviour of the core stops it: "every accepted command completes"
(93_implementation_defined.md), and the errors of 60_exceptions.md R250 are recorded in STATUS. No
step raises a fault, so there is none. -/
inductive Fault where
  deriving DecidableEq, Repr

/-- Why a step has no next state. -/
inductive Refusal where
  /-- An arm of `exec` with no meaning yet. No arm answers it. Safe. -/
  | notModelled (mnemonic : String)
  /-- Raised by a host statement that is an access of another width, or a write to OUT: "The core
  defines no result for either. A model refuses such a host action" (20_memory.md R61). Safe. -/
  | accessOutsideInterface (x : Access)
  deriving DecidableEq, Repr

/-- The RAMs at reset. Their contents are unspecified (70_reset_and_hazards.md R282) and not
observable (10_state.md R40). DESIGN CHOICE, unsafe: log 7. -/
def Ram.reset : Ram where
  ft := List.replicate Config.alphabetSize 0#32
  arena := none
  codeTable := List.replicate Config.alphabetSize []
  dict := []

/-- The machine right after reset (70_reset_and_hazards.md R280, R282). The capacities are the OPEN
parameters (log 1), the buffers list no byte (logs 2 and 3), the snapshot is a DESIGN CHOICE (log 6),
and the host has nothing to issue (log 5). -/
def State.reset : State where
  inCap := Config.inCap
  outCap := Config.outCap
  lzwDictCap := Config.lzwDictCap
  cmd := 0#4
  status := 0#32
  config := 0#3
  inLen := 0#32
  outLen := 0#32
  phase := .idle
  inMem := []
  outMem := []
  opS := 0#4
  cfgS := 0#3
  inLenS := 0#32
  ram := Ram.reset
  host := []
  responses := []
  delay := 0
  delays := []
  draws := 0
  inEpoch := 0

end Sys2Proof.Machine
end

