-- ==== Sys2Proof/Machine/Bitstream.lean ====
section
/-! DEFINITION. The bitstream primitives (41_bitstream.md R120 to R127). They are internal to the
engine and no opcode invokes one alone (R128). -/

namespace Sys2Proof.Machine

/-- `bits_MSB(v, w)`: the `w` low bits of `v`, most significant first (41_bitstream.md R120). -/
def bitsMSB (v : Nat) : Nat → Bits
  | 0 => []
  | w + 1 => decide (v / 2 ^ w % 2 = 1) :: bitsMSB v w

/-- The number of a bit string read most significant bit first. -/
def bitsToNat (s : Bits) : Nat := s.foldl (fun acc x => 2 * acc + x.toNat) 0

/-- `PadLen(L)` (41_bitstream.md R122). -/
def padLen (len : Nat) : Nat := (8 - len % 8) % 8

/-- The bytes of a bit string of whole bytes: bit `8 i + j` is bit `7 - j` of byte `i`
(41_bitstream.md R121). -/
def packBytes : Bits → List Byte
  | b7 :: b6 :: b5 :: b4 :: b3 :: b2 :: b1 :: b0 :: rest =>
    BitVec.ofNat 8 (bitsToNat [b7, b6, b5, b4, b3, b2, b1, b0]) :: packBytes rest
  | _ => []

/-- `PackMSB(s)`: the bytes and the number of zero fill bits (41_bitstream.md R121). -/
def packMSB (s : Bits) : List Byte × Nat :=
  let pad := padLen s.length
  (packBytes (s ++ List.replicate pad false), pad)

/-- `UnpackMSB(P)` (41_bitstream.md R123). -/
def unpackMSB : List Byte → Bits
  | [] => []
  | b :: bs => bitsMSB b.toNat 8 ++ unpackMSB bs

/-- `BE16(c)`: the low 16 bits of a code, the high byte first (41_bitstream.md R124). -/
def be16 (c : Nat) : List Byte := [BitVec.ofNat 8 (c / 256 % 256), BitVec.ofNat 8 (c % 256)]

/-- `UnBE16(h, l)` (41_bitstream.md R125). -/
def unBE16 (h l : Byte) : Nat := 256 * h.toNat + l.toNat

/-- `BitByte(x)` (41_bitstream.md R126). -/
def bitByte : Bool → Byte
  | false => 0x00#8
  | true => 0x01#8

/-- `ByteBit(b)`, defined for 0x00 and 0x01 only (41_bitstream.md R126). -/
def byteBit (b : Byte) : Option Bool := if b = 0x00#8 then some false else if b = 0x01#8 then some true else none

/-- `Trunc8(v)`: the low 8 bits (41_bitstream.md R127). -/
def trunc8 (v : Nat) : Byte := BitVec.ofNat 8 (v % 256)

end Sys2Proof.Machine
end

