-- ==== Sys2Proof/Machine/Flags.lean ====
section
/-! DEFINITION. The STATUS register: its fields (10_state.md R24), the error codes
(60_exceptions.md R250), and the three words START and completion write (40_dispatch.md R101, R107,
R108). -/

namespace Sys2Proof.Machine

/-- STATUS[0], BUSY (10_state.md R24). -/
def statusBusy (w : Word) : Bool := w.getLsbD 0

/-- STATUS[1], DONE (10_state.md R24). -/
def statusDone (w : Word) : Bool := w.getLsbD 1

/-- STATUS[2], ERR (10_state.md R24). -/
def statusErr (w : Word) : Bool := w.getLsbD 2

/-- STATUS[11:8], ERRCODE (10_state.md R24). -/
def statusErrCode (w : Word) : BitVec 4 := w.extractLsb' 8 4

/-- The reserved bits of STATUS, [7:3] and [31:12] (10_state.md R24). -/
def statusReserved (w : Word) : Word := w &&& 0xFFFFF0F8#32

/-- `code(E)` (60_exceptions.md R250). -/
def errorCode : CmdError → BitVec 4
  | .unsupportedAlgorithm => 1#4
  | .malformedData => 2#4
  | .unsupportedInput => 3#4
  | .capacityExceeded => 4#4

/-- What an accepted START writes: BUSY alone (40_dispatch.md R101). -/
def statusStarted : Word := 0x00000001#32

/-- What a completion with no error writes: DONE alone (40_dispatch.md R107). -/
def statusSucceeded : Word := 0x00000002#32

/-- What a completion with error `E` writes: `0x00000006 | (code(E) << 8)` (40_dispatch.md R108). -/
def statusFailed (e : CmdError) : Word := 0x00000006#32 ||| ((errorCode e).setWidth 32 <<< 8)

end Sys2Proof.Machine
end

