-- ==== Sys2Proof/Machine/Ops.lean ====
section
/-! DEFINITION. The named operations over memory, registers and the engine: buffer bytes, free
values, host register accesses (10_state.md R21 to R30), the accepted START (40_dispatch.md R100,
R101), Emit (R106), and the completions (R107, R108), of which the error completion is the core's
trap entry (60_exceptions.md R257). -/

namespace Sys2Proof.Machine

/-! ### Buffers -/

/-- The canonical form of a buffer: its addresses strictly rise. An unlisted address has no specified
value, so no listed byte equals what an unlisted address reads as. -/
abbrev Memory.wf (m : Memory) : Prop := m.Pairwise (fun x y => x.1 < y.1)

/-- Every listed address is below the buffer's capacity. -/
abbrev Memory.below (m : Memory) (cap : Nat) : Prop := ∀ x ∈ m, x.1 < cap

/-- The byte at an address where it is specified. -/
def Memory.get? (m : Memory) (a : Nat) : Option Byte := (m.find? (fun x => x.1 == a)).map Prod.snd

/-- MemWrite: one byte at one address (00_scope.md R10). -/
def Memory.write : Memory → Nat → Byte → Memory
  | [], a, b => [(a, b)]
  | (a', b') :: m, a, b =>
    if a < a' then (a, b) :: (a', b') :: m
    else if a = a' then (a, b) :: m
    else (a', b') :: Memory.write m a b

/-- Bytes written one after the other from an address upward. -/
def Memory.writeAll (m : Memory) : Nat → List Byte → Memory
  | _, [] => m
  | a, b :: bs => Memory.writeAll (m.write a b) (a + 1) bs

/-! ### Free values -/

/-- One free OUT byte, and the counter moved on (70_reset_and_hazards.md R285; log 3). -/
def State.drawOutByte (s : State) : Byte × State := (Config.freeOutByte s.draws, { s with draws := s.draws + 1 })

/-- The delay before the coming completion step: the next one supplied, or a drawn one
(40_dispatch.md R102; log 4). -/
def State.drawDelay (s : State) : State :=
  match s.delays with
  | d :: ds => { s with delay := d, delays := ds }
  | [] => { s with delay := Config.freeDelay s.draws, draws := s.draws + 1 }

/-! ### Host accesses to the buffers (20_memory.md R65) -/

/-- `IN_MEM[a]`: the byte written there, or the byte the last reset left (R282; log 2). -/
def State.inByte (s : State) (a : Nat) : Byte := (s.inMem.get? a).getD (Config.freeInByte s.inEpoch a)

/-- `InRead(a)`; "A read at or above the capacity of its space returns 0" (20_memory.md R65). -/
def State.inRead (s : State) (a : Nat) : Byte := if a < s.inCap.toNat then s.inByte a else 0x00#8

/-- `InWrite(a, b)`, ignored while BUSY and at or above the capacity (20_memory.md R65, R286). -/
def State.inWrite (s : State) (a : Nat) (b : Byte) : State :=
  match s.phase with
  | .busy => s
  | .idle => if a < s.inCap.toNat then { s with inMem := s.inMem.write a b } else s

/-- `OutRead(a)`: OUT_MEM[a] while IDLE where it is specified, else a drawn byte
(70_reset_and_hazards.md R285; log 3); 0 at or above the capacity (20_memory.md R65; log 10). -/
def State.outRead (s : State) (a : Nat) : Byte × State :=
  if a < s.outCap.toNat then
    match s.phase with
    | .busy => s.drawOutByte
    | .idle =>
      match s.outMem.get? a with
      | some b => (b, s)
      | none => s.drawOutByte
  else (0x00#8, s)

/-! ### START (40_dispatch.md R100, R101) -/

/-- What an accepted START does to the snapshot, the phase, STATUS and OUT_LEN (R101). -/
def State.latch (s : State) : State :=
  { s with
    opS := s.cmd
    cfgS := s.config
    inLenS := s.inLen
    phase := .busy
    status := statusStarted
    outLen := 0#32 }

/-- An accepted START: the latch, and the free choice of when the completion step is taken (R102). -/
def State.acceptStart (s : State) : State := s.latch.drawDelay

/-! ### Host accesses to the registers (10_state.md R21 to R30) -/

/-- `RegRead(off)`: the register map of 10_state.md R21; any other offset reads 0 (R30). -/
def State.regRead (s : State) (off : Nat) : Word :=
  if off = 0x00 then s.cmd.setWidth 32
  else if off = 0x04 then 0#32
  else if off = 0x08 then s.status
  else if off = 0x0C then s.config.setWidth 32
  else if off = 0x10 then s.inLen
  else if off = 0x14 then s.outLen
  else if off = 0x18 then s.inCap
  else if off = 0x1C then s.outCap
  else 0#32

/-- `RegWrite(off, v)` while IDLE: CMD, CTRL, CONFIG and IN_LEN take the bits they implement; a write
to a read-only register or an unmapped offset is ignored (10_state.md R22 to R30, 40_dispatch.md
R100). -/
def State.regWriteIdle (s : State) (off : Nat) (v : Word) : State :=
  if off = 0x00 then { s with cmd := v.extractLsb' 0 4 }
  else if off = 0x04 then (if v.getLsbD 0 then s.acceptStart else s)
  else if off = 0x0C then { s with config := v.extractLsb' 0 3 }
  else if off = 0x10 then { s with inLen := v }
  else s

/-- `RegWrite(off, v)`: ignored while BUSY (70_reset_and_hazards.md R286). -/
def State.regWrite (s : State) (off : Nat) (v : Word) : State :=
  match s.phase with
  | .busy => s
  | .idle => s.regWriteIdle off v

/-! ### Reset (70_reset_and_hazards.md R280 to R282) -/

/-- Reset, at any time: the registers and the phase take their reset values, the buffers, the
snapshot and the RAMs become unspecified. The parameters stay, and so does what lies outside the
core: the host's program, what it has read, and the counters of free values (log 11). -/
def State.assertReset (s : State) : State :=
  { State.reset with
    inCap := s.inCap
    outCap := s.outCap
    lzwDictCap := s.lzwDictCap
    host := s.host
    responses := s.responses
    delays := s.delays
    draws := s.draws
    inEpoch := s.inEpoch + 1 }

/-! ### Emit (40_dispatch.md R106) -/

/-- `Emit(b)`: the bytes emitted so far and one more, unless the output is full. The output cursor
`olen` is their number. -/
def emit (outCap : Nat) (out : List Byte) (b : Byte) : Except CmdError (List Byte) :=
  if out.length = outCap then .error .capacityExceeded else .ok (out ++ [b])

/-- `EmitAll(s)`: `for b in s: Emit(b)`. -/
def emitAll (outCap : Nat) (out : List Byte) : List Byte → Except CmdError (List Byte)
  | [] => .ok out
  | b :: bs =>
    match emit outCap out b with
    | .error e => .error e
    | .ok out' => emitAll outCap out' bs

/-- What a decoding loop does: the bytes it emits in order, and the error it raises after them. -/
structure Trace where
  out : List Byte
  err : Option CmdError
  deriving DecidableEq, Repr

/-- The same with one byte emitted before it. -/
def Trace.before (b : Byte) : Trace → Trace
  | ⟨out, err⟩ => ⟨b :: out, err⟩

/-- A loop that emits nothing more and ends without error. -/
def Trace.done : Trace := ⟨[], none⟩

/-- `raise MalformedData`. -/
def Trace.malformed : Trace := ⟨[], some .malformedData⟩

/-- What a codec rule's pseudocode does: the bytes it emits in order, the error it raises after them
(none when it reaches its end), and the RAMs it leaves. -/
structure CodecRun where
  out : List Byte
  err : Option CmdError
  ram : Ram
  deriving DecidableEq, Repr

/-- A decoding loop as a run that leaves the given RAMs. -/
def Trace.toRun (ram : Ram) : Trace → CodecRun
  | ⟨out, err⟩ => ⟨out, err, ram⟩

/-- A run under an output capacity. Every Emit comes before the run's own error, so an Emit that
finds the output full raises first (60_exceptions.md R256; log 14). -/
def CodecRun.finish (r : CodecRun) (outCap : Nat) : Except CmdError (List Byte) :=
  match emitAll outCap [] r.out with
  | .error e => .error e
  | .ok out =>
    match r.err with
    | some e => .error e
    | none => .ok out

/-! ### Completion (40_dispatch.md R107, R108) -/

/-- Completion with no error: the emitted bytes are OUT_MEM from address 0 and every other byte of it
is unspecified (40_dispatch.md R107, 20_memory.md R67). -/
def State.succeed (s : State) (out : List Byte) : State :=
  { s with
    outMem := Memory.writeAll [] 0 out
    outLen := BitVec.ofNat 32 out.length
    status := statusSucceeded
    phase := .idle }

/-- Completion with error `E` from one of the two checks before any buffer access: OUT_MEM is
unchanged (40_dispatch.md R104, R108). This is the core's trap entry (60_exceptions.md R257). -/
def State.fail (s : State) (e : CmdError) : State :=
  { s with
    outLen := 0#32
    status := statusFailed e
    phase := .idle }

/-- Completion with error `E` raised by a codec rule: as `State.fail`, and every byte of OUT_MEM is
unspecified (40_dispatch.md R108). -/
def State.failCodec (s : State) (e : CmdError) : State := { s.fail e with outMem := [] }

/-- A completion step ends with a result or with an error of a codec rule (40_dispatch.md R103). -/
def State.complete (s : State) : Except CmdError (List Byte) → State
  | .ok out => s.succeed out
  | .error e => s.failCodec e

end Sys2Proof.Machine
end

