-- ==== Sys2Proof/Machine/Operands.lean ====
section
/-! DEFINITION. The implicit operands of a command (30_encoding.md R85, R86), all read from the
snapshot, and the two shapes of a completion step (40_dispatch.md R103, R104). -/

namespace Sys2Proof.Machine

/-- `Fetch(i)` (40_dispatch.md R105). -/
def State.fetch (s : State) (i : Nat) : Byte := s.inByte i

/-- `IN`, the sequence `[Fetch(0), ..., Fetch(n - 1)]` with `n = IN_LEN_S` (40_dispatch.md R105). -/
def State.input (s : State) : List Byte := (List.range s.inLenS.toNat).map s.fetch

/-- CFG_S[0], GUARD_HUF_COUNT (10_state.md R25, 30_encoding.md R86). -/
def State.guardHufCount (s : State) : Bool := s.cfgS.getLsbD 0

/-- CFG_S[1], GUARD_HUF_TABLE (10_state.md R25, 30_encoding.md R86). -/
def State.guardHufTable (s : State) : Bool := s.cfgS.getLsbD 1

/-- CFG_S[2], GUARD_LZW_CODE (10_state.md R25, 30_encoding.md R86). -/
def State.guardLzwCode (s : State) : Bool := s.cfgS.getLsbD 2

/-- The completion step of a defined command: the input-length check, then the codec rule, then the
completion (40_dispatch.md R103, R104, R107, R108). -/
def State.runCodec (s : State) (codec : Ram → List Byte → CodecRun) : State :=
  if s.inLenS.toNat > s.inCap.toNat then s.fail .capacityExceeded
  else
    let r := codec s.ram s.input
    ({ s with ram := r.ram } : State).complete (r.finish s.outCap.toNat)

/-- The completion step of a reserved command: no operand is read (40_dispatch.md R109). -/
def State.runReserved (s : State) : State := s.fail .unsupportedAlgorithm

end Sys2Proof.Machine
end

