-- ==== Sys2Proof/Machine/Golomb.lean ====
section
/-! DEFINITION. The Golomb codec with divisor 4: GOL_ENC and GOL_DEC (44_golomb.md R200 to R203). -/

namespace Sys2Proof.Machine

/-- `GolCode(v)`: the unary quotient, a zero, the remainder in two bits (44_golomb.md R201). -/
def golCode (v : Byte) : Bits :=
  List.replicate (v.toNat / Config.golombDivisor) true ++ [false] ++ bitsMSB (v.toNat % Config.golombDivisor) 2

/-- The bytes GOL_ENC emits: each bit of each codeword as one byte (44_golomb.md R202). -/
def golBytes : List Byte → List Byte
  | [] => []
  | v :: xs => (golCode v).map bitByte ++ golBytes xs

/-- GOL_ENC (44_golomb.md R202). -/
def golEnc (ram : Ram) (xs : List Byte) : CodecRun := ⟨golBytes xs, none, ram⟩

/-- The two remainder bytes as their value `2*r1 + r0`, none when one of them is not a bit byte
(44_golomb.md R203). -/
def golRemainder (r1 r0 : Byte) : Option Nat :=
  match byteBit r1, byteBit r0 with
  | some x1, some x0 => some (2 * x1.toNat + x0.toNat)
  | _, _ => none

/-- GOL_DEC's loops. `q` is none at the start of a codeword and the quotient so far inside the unary
part (44_golomb.md R203). -/
def golDecode : Option Nat → List Byte → Trace
  | q, [] => if q = none then .done else .malformed
  | q, b :: rest =>
    match byteBit b with
    | none => .malformed
    | some true =>
      if q.getD 0 + 1 > Config.golombMaxQuotient then .malformed
      else golDecode (some (q.getD 0 + 1)) rest
    | some false =>
      match rest with
      | r1 :: r0 :: rest' =>
        match golRemainder r1 r0 with
        | none => .malformed
        | some r => (golDecode none rest').before (BitVec.ofNat 8 (Config.golombDivisor * q.getD 0 + r))
      | _ => .malformed

/-- GOL_DEC (44_golomb.md R203). -/
def golDec (ram : Ram) (xs : List Byte) : CodecRun := (golDecode none xs).toRun ram

/-- GOL_ENC, OP 0x4 (44_golomb.md R202). -/
def execGolEnc (s : State) : Host.Outcome State Fault Refusal := .next (s.runCodec golEnc)

/-- GOL_DEC, OP 0x5 (44_golomb.md R203). -/
def execGolDec (s : State) : Host.Outcome State Fault Refusal := .next (s.runCodec golDec)

end Sys2Proof.Machine
end

