-- ==== Sys2Proof/Machine/Huffman.lean ====
section
/-! DEFINITION. The Huffman codec: the frequency table, the prefix tree, the code table, HUF_ENC and
HUF_DEC (43_huffman.md R160 to R171). -/

namespace Sys2Proof.Machine

/-! ### The frequency table (43_huffman.md R160) -/

/-- All counters 0: the first loop of BuildFT. -/
def ftClear : List (BitVec Config.countW) := List.replicate Config.alphabetSize 0#32

/-- `FT[b] <- FT[b] + 1`. -/
def ftCount (ft : List (BitVec Config.countW)) (b : Byte) : List (BitVec Config.countW) :=
  ft.modify b.toNat (· + 1#32)

/-- `BuildFT(n)`: the count of each byte value in the input. -/
def buildFT (xs : List Byte) : List (BitVec Config.countW) := xs.foldl ftCount ftClear

/-- `FT[s]` as a number. -/
def ftGet (ft : List (BitVec Config.countW)) (s : Byte) : Nat := (ft.getD s.toNat 0#32).toNat

/-- `S`: the symbols with a count above 0, ascending. -/
def ftSymbols (ft : List (BitVec Config.countW)) : List Byte :=
  ((List.range Config.alphabetSize).map (BitVec.ofNat 8)).filter (fun s => decide (ftGet ft s > 0))

/-- The table `[(s, FT[s]) for s in S]` (43_huffman.md R168). -/
def ftTable (ft : List (BitVec Config.countW)) : List (Byte × Nat) := (ftSymbols ft).map (fun s => (s, ftGet ft s))

/-! ### The prefix tree (43_huffman.md R164) -/

/-- A node's frequency (10_state.md R37). -/
def HuffTree.freq : HuffTree → Nat
  | .leaf _ f _ => f
  | .node f _ _ _ => f

/-- A node's creation index (10_state.md R37). -/
def HuffTree.seq : HuffTree → Nat
  | .leaf _ _ k => k
  | .node _ k _ _ => k

/-- How many nodes a tree has; the arena holds at most 511 (10_state.md R37). -/
def HuffTree.size : HuffTree → Nat
  | .leaf _ _ _ => 1
  | .node _ _ l r => l.size + r.size + 1

/-- The lexicographic order of the keys `(freq, seq)` (43_huffman.md R164). -/
def keyLess (a b : HuffTree) : Bool := decide (a.freq < b.freq) || (a.freq == b.freq && decide (a.seq < b.seq))

/-- The element of `Q` with the least key, and `Q` without it; `Q` is the first argument and the
list (43_huffman.md R164). -/
def popLeast (a : HuffTree) : List HuffTree → HuffTree × List HuffTree
  | [] => (a, [])
  | b :: q =>
    if keyLess b a then
      match popLeast b q with
      | (m, rest) => (m, a :: rest)
    else
      match popLeast a q with
      | (m, rest) => (m, b :: rest)

/-- The leaves, in table order, numbered from `k` (43_huffman.md R164). -/
def huffLeaves : Nat → List (Byte × Nat) → List HuffTree
  | _, [] => []
  | k, (s, f) :: t => .leaf s f k :: huffLeaves (k + 1) t

/-- The merge loop: while `Q` has two elements, the two least are merged, the first removed on the
left, the new node numbered `next`. `fuel` is at least the number of merges (43_huffman.md R164). -/
def mergeLoop : Nat → Nat → List HuffTree → Option HuffTree
  | _, _, [] => none
  | _, _, [t] => some t
  | 0, _, _ :: _ :: _ => none
  | fuel + 1, next, q0 :: q1 :: q =>
    match popLeast q0 (q1 :: q) with
    | (a, []) => some a
    | (a, r0 :: r) =>
      match popLeast r0 r with
      | (b, rest) => mergeLoop fuel (next + 1) (.node (a.freq + b.freq) next a b :: rest)

/-- `BuildTree(T)`: the root, none only for an empty table (43_huffman.md R164). -/
def buildTree (t : List (Byte × Nat)) : Option HuffTree := mergeLoop t.length t.length (huffLeaves 0 t)

/-! ### The code table (43_huffman.md R165, R166) -/

/-- `Walk(k, p)`: each leaf's symbol with its path, 0 for left and 1 for right. -/
def walkCodes : HuffTree → Bits → List (Byte × Bits)
  | .leaf s _ _, p => [(s, p)]
  | .node _ _ l r, p => walkCodes l (p ++ [false]) ++ walkCodes r (p ++ [true])

/-- The assignments of `Codes(root)`: a single leaf takes the one bit 0. -/
def codesOf : HuffTree → List (Byte × Bits)
  | .leaf s _ _ => [(s, [false])]
  | .node f k l r => walkCodes (.node f k l r) []

/-- The code table that the assignments of `Codes(root)` leave, an entry per byte value (10_state.md R38,
43_huffman.md R165). DESIGN CHOICE, unsafe (log 7): the entry of a symbol that is not in the tree is
empty; `Codes` assigns it nothing, and R38 leaves it unspecified. -/
def codeTableOf (root : HuffTree) : List Bits :=
  (List.range Config.alphabetSize).map (fun k => ((codesOf root).lookup (BitVec.ofNat 8 k)).getD [])

/-- `code[b]`. -/
def codeGet (table : List Bits) (b : Byte) : Bits := table.getD b.toNat []

/-- `code[IN[0]] ++ code[IN[1]] ++ ...` (43_huffman.md R168). -/
def encodeBits (table : List Bits) : List Byte → Bits
  | [] => []
  | b :: bs => codeGet table b ++ encodeBits table bs

/-! ### HUF_ENC (43_huffman.md R161 to R163, R167, R168) -/

/-- The guard checks, in their order (43_huffman.md R167). -/
def hufGuards (guardTable guardCount : Bool) (ft : List (BitVec Config.countW)) : Option CmdError :=
  if guardTable = true ∧ (ftSymbols ft).length = 256 then some .unsupportedInput
  else if guardCount = true ∧ ft.any (fun c => decide (c.toNat > 255)) = true then some .unsupportedInput
  else none

/-- The table pairs: each symbol and the low 8 bits of its count (43_huffman.md R162). -/
def hufPairs : List (Byte × Nat) → List Byte
  | [] => []
  | (s, f) :: t => s :: trunc8 f :: hufPairs t

/-- The stream: paddingLength, tableSize, the pairs, the payload (43_huffman.md R161, R163). -/
def hufStream (t : List (Byte × Nat)) (bits : Bits) : List Byte :=
  match packMSB bits with
  | (payload, pad) => BitVec.ofNat 8 pad :: trunc8 t.length :: (hufPairs t ++ payload)

/-- HUF_ENC (43_huffman.md R168). The table of a non-empty input is not empty, so BuildTree gives a
root. -/
def hufEnc (guardTable guardCount : Bool) (ram : Ram) (xs : List Byte) : CodecRun :=
  if xs = [] then ⟨[0x00#8, 0x00#8], none, ram⟩
  else
    let ft := buildFT xs
    let ram := { ram with ft := ft }
    match hufGuards guardTable guardCount ft with
    | some e => ⟨[], some e, ram⟩
    | none =>
      match buildTree (ftTable ft) with
      | none => ⟨[], none, ram⟩
      | some root =>
        let table := codeTableOf root
        ⟨hufStream (ftTable ft) (encodeBits table xs), none, { ram with arena := some root, codeTable := table }⟩

/-! ### HUF_DEC (43_huffman.md R169 to R171) -/

/-- The table of a stream: `k` pairs, no symbol twice. It gives the pairs and the bytes after them,
none for a truncated table or a repeated symbol (43_huffman.md R169). -/
def parseTable : Nat → List Byte → List Byte → Option (List (Byte × Nat) × List Byte)
  | 0, _, rest => some ([], rest)
  | k + 1, seen, s :: f :: rest =>
    if s ∈ seen then none
    else
      match parseTable k (s :: seen) rest with
      | some (t, payload) => some ((s, f.toNat) :: t, payload)
      | none => none
  | _ + 1, _, _ => none

/-- `HufParse(n)`: the table and the bits to decode (43_huffman.md R169). -/
def hufParse : List Byte → Except CmdError (List (Byte × Nat) × Bits)
  | pad :: size :: rest =>
    if pad.toNat > 7 then .error .malformedData
    else if rest.length < 2 * size.toNat then .error .malformedData
    else
      match parseTable size.toNat [] rest with
      | none => .error .malformedData
      | some (tab, payload) =>
        if pad.toNat > 8 * payload.length then .error .malformedData
        else .ok (tab, (unpackMSB payload).take (8 * payload.length - pad.toNat))
  | _ => .error .malformedData

/-- The table sorted by ascending symbol (43_huffman.md R171). -/
def sortTable (t : List (Byte × Nat)) : List (Byte × Nat) := t.insertionSort (fun x y => x.1.toNat ≤ y.1.toNat)

/-- HufDecodeBits on a single-symbol stream: the symbol once per 0, and no 1 (43_huffman.md R166,
R170). -/
def decodeSingle (sym : Byte) : Bits → Trace
  | [] => .done
  | true :: _ => .malformed
  | false :: bs => (decodeSingle sym bs).before sym

/-- One bit down from a node: 0 to the left, 1 to the right; a leaf has no child. -/
def HuffTree.child : HuffTree → Bool → HuffTree
  | .leaf s f k, _ => .leaf s f k
  | .node _ _ l _, false => l
  | .node _ _ _ r, true => r

/-- HufDecodeBits' walk from `cur`: a leaf emits its symbol and the walk starts again at the root; it
must end at the root (43_huffman.md R170). -/
def decodeWalk (root : HuffTree) : HuffTree → Bits → Trace
  | cur, [] => if cur = root then .done else .malformed
  | cur, x :: bs =>
    match cur.child x with
    | .leaf s _ _ => (decodeWalk root root bs).before s
    | .node f k l r => decodeWalk root (.node f k l r) bs

/-- `HufDecodeBits(root, m, bits)` (43_huffman.md R170). -/
def hufDecodeBits (root : HuffTree) (bits : Bits) : Trace :=
  match root with
  | .leaf s _ _ => decodeSingle s bits
  | .node f k l r => decodeWalk (.node f k l r) (.node f k l r) bits

/-- HUF_DEC (43_huffman.md R171). An empty table has no tree: bits to decode are then malformed. -/
def hufDec (ram : Ram) (xs : List Byte) : CodecRun :=
  match hufParse xs with
  | .error e => ⟨[], some e, ram⟩
  | .ok (tab, bits) =>
    match buildTree (sortTable tab) with
    | none => ⟨[], if bits.length > 0 then some .malformedData else none, ram⟩
    | some root => (hufDecodeBits root bits).toRun { ram with arena := some root }

/-- HUF_ENC, OP 0x2, with GUARD_HUF_TABLE and GUARD_HUF_COUNT (43_huffman.md R168). -/
def execHufEnc (s : State) : Host.Outcome State Fault Refusal := .next (s.runCodec (hufEnc s.guardHufTable s.guardHufCount))

/-- HUF_DEC, OP 0x3 (43_huffman.md R171). -/
def execHufDec (s : State) : Host.Outcome State Fault Refusal := .next (s.runCodec hufDec)

end Sys2Proof.Machine
end

