-- ==== Sys2Proof/Machine/Lzw.lean ====
section
/-! DEFINITION. The LZW codec: LZW_ENC and LZW_DEC (45_lzw.md R220 to R226). -/

namespace Sys2Proof.Machine

/-- `LzwInit()`: the 256 single bytes; `next` is the number of entries (45_lzw.md R220). -/
def lzwInit : List (List Byte) := (List.range Config.alphabetSize).map (fun k => [BitVec.ofNat 8 k])

/-- `Insert(t)`: first the guard, then the capacity of the RAM (45_lzw.md R222). -/
def lzwInsert (guard : Bool) (cap : Nat) (dict : List (List Byte)) (t : List Byte) :
    Except CmdError (List (List Byte)) :=
  if guard = true ∧ dict.length = Config.lzwCodeLimit then .error .unsupportedInput
  else if dict.length = cap then .error .capacityExceeded
  else .ok (dict ++ [t])

/-- `code(w)`, the code whose sequence is `w` (45_lzw.md R220). -/
def lzwCode (dict : List (List Byte)) (w : List Byte) : Nat := dict.idxOf w

/-- What an LZW loop has done when it ends: the codes it wrote or the bytes it emitted, its error, and
the dictionary. -/
structure LzwEnd (α : Type) where
  out : List α
  err : Option CmdError
  dict : List (List Byte)
  deriving DecidableEq, Repr

/-- The same end after more output before it. -/
def LzwEnd.after {α : Type} (before : List α) : LzwEnd α → LzwEnd α
  | ⟨out, err, dict⟩ => ⟨before ++ out, err, dict⟩

/-- LZW_ENC's loop from the current sequence `w`, as the codes it writes (45_lzw.md R223). -/
def lzwCodes (guard : Bool) (cap : Nat) : List Byte → List (List Byte) → List Byte → LzwEnd Nat
  | w, dict, [] => ⟨if w = [] then [] else [lzwCode dict w], none, dict⟩
  | w, dict, c :: xs =>
    if w ++ [c] ∈ dict then lzwCodes guard cap (w ++ [c]) dict xs
    else
      match lzwInsert guard cap dict (w ++ [c]) with
      | .error e => ⟨[lzwCode dict w], some e, dict⟩
      | .ok dict' => (lzwCodes guard cap [c] dict' xs).after [lzwCode dict w]

/-- The stream of a list of codes, `BE16` of each (45_lzw.md R221). -/
def lzwStream : List Nat → List Byte
  | [] => []
  | k :: ks => be16 k ++ lzwStream ks

/-- LZW_ENC (45_lzw.md R223). -/
def lzwEnc (guard : Bool) (cap : Nat) (ram : Ram) (xs : List Byte) : CodecRun :=
  match lzwCodes guard cap [] lzwInit xs with
  | ⟨codes, err, dict⟩ => ⟨lzwStream codes, err, { ram with dict := dict }⟩

/-- The codes of a stream of even length, `UnBE16` of each byte pair (45_lzw.md R221, R224). -/
def lzwReadCodes : List Byte → List Nat
  | h :: l :: rest => unBE16 h l :: lzwReadCodes rest
  | _ => []

/-- The sequence a code stands for after the sequence `w`: an entry, or the code about to be assigned
(45_lzw.md R224, R225); none for a code not yet defined. -/
def lzwEntry (dict : List (List Byte)) (w : List Byte) (k : Nat) : Option (List Byte) :=
  if k < dict.length then dict[k]?
  else if k = dict.length then some (w ++ w.take 1)
  else none

/-- LZW_DEC's loop after the sequence `w`, as the bytes it emits (45_lzw.md R224). -/
def lzwExpand (guard : Bool) (cap : Nat) : List Byte → List (List Byte) → List Nat → LzwEnd Byte
  | _, dict, [] => ⟨[], none, dict⟩
  | w, dict, k :: ks =>
    match lzwEntry dict w k with
    | none => ⟨[], some .malformedData, dict⟩
    | some e =>
      match lzwInsert guard cap dict (w ++ e.take 1) with
      | .error err => ⟨e, some err, dict⟩
      | .ok dict' => (lzwExpand guard cap e dict' ks).after e

/-- LZW_DEC after its length checks: the first code is a single byte (45_lzw.md R224). -/
def lzwDecodeCodes (guard : Bool) (cap : Nat) : List Nat → LzwEnd Byte
  | [] => ⟨[], none, lzwInit⟩
  | k :: ks =>
    if k > 255 then ⟨[], some .malformedData, lzwInit⟩
    else (lzwExpand guard cap [BitVec.ofNat 8 k] lzwInit ks).after [BitVec.ofNat 8 k]

/-- LZW_DEC (45_lzw.md R224). -/
def lzwDec (guard : Bool) (cap : Nat) (ram : Ram) (xs : List Byte) : CodecRun :=
  if xs.length % 2 = 1 then ⟨[], some .malformedData, ram⟩
  else if xs = [] then ⟨[], none, ram⟩
  else
    match lzwDecodeCodes guard cap (lzwReadCodes xs) with
    | ⟨out, err, dict⟩ => ⟨out, err, { ram with dict := dict }⟩

/-- LZW_ENC, OP 0x6, with GUARD_LZW_CODE and LZW_DICT_CAP (45_lzw.md R223). -/
def execLzwEnc (s : State) : Host.Outcome State Fault Refusal := .next (s.runCodec (lzwEnc s.guardLzwCode s.lzwDictCap))

/-- LZW_DEC, OP 0x7, with GUARD_LZW_CODE and LZW_DICT_CAP (45_lzw.md R224). -/
def execLzwDec (s : State) : Host.Outcome State Fault Refusal := .next (s.runCodec (lzwDec s.guardLzwCode s.lzwDictCap))

end Sys2Proof.Machine
end

