-- ==== Sys2Proof/Machine/Reserved.lean ====
section
/-! DEFINITION. The reserved commands, OP 0x8 to 0xF (40_dispatch.md R109, 30_encoding.md R84): each
completes with UnsupportedAlgorithm and accesses no buffer. -/

namespace Sys2Proof.Machine

/-- Reserved OP 0x8, the excluded legacy transform's compress (40_dispatch.md R109). -/
def execReserved8 (s : State) : Host.Outcome State Fault Refusal := .next s.runReserved

/-- Reserved OP 0x9, the excluded legacy transform's decompress (40_dispatch.md R109). -/
def execReserved9 (s : State) : Host.Outcome State Fault Refusal := .next s.runReserved

/-- Reserved OP 0xA (40_dispatch.md R109). -/
def execReservedA (s : State) : Host.Outcome State Fault Refusal := .next s.runReserved

/-- Reserved OP 0xB (40_dispatch.md R109). -/
def execReservedB (s : State) : Host.Outcome State Fault Refusal := .next s.runReserved

/-- Reserved OP 0xC (40_dispatch.md R109). -/
def execReservedC (s : State) : Host.Outcome State Fault Refusal := .next s.runReserved

/-- Reserved OP 0xD (40_dispatch.md R109). -/
def execReservedD (s : State) : Host.Outcome State Fault Refusal := .next s.runReserved

/-- Reserved OP 0xE (40_dispatch.md R109). -/
def execReservedE (s : State) : Host.Outcome State Fault Refusal := .next s.runReserved

/-- Reserved OP 0xF (40_dispatch.md R109). -/
def execReservedF (s : State) : Host.Outcome State Fault Refusal := .next s.runReserved

end Sys2Proof.Machine
end

