-- ==== Sys2Proof/Machine/Rle.lean ====
section
/-! DEFINITION. The run-length codec: RLE_ENC and RLE_DEC (42_rle.md R140 to R142). -/

namespace Sys2Proof.Machine

/-- RLE_ENC's inner loop: a run of `r` bytes `v` so far, and the bytes that follow it. The run takes
the next byte while it equals `v` and the run is shorter than 255 (42_rle.md R141). -/
def rleRun (v : Byte) (r : Nat) : List Byte → List Byte
  | [] => [v, BitVec.ofNat 8 r]
  | x :: xs => if x = v ∧ r < Config.rleMaxRun then rleRun v (r + 1) xs else v :: BitVec.ofNat 8 r :: rleRun x 1 xs

/-- The bytes RLE_ENC emits (42_rle.md R141). -/
def rleBytes : List Byte → List Byte
  | [] => []
  | v :: xs => rleRun v 1 xs

/-- RLE_ENC (42_rle.md R141). -/
def rleEnc (ram : Ram) (xs : List Byte) : CodecRun := ⟨rleBytes xs, none, ram⟩

/-- The bytes RLE_DEC emits: each pair `(value, count)` stands for `count` copies (42_rle.md R140,
R142). -/
def rleExpand : List Byte → List Byte
  | v :: c :: rest => List.replicate c.toNat v ++ rleExpand rest
  | _ => []

/-- RLE_DEC: an odd length is refused before any output (42_rle.md R142). -/
def rleDec (ram : Ram) (xs : List Byte) : CodecRun :=
  if xs.length % 2 = 1 then ⟨[], some .malformedData, ram⟩ else ⟨rleExpand xs, none, ram⟩

/-- RLE_ENC, OP 0x0 (42_rle.md R141). -/
def execRleEnc (s : State) : Host.Outcome State Fault Refusal := .next (s.runCodec rleEnc)

/-- RLE_DEC, OP 0x1 (42_rle.md R142). -/
def execRleDec (s : State) : Host.Outcome State Fault Refusal := .next (s.runCodec rleDec)

end Sys2Proof.Machine
end

