-- ==== Sys2Proof/WellFormed.lean ====
section
/-! DEFINITION. Which terms of the syntax are well formed. A command has no operand field
(30_encoding.md R85), so every `Instr` is. An access is when its width and direction are admitted
(20_memory.md R60, R61). -/

namespace Sys2Proof

/-- Every command is well formed: "Every command has one format" of four bits and "every 4-bit value
is exactly one row" (30_encoding.md R80, R83). -/
def Instr.wf (_ : Instr) : Bool := true

/-- The only access width of a space (20_memory.md R60). -/
def Space.width : Space → Nat
  | .reg => 32
  | .inBuf => 8
  | .outBuf => 8

/-- An access inside the interface: the space's own width, data of that width, and no write to OUT
(20_memory.md R60, R61). -/
def Access.wf (x : Access) : Bool :=
  x.width == x.space.width && decide (x.data < 2 ^ x.width) && !(x.write && x.space == .outBuf)

/-- A host statement is well formed unless it is an access outside the interface. -/
def HostStmt.wf : HostStmt → Bool
  | .raw x => x.wf
  | .act _ => true
  | .poll => true
  | .copyback => true
  | .copyLoop _ _ => true
  | .reset => true

end Sys2Proof
end

