-- ==== Sys2Proof/Decode.lean ====
section
/-! DEFINITION. Decoding of commands (30_encoding.md R80 to R83), the encoder, the admission of a
bus access as a host action (20_memory.md R61), and the encoding of host actions as lines
(30_encoding.md R90). -/

namespace Sys2Proof

/-! ### The command word -/

/-- The CODEC field of a command, bits [3:1] (30_encoding.md R80). -/
def opCodecField (op : BitVec 4) : BitVec 3 := op.extractLsb' 1 3

/-- The DIR field of a command, bit [0] (30_encoding.md R80). -/
def opDirField (op : BitVec 4) : Bool := op.getLsbD 0

/-- CODEC by number (30_encoding.md R81). -/
def decodeCodec (c : BitVec 3) : Codec :=
  match c.toFin with
  | 0 => .runLength
  | 1 => .huffman
  | 2 => .golomb
  | 3 => .lzw
  | 4 => .legacyArithmetic
  | 5 => .reserved5
  | 6 => .reserved6
  | 7 => .reserved7

/-- DIR = 0 is compress, DIR = 1 decompress (30_encoding.md R82). -/
def decodeDir : Bool → Dir
  | false => .compress
  | true => .decompress

/-- The row of the opcode map for a codec and a direction (30_encoding.md R83). -/
def instrOf : Codec → Dir → Instr
  | .runLength, .compress => .rleEnc
  | .runLength, .decompress => .rleDec
  | .huffman, .compress => .hufEnc
  | .huffman, .decompress => .hufDec
  | .golomb, .compress => .golEnc
  | .golomb, .decompress => .golDec
  | .lzw, .compress => .lzwEnc
  | .lzw, .decompress => .lzwDec
  | .legacyArithmetic, .compress => .reserved8
  | .legacyArithmetic, .decompress => .reserved9
  | .reserved5, .compress => .reservedA
  | .reserved5, .decompress => .reservedB
  | .reserved6, .compress => .reservedC
  | .reserved6, .decompress => .reservedD
  | .reserved7, .compress => .reservedE
  | .reserved7, .decompress => .reservedF

/-- The command of a 4-bit OP: "A decoder of OP is total: every 4-bit value is exactly one row"
(30_encoding.md R83). -/
def decodeOp (op : BitVec 4) : Instr := instrOf (decodeCodec (opCodecField op)) (decodeDir (opDirField op))

/-- The command of a CMD word: "The register's bits [31:4] are not part of the command" (R80). -/
def decodeCmd (w : Word) : Instr := decodeOp (w.extractLsb' 0 4)

/-- Why a byte string names no command. -/
inductive DecodeReject where
  /-- There is no byte to take CMD[3:0] from. -/
  | noCommandByte
  deriving DecidableEq, Repr

/-- A command and the rest of the bytes. The command takes one whole byte, of which bits [3:0] are
OP and the rest is not part of it (30_encoding.md R80; log 13). -/
def decodeBytes : List Byte → Except DecodeReject (Instr × List Byte)
  | [] => .error .noCommandByte
  | b :: rest => .ok (decodeOp (b.extractLsb' 0 4), rest)

/-- The bytes of a word of `n` bits, in whole bytes, the byte of bits [7:0] first. -/
def tableBytes (nbits w : Nat) : List Byte :=
  (List.range ((nbits + 7) / 8)).map (fun i => BitVec.ofNat 8 (w / 2 ^ (8 * i)))

/-- The command the decoder reads from a word numbered as spec/opcode_table.json numbers it. -/
def decodeTableWord (nbits w : Nat) : Option Instr :=
  match decodeBytes (tableBytes nbits w) with
  | .ok (i, _) => some i
  | .error _ => none

/-! ### The encoder (30_encoding.md R80 to R83) -/

/-- The codec of a command (30_encoding.md R83, column CODEC). -/
def Instr.codec : Instr → Codec
  | .rleEnc => .runLength
  | .rleDec => .runLength
  | .hufEnc => .huffman
  | .hufDec => .huffman
  | .golEnc => .golomb
  | .golDec => .golomb
  | .lzwEnc => .lzw
  | .lzwDec => .lzw
  | .reserved8 => .legacyArithmetic
  | .reserved9 => .legacyArithmetic
  | .reservedA => .reserved5
  | .reservedB => .reserved5
  | .reservedC => .reserved6
  | .reservedD => .reserved6
  | .reservedE => .reserved7
  | .reservedF => .reserved7

/-- The direction of a command (30_encoding.md R83, column DIR). -/
def Instr.dir : Instr → Dir
  | .rleEnc => .compress
  | .rleDec => .decompress
  | .hufEnc => .compress
  | .hufDec => .decompress
  | .golEnc => .compress
  | .golDec => .decompress
  | .lzwEnc => .compress
  | .lzwDec => .decompress
  | .reserved8 => .compress
  | .reserved9 => .decompress
  | .reservedA => .compress
  | .reservedB => .decompress
  | .reservedC => .compress
  | .reservedD => .decompress
  | .reservedE => .compress
  | .reservedF => .decompress

/-- The CODEC number of a codec (30_encoding.md R81). -/
def encodeCodec : Codec → BitVec 3
  | .runLength => 0#3
  | .huffman => 1#3
  | .golomb => 2#3
  | .lzw => 3#3
  | .legacyArithmetic => 4#3
  | .reserved5 => 5#3
  | .reserved6 => 6#3
  | .reserved7 => 7#3

/-- The DIR bit of a direction (30_encoding.md R82). -/
def encodeDir : Dir → BitVec 1
  | .compress => 0#1
  | .decompress => 1#1

/-- OP = CODEC : DIR (30_encoding.md R80). -/
def encode (i : Instr) : BitVec 4 := encodeCodec i.codec ++ encodeDir i.dir

/-- The CMD word that selects a command, its reserved bits 0 (30_encoding.md R80). -/
def encodeCmd (i : Instr) : Word := (encode i).setWidth 32

/-- A command is defined when its codec is 0 to 3; OP 0x8 to 0xF are reserved (30_encoding.md R84). -/
def Instr.reserved (i : Instr) : Bool :=
  match i.codec with
  | .runLength => false
  | .huffman => false
  | .golomb => false
  | .lzw => false
  | .legacyArithmetic => true
  | .reserved5 => true
  | .reserved6 => true
  | .reserved7 => true

/-! ### The source's names (30_encoding.md R81, R87): the host's side of dispatch -/

/-- The source's name literal of a codec (30_encoding.md R81). -/
def Codec.sourceName : Codec → Option String
  | .runLength => some "Run-Length Encoding Algorithm"
  | .huffman => some "Huffman Coding Algorithm"
  | .golomb => some "Golomb code alggorithm"
  | .lzw => some "Lempel-Ziv-Welch Algorithm"
  | .legacyArithmetic => some "Arithmetic Algorithm"
  | .reserved5 => none
  | .reserved6 => none
  | .reserved7 => none

/-- Host software's map from a source name to a defined command: exact, case-sensitive match; none is
the host's own `UnsupportedAlgorithm`, with no START (30_encoding.md R87). DESIGN CHOICE (log 22): R87
does not say whether "Arithmetic Algorithm", the name of the reserved codec 4, is in the set; the set
here is the names of the four defined codecs, so it is not. -/
def commandOfName (name : String) (d : Dir) : Option Instr :=
  ([Codec.runLength, .huffman, .golomb, .lzw].find? (fun c => c.sourceName == some name)).map (instrOf · d)

/-! ### Bus accesses (20_memory.md R60, R61) -/

/-- The host action a well-formed access is; none outside the interface. -/
def Access.decode (x : Access) : Option HostAction :=
  if x.wf then
    match x.space, x.write with
    | .reg, false => some (.regRead x.addr)
    | .reg, true => some (.regWrite x.addr (BitVec.ofNat 32 x.data))
    | .inBuf, false => some (.inRead x.addr)
    | .inBuf, true => some (.inWrite x.addr (BitVec.ofNat 8 x.data))
    | .outBuf, false => some (.outRead x.addr)
    | .outBuf, true => none
  else none

/-- The access a host action is, its data 0 on a read (20_memory.md R60, 30_encoding.md R90). -/
def HostAction.encode : HostAction → Access
  | .regRead off => ⟨false, .reg, 32, off, 0⟩
  | .regWrite off v => ⟨true, .reg, 32, off, v.toNat⟩
  | .inRead a => ⟨false, .inBuf, 8, a, 0⟩
  | .inWrite a b => ⟨true, .inBuf, 8, a, b.toNat⟩
  | .outRead a => ⟨false, .outBuf, 8, a, 0⟩

/-! ### Host-action lines (30_encoding.md R90) -/

/-- One upper-case hexadecimal digit. -/
def hexDigit (n : Nat) : Char := if n < 10 then Char.ofNat (48 + n) else Char.ofNat (55 + n)

/-- The low `k` hexadecimal digits of a number, most significant first. -/
def hexDigits : Nat → Nat → List Char
  | 0, _ => []
  | k + 1, n => hexDigit (n / 16 ^ k % 16) :: hexDigits k n

/-- How many hexadecimal digits an address is written with: at least two, and all it needs. -/
def addressDigits (a : Nat) : Nat := max 2 (Nat.log 16 a + 1)

/-- `<R|W> <space> <address> <data>`, with `--` for the data of a read (30_encoding.md R90). -/
def HostAction.line (h : HostAction) : List Char :=
  let x := h.encode
  let dir := if x.write then ['W'] else ['R']
  let space :=
    match x.space with
    | .reg => ['R', 'E', 'G']
    | .inBuf => ['I', 'N', ' ']
    | .outBuf => ['O', 'U', 'T']
  let data := if x.write then hexDigits (x.width / 4) x.data else ['-', '-']
  dir ++ [' '] ++ space ++ [' ', '0', 'x'] ++ hexDigits (addressDigits x.addr) x.addr ++ [' '] ++ data

/-! ### RUN (30_encoding.md R89) -/

/-- `RUN <mnemonic>`: `WR CMD, <OP>`, then `WR CTRL, 1`, then `POLL` (30_encoding.md R89). -/
def HostScript.run (i : Instr) : List HostStmt :=
  HostScript.wr HostScript.offCmd (encodeCmd i) ++ HostScript.wr HostScript.offCtrl 1#32 ++ [.poll]

end Sys2Proof
end

