-- ==== Sys2Proof/Machine/HostAgent.lean ====
section
/-! DEFINITION. One action of the host agent (10_state.md R20): the five host actions (20_memory.md
R60), the script statements POLL and COPYBACK (30_encoding.md R89), an access outside the interface
(20_memory.md R61), and reset (70_reset_and_hazards.md R280). -/

namespace Sys2Proof.Machine

/-- A value returned to the host. -/
def State.respond (s : State) (r : Response) : State := { s with responses := s.responses ++ [r] }

/-- One host action: a read appends what it returns to the host's responses (20_memory.md R60). -/
def State.act (s : State) : HostAction → State
  | .regRead off => s.respond (.word (s.regRead off))
  | .regWrite off v => s.regWrite off v
  | .inRead a => s.respond (.byte (s.inRead a))
  | .inWrite a b => s.inWrite a b
  | .outRead a => (s.outRead a).2.respond (.byte (s.outRead a).1)

/-- The host turns to its remaining statements, and one host action less stands before the engine's
completion step (40_dispatch.md R102; log 4). -/
def State.popHost (s : State) (rest : List HostStmt) : State := { s with host := rest, delay := s.delay - 1 }

/-- POLL's action: `RD STATUS`, and the same statement again while the value has BUSY = 1
(30_encoding.md R89). -/
def State.poll (s : State) : State :=
  let t := s.act (.regRead HostScript.offStatus)
  if statusBusy (s.regRead HostScript.offStatus) then { t with host := .poll :: t.host } else t

/-- COPYBACK's first action: `RD OUT_LEN` giving `n`, then the loop (30_encoding.md R89). -/
def State.copyback (s : State) : State :=
  let t := s.act (.regRead HostScript.offOutLen)
  { t with host := .copyLoop 0 (s.regRead HostScript.offOutLen).toNat :: t.host }

/-- COPYBACK's loop: `ROUT i` giving `b`, then `WIN i, b` and the rest of the loop; at its end
`WR IN_LEN, n` (30_encoding.md R89). -/
def State.copyLoop (s : State) (i n : Nat) : State :=
  if i < n then
    let t := s.act (.outRead i)
    { t with host := .act (.inWrite i (s.outRead i).1) :: .copyLoop (i + 1) n :: t.host }
  else s.act (.regWrite HostScript.offInLen (BitVec.ofNat 32 n))

/-- One statement of the host's program, taken off the program already. Each takes exactly one host
action, or asserts reset; an access outside the interface is refused (20_memory.md R61). -/
def State.hostStmt (s : State) : HostStmt → Host.Outcome State Fault Refusal
  | .act a => .next (s.act a)
  | .raw x =>
    match x.decode with
    | some a => .next (s.act a)
    | none => .refused (.accessOutsideInterface x)
  | .poll => .next s.poll
  | .copyback => .next s.copyback
  | .copyLoop i n => .next (s.copyLoop i n)
  | .reset => .next s.assertReset

/-- The engine takes the next turn: it is BUSY, and the delay is over or the host has nothing left to
issue (40_dispatch.md R102; log 4). -/
def State.engineTurn (s : State) : Bool := s.phase == .busy && (s.delay == 0 || s.host.isEmpty)

end Sys2Proof.Machine
end

