-- ==== Sys2Proof/Machine/Step.lean ====
section
/-! DEFINITION. One step of the core: the engine's completion step or the host's next action
(10_state.md R20, 20_memory.md R68), and where a command waits to be run. -/

namespace Sys2Proof.Machine

/-- One step. In the engine's turn the command in OP_S completes (40_dispatch.md R103); else the host
takes its next statement; with no statement left and the engine IDLE, nothing happens ("While the
phase is IDLE the engine has no step", R102; log 5). -/
def step (s : State) : Host.Outcome State Fault Refusal :=
  if s.engineTurn then exec (decodeOp s.opS) s
  else
    match s.host with
    | [] => .next s
    | st :: rest => (s.popHost rest).hostStmt st

/-- The core fetches no instruction (10_state.md R34): the engine runs the command in OP_S. This is
the host's `WR CMD, w` and the accepted START of it, with the completion step due at once (log 5). -/
def State.withFetchWord (s : State) (nbits w : Nat) : State :=
  { ({ s with cmd := BitVec.ofNat 4 (w % 2 ^ nbits) } : State).latch with delay := 0 }

end Sys2Proof.Machine
end

