-- ==== Sys2Proof/Safety.lean ====
section
/-! DEFINITION. The terms claims are made in: what a completion leaves (40_dispatch.md R107, R108),
what every completion leaves alone, the invariant of the core, and the refusals a safe run can meet. -/

namespace Sys2Proof.Machine

/-- What no completion step changes: the parameters, the registers the host writes, IN_MEM, the
snapshot, and everything outside the core (20_memory.md R72, 60_exceptions.md R257). -/
structure SameOutside (s t : State) : Prop where
  inCap : t.inCap = s.inCap
  outCap : t.outCap = s.outCap
  lzwDictCap : t.lzwDictCap = s.lzwDictCap
  cmd : t.cmd = s.cmd
  config : t.config = s.config
  inLen : t.inLen = s.inLen
  inMem : t.inMem = s.inMem
  inBytes : ∀ a, t.inByte a = s.inByte a
  opS : t.opS = s.opS
  cfgS : t.cfgS = s.cfgS
  inLenS : t.inLenS = s.inLenS
  host : t.host = s.host
  responses : t.responses = s.responses
  delay : t.delay = s.delay
  delays : t.delays = s.delays
  draws : t.draws = s.draws
  inEpoch : t.inEpoch = s.inEpoch

/-- `t` is `s` after a completion with no error whose output is `out`: STATUS, OUT_LEN, the phase, the
bytes of OUT_MEM (none specified at or above OUT_LEN), and nothing else but the internal RAMs
(40_dispatch.md R107, 20_memory.md R67). -/
structure Succeeded (s t : State) (out : List Byte) : Prop where
  status : t.status = 0x00000002#32
  outLen : t.outLen.toNat = out.length
  phase : t.phase = .idle
  outBytes : ∀ a, t.outMem.get? a = out[a]?
  same : SameOutside s t

/-- `t` is `s` after a completion with error `e` that a codec rule raised: no byte of OUT_MEM is
specified (40_dispatch.md R108). -/
structure FailedInCodec (s t : State) (e : CmdError) : Prop where
  status : t.status = statusFailed e
  outLen : t.outLen = 0#32
  phase : t.phase = .idle
  outBytes : ∀ a, t.outMem.get? a = none
  same : SameOutside s t

/-- `t` is `s` after a completion with error `e` raised before any buffer access: OUT_MEM is unchanged
(40_dispatch.md R104, R108), and so are the RAMs, which is the model's choice (log 7). -/
structure FailedBeforeAccess (s t : State) (e : CmdError) : Prop where
  status : t.status = statusFailed e
  outLen : t.outLen = 0#32
  phase : t.phase = .idle
  outMem : t.outMem = s.outMem
  ram : t.ram = s.ram
  same : SameOutside s t

/-- The sizes of the internal RAMs (10_state.md R36 to R39). -/
structure Ram.Sized (r : Ram) (dictCap : Nat) : Prop where
  /-- FT has 256 entries (R36). -/
  ft : r.ft.length = 256
  /-- The arena holds up to 511 nodes (R37). -/
  arena : ∀ t, r.arena = some t → t.size ≤ 511
  /-- The code table has 256 entries (R38). -/
  codeTable : r.codeTable.length = 256
  /-- A code's length fits in 8 bits (R38). -/
  codes : ∀ c ∈ r.codeTable, c.length ≤ 255
  /-- The dictionary never holds more than LZW_DICT_CAP entries (R39, 45_lzw.md R222). -/
  dict : r.dict.length ≤ dictCap

/-- The phase, STATUS, OUT_LEN and the specified bytes of OUT_MEM fit together (10_state.md R24, R27,
40_dispatch.md R101, R107, R108). -/
inductive StatusLegal (s : State) : Prop where
  /-- No command started since reset. -/
  | fresh : s.phase = .idle → s.status = 0#32 → s.outLen = 0#32 → StatusLegal s
  /-- A command is running. -/
  | running : s.phase = .busy → s.status = statusStarted → s.outLen = 0#32 → StatusLegal s
  /-- The last command succeeded, and exactly `OUT_MEM[0..OUT_LEN)` is specified. -/
  | succeeded : s.phase = .idle → s.status = statusSucceeded →
      (∀ a, (s.outMem.get? a).isSome = true ↔ a < s.outLen.toNat) → StatusLegal s
  /-- The last command failed. -/
  | failed (e : CmdError) : s.phase = .idle → s.status = statusFailed e → s.outLen = 0#32 → StatusLegal s

/-- The invariant of the core: the parameters are in the range of 00_scope.md R7, the buffers are
canonical and within their capacities, STATUS is legal, and the RAMs have their sizes. -/
structure Inv (s : State) : Prop where
  inCap : 1 ≤ s.inCap.toNat
  outCap : 1 ≤ s.outCap.toNat
  lzwDictCap : 65536 ≤ s.lzwDictCap
  inMem : s.inMem.wf
  inMemBelow : s.inMem.below s.inCap.toNat
  outMem : s.outMem.wf
  outMemBelow : s.outMem.below s.outCap.toNat
  outLen : s.outLen.toNat ≤ s.outCap.toNat
  status : StatusLegal s
  ram : s.ram.Sized s.lzwDictCap

/-- The key `(freq, seq)` of one node is at most that of another, lexicographically (43_huffman.md
R164). -/
def keyAtMost (a x : HuffTree) : Prop := a.freq < x.freq ∨ (a.freq = x.freq ∧ a.seq ≤ x.seq)

/-- BuildTree's loop as a relation on the set Q, which a list stands for in any order: the element with
the least key is removed first and becomes the left child, then the least of the rest the right child,
and the new node numbered `next` goes into Q; the last element is the root (43_huffman.md R164). -/
inductive MergesTo : Nat → List HuffTree → HuffTree → Prop where
  | root (next : Nat) (t : HuffTree) : MergesTo next [t] t
  | merge {next : Nat} {q rest : List HuffTree} {a b t : HuffTree} :
      q.Perm (a :: b :: rest) → (∀ x ∈ q, keyAtMost a x) → (∀ x ∈ b :: rest, keyAtMost b x) →
      MergesTo (next + 1) (.node (a.freq + b.freq) next a b :: rest) t → MergesTo next q t

/-- A host program with no access outside the interface and no reset in it. -/
def quietProgram (p : List HostStmt) : Prop := ∀ st ∈ p, st.wf = true ∧ st ≠ .reset

end Sys2Proof.Machine
end

