-- ==== Sys2Proof/Certificates/Slice0/Obligations.lean ====
section
/-! DEFINITION. The statements for the provers. Each docstring names the rules of spec/ it rests on;
"model" marks a clause that rests on a log entry and not on a rule. -/

open Sys2Proof Sys2Proof.Machine

namespace Sys2Proof.Claims

/-- The commands of the four codecs, OP 0x0 to 0x7 (30_encoding.md R83). -/
def definedCommands : List Instr := [.rleEnc, .rleDec, .hufEnc, .hufDec, .golEnc, .golDec, .lzwEnc, .lzwDec]

/-- The reserved commands, OP 0x8 to 0xF (30_encoding.md R84). -/
def reservedCommands : List Instr :=
  [.reserved8, .reserved9, .reservedA, .reservedB, .reservedC, .reservedD, .reservedE, .reservedF]

/-- The decompress commands (60_exceptions.md R252). -/
def decoders : List Instr := [.rleDec, .hufDec, .golDec, .lzwDec]

/-- The host takes the next step: the engine is IDLE, or some host action still comes first. -/
abbrev hostsTurn (s : State) : Prop := s.phase = .idle ∨ s.delay ≠ 0

/-- The command's input fits the input buffer (40_dispatch.md R104). -/
abbrev inputFits (s : State) : Prop := s.inLenS.toNat ≤ s.inCap.toNat

/-- One Golomb codeword as bytes: the quotient's ones, a zero, the two remainder bits (44_golomb.md
R201, R202). -/
def golWord (v : Byte) : List Byte :=
  List.replicate (v.toNat / 4) 0x01#8 ++ [0x00#8, BitVec.ofNat 8 (v.toNat % 4 / 2), BitVec.ofNat 8 (v.toNat % 2)]

/-- The distinct symbols of an input in ascending order, each with its exact count (43_huffman.md
R160). -/
def symbolCounts (xs : List Byte) : List (Byte × Nat) :=
  (((List.range 256).map (BitVec.ofNat 8)).filter (fun b => decide (b ∈ xs))).map (fun b => (b, xs.count b))

/-- The code of a symbol in a tree (43_huffman.md R165). -/
def codeOf (root : HuffTree) (b : Byte) : Bits := ((codesOf root).lookup b).getD []

/-- The codes of an input, one after the other (43_huffman.md R168). -/
def codeBits (root : HuffTree) (xs : List Byte) : Bits := xs.flatMap (codeOf root)

/-- A table as the byte pairs of a stream (43_huffman.md R161). -/
def tablePairs (tab : List (Byte × Byte)) : List Byte := tab.flatMap (fun p => [p.1, p.2])

/-- A table's counts as numbers. -/
def tableCounts (tab : List (Byte × Byte)) : List (Byte × Nat) := tab.map (fun p => (p.1, p.2.toNat))

/-- A stream with a valid header and table: the padding is at most 7 bits and no more than the payload
has, the table's symbols are distinct, and `bits` are the payload's bits without the fill bits, whose
values are not read (43_huffman.md R161, R169). -/
def validHufStream (xs : List Byte) (tab : List (Byte × Byte)) (bits : Bits) : Prop :=
  ∃ pad size payload, xs = pad :: size :: (tablePairs tab ++ payload) ∧ tab.length = size.toNat ∧
    (tab.map Prod.fst).Nodup ∧ pad.toNat ≤ 7 ∧ pad.toNat ≤ 8 * payload.length ∧
    bits = (unpackMSB payload).take (8 * payload.length - pad.toNat)

/-- The bytes of HUF_ENC's output before any error: header, table and payload (43_huffman.md R161). -/
def hufEncLength (root : HuffTree) (xs : List Byte) : Nat :=
  2 + 2 * (symbolCounts xs).length + ((codeBits root xs).length + 7) / 8

/-- No guard that is set applies to the input (43_huffman.md R167). -/
def hufUnguarded (s : State) : Prop :=
  (s.guardHufTable = true → (symbolCounts s.input).length ≠ 256) ∧
  (s.guardHufCount = true → ∀ b, s.input.count b ≤ 255)

/-- The leaves BuildTree starts with: one per table entry, numbered in table order (43_huffman.md
R164). -/
def tableLeaves (t : List (Byte × Nat)) : List HuffTree := t.zipIdx.map (fun p => .leaf p.1.1 p.1.2 p.2)

/-- The end of LZW_ENC's loop for a state's operands (45_lzw.md R223). -/
def lzwEncEnd (s : State) : LzwEnd Nat := lzwCodes s.guardLzwCode s.lzwDictCap [] lzwInit s.input

end Sys2Proof.Claims

open Sys2Proof.Claims

/-! ### Encoding and steps -/

/-- 30_encoding.md R83, the whole table: every value of OP is one row, and a row's CODEC and DIR are
the value's fields. -/
def Obligations.OpcodeMapIsTheTable : Prop :=
  decodeOp 0x0#4 = .rleEnc ∧ decodeOp 0x1#4 = .rleDec ∧ decodeOp 0x2#4 = .hufEnc ∧ decodeOp 0x3#4 = .hufDec ∧
  decodeOp 0x4#4 = .golEnc ∧ decodeOp 0x5#4 = .golDec ∧ decodeOp 0x6#4 = .lzwEnc ∧ decodeOp 0x7#4 = .lzwDec ∧
  decodeOp 0x8#4 = .reserved8 ∧ decodeOp 0x9#4 = .reserved9 ∧ decodeOp 0xA#4 = .reservedA ∧
  decodeOp 0xB#4 = .reservedB ∧ decodeOp 0xC#4 = .reservedC ∧ decodeOp 0xD#4 = .reservedD ∧
  decodeOp 0xE#4 = .reservedE ∧ decodeOp 0xF#4 = .reservedF ∧
  ∀ op : BitVec 4, encodeCodec (decodeOp op).codec = op.extractLsb' 1 3 ∧ encodeDir (decodeOp op).dir = op.extractLsb' 0 1

/-- 30_encoding.md R80, R83: decoding a CMD word whose OP field is a command's encoding gives the
command, whatever the reserved bits, and encoding what a CMD word decodes to gives its OP field. -/
def Obligations.DecodeAndEncodeAgree : Prop :=
  (∀ (i : Instr) (upper : BitVec 28), i.wf = true → decodeCmd (upper ++ encode i) = i) ∧
  ∀ w : Word, encode (decodeCmd w) = w.extractLsb' 0 4

/-- 40_dispatch.md R102, R103: in the engine's turn a step is the completion step of the command in
OP_S. That the turn comes when `delay` is 0 or the host has nothing to issue is the model's (log 4). -/
def Obligations.StepRunsTheCommandInOpS : Prop :=
  ∀ (s : State) (i : Instr), s.phase = .busy → (s.delay = 0 ∨ s.host = []) → decodeOp s.opS = i → step s = exec i s

/-- 40_dispatch.md R102, 20_memory.md R68: otherwise the host takes its next statement, and with none
left an IDLE core stays as it is. The host's list of statements is the model's (log 5). -/
def Obligations.StepTakesTheHostsNextStatement : Prop :=
  (∀ (s : State) (st : HostStmt) (rest : List HostStmt), hostsTurn s → s.host = st :: rest →
    step s = (s.popHost rest).hostStmt st) ∧
  ∀ s : State, s.phase = .idle → s.host = [] → step s = .next s

/-- 30_encoding.md R80, 40_dispatch.md R101, R103: a command word placed for the engine is the one the
next step runs, on the host's CONFIG, IN_LEN and IN_MEM. The placing is the model's (log 5). -/
def Obligations.FetchWordIsRunByTheNextStep : Prop :=
  ∀ (s : State) (nbits w : Nat), 4 ≤ nbits →
    decodeTableWord nbits w = some (decodeOp (BitVec.ofNat 4 w)) ∧
    step (s.withFetchWord nbits w) = exec (decodeOp (BitVec.ofNat 4 w)) (s.withFetchWord nbits w) ∧
    (s.withFetchWord nbits w).cfgS = s.config ∧ (s.withFetchWord nbits w).inLenS = s.inLen ∧
    (s.withFetchWord nbits w).input = (List.range s.inLen.toNat).map s.inByte

/-! ### START and the registers -/

/-- 40_dispatch.md R101: what an accepted START does, and that it changes neither buffer. That the RAMs
are unchanged is the model's (log 7), and so are the host's list and its responses (logs 5 and 9). -/
def Obligations.AcceptedStartLatchesTheSnapshot : Prop :=
  ∀ (s : State) (v : Word) (rest : List HostStmt), s.phase = .idle → v.getLsbD 0 = true →
    s.host = .act (.regWrite 0x04 v) :: rest →
    ∃ t, step s = .next t ∧
      t.opS = s.cmd ∧ t.cfgS = s.config ∧ t.inLenS = s.inLen ∧
      t.phase = .busy ∧ t.status = 0x00000001#32 ∧ t.outLen = 0#32 ∧
      t.inMem = s.inMem ∧ (∀ a, t.inByte a = s.inByte a) ∧ t.outMem = s.outMem ∧
      t.cmd = s.cmd ∧ t.config = s.config ∧ t.inLen = s.inLen ∧
      t.inCap = s.inCap ∧ t.outCap = s.outCap ∧ t.lzwDictCap = s.lzwDictCap ∧
      t.ram = s.ram ∧ t.host = rest ∧ t.responses = s.responses

/-- 70_reset_and_hazards.md R286: while BUSY the host's writes are ignored, and its reads of IN_MEM and
of the registers are answered. -/
def Obligations.BusyIgnoresWritesAndAnswersReads : Prop :=
  ∀ (s : State) (rest : List HostStmt), s.phase = .busy → s.delay ≠ 0 →
    (∀ off v, s.host = .act (.regWrite off v) :: rest → step s = .next (s.popHost rest)) ∧
    (∀ a b, s.host = .act (.inWrite a b) :: rest → step s = .next (s.popHost rest)) ∧
    (∀ off, s.host = .act (.regRead off) :: rest →
      step s = .next ((s.popHost rest).respond (.word (s.regRead off)))) ∧
    (∀ a, a < s.inCap.toNat → s.host = .act (.inRead a) :: rest →
      step s = .next ((s.popHost rest).respond (.byte (s.inByte a))))

/-- 10_state.md R21 to R30: what each register offset reads as, in both phases, and that a register
read changes nothing. -/
def Obligations.RegisterReadsFollowTheMap : Prop :=
  ∀ (s : State) (off : Nat) (rest : List HostStmt), hostsTurn s → s.host = .act (.regRead off) :: rest →
    ∃ v, step s = .next { s with host := rest, delay := s.delay - 1, responses := s.responses ++ [.word v] } ∧
      (off = 0x00 → v = s.cmd.setWidth 32) ∧ (off = 0x04 → v = 0#32) ∧ (off = 0x08 → v = s.status) ∧
      (off = 0x0C → v = s.config.setWidth 32) ∧ (off = 0x10 → v = s.inLen) ∧ (off = 0x14 → v = s.outLen) ∧
      (off = 0x18 → v = s.inCap) ∧ (off = 0x1C → v = s.outCap) ∧
      (off ∉ [0x00, 0x04, 0x08, 0x0C, 0x10, 0x14, 0x18, 0x1C] → v = 0#32)

/-- 10_state.md R22 to R30, 40_dispatch.md R100: what a register write that is no START does while IDLE:
CMD, CONFIG and IN_LEN take their implemented bits, and every other offset, CTRL with bit 0 clear
among them, ignores it. -/
def Obligations.RegisterWritesFollowTheMap : Prop :=
  ∀ (s : State) (off : Nat) (v : Word) (rest : List HostStmt), s.phase = .idle →
    (off ≠ 0x04 ∨ v.getLsbD 0 = false) → s.host = .act (.regWrite off v) :: rest →
    ∃ t, step s = .next t ∧
      (off = 0x00 → t = { s.popHost rest with cmd := v.extractLsb' 0 4 }) ∧
      (off = 0x0C → t = { s.popHost rest with config := v.extractLsb' 0 3 }) ∧
      (off = 0x10 → t = { s.popHost rest with inLen := v }) ∧
      (off ∉ [0x00, 0x0C, 0x10] → t = s.popHost rest)

/-- 10_state.md R24: the flags of a legal STATUS fit together, and its reserved bits read 0. -/
def Obligations.StatusFlagsFitTogether : Prop :=
  ∀ s : State, StatusLegal s →
    (statusBusy s.status = true ↔ s.phase = .busy) ∧
    ¬ (statusBusy s.status = true ∧ statusDone s.status = true) ∧
    (statusErr s.status = true → statusDone s.status = true ∧ statusErrCode s.status ≠ 0#4) ∧
    (statusDone s.status = true → statusErr s.status = false → statusErrCode s.status = 0#4) ∧
    statusReserved s.status = 0#32

/-! ### The buffers -/

/-- 20_memory.md R65: a write to IN_MEM and a read of it. -/
def Obligations.InBufferAccesses : Prop :=
  (∀ (s : State) (a : Nat) (b : Byte) (rest : List HostStmt), s.phase = .idle → s.host = .act (.inWrite a b) :: rest →
    ∃ t, step s = .next t ∧ t = { s.popHost rest with inMem := t.inMem } ∧
      (a < s.inCap.toNat → t.inByte a = b) ∧ (s.inCap.toNat ≤ a → t.inMem = s.inMem) ∧
      ∀ c, c ≠ a → t.inByte c = s.inByte c) ∧
  ∀ (s : State) (a : Nat) (rest : List HostStmt), hostsTurn s → s.host = .act (.inRead a) :: rest →
    ∃ b, step s = .next ((s.popHost rest).respond (.byte b)) ∧
      (a < s.inCap.toNat → b = s.inByte a) ∧ (s.inCap.toNat ≤ a → b = 0x00#8)

/-- 70_reset_and_hazards.md R285, 20_memory.md R65, R67: after a success the host reads each output byte
back. In general an OUT read gives the specified byte while IDLE, a
free value in every other case below the capacity, and 0 at or above it. That it is 0 there while BUSY
too is the model's (log 10). -/
def Obligations.OutBufferReads : Prop :=
  (∀ (i : Instr) (s t : State) (out : List Byte) (a : Nat) (b : Byte) (rest : List HostStmt),
    exec i s = .next t → Succeeded s t out → out[a]? = some b → t.host = .act (.outRead a) :: rest →
    step t = .next ((t.popHost rest).respond (.byte b))) ∧
  ∀ (s : State) (a : Nat) (rest : List HostStmt), hostsTurn s → s.host = .act (.outRead a) :: rest →
    ∃ t b, step s = .next t ∧
      t = { s.popHost rest with responses := s.responses ++ [.byte b], draws := t.draws } ∧
      (s.outCap.toNat ≤ a → b = 0x00#8 ∧ t.draws = s.draws) ∧
      (a < s.outCap.toNat → s.phase = .idle → ∀ c, s.outMem.get? a = some c → b = c ∧ t.draws = s.draws) ∧
      (a < s.outCap.toNat → (s.phase = .busy ∨ s.outMem.get? a = none) →
        b = Config.freeOutByte s.draws ∧ t.draws = s.draws + 1)

/-! ### What every command does -/

/-- 40_dispatch.md R109, 60_exceptions.md R251: the reserved commands reserved8, reserved9, reservedA,
reservedB, reservedC, reservedD, reservedE and reservedF complete with UnsupportedAlgorithm, with
whatever IN_LEN_S, and touch no buffer. That the RAMs are unchanged is the model's (log 7). -/
def Obligations.ReservedCommandsComplete : Prop :=
  ∀ i ∈ reservedCommands, ∀ s : State,
    ∃ t, exec i s = .next t ∧ FailedBeforeAccess s t .unsupportedAlgorithm ∧ t.status = 0x00000106#32

/-- 40_dispatch.md R104: a defined command with IN_LEN_S above IN_CAP completes with CapacityExceeded
before any buffer access. That the RAMs are unchanged is the model's (log 7). -/
def Obligations.InputAboveCapacityIsRefusedFirst : Prop :=
  ∀ i ∈ definedCommands, ∀ s : State, s.inCap.toNat < s.inLenS.toNat →
    ∃ t, exec i s = .next t ∧ FailedBeforeAccess s t .capacityExceeded ∧ t.status = 0x00000406#32

/-- 40_dispatch.md R106, R108, 60_exceptions.md R256: each of the eight defined commands (rleEnc, rleDec,
golEnc, golDec, lzwEnc, lzwDec, hufEnc, hufDec) that would emit more than OUT_CAP bytes completes with
CapacityExceeded and no specified output byte, also where its rule would raise another error later. -/
def Obligations.OutputAboveCapacityFails : Prop :=
  ∀ s : State, inputFits s →
    (s.outCap.toNat < (rleBytes s.input).length → ∃ t, exec .rleEnc s = .next t ∧ FailedInCodec s t .capacityExceeded) ∧
    (∀ pairs : List (Byte × Byte), s.input = pairs.flatMap (fun p => [p.1, p.2]) →
      s.outCap.toNat < (pairs.map (fun p => p.2.toNat)).sum →
      ∃ t, exec .rleDec s = .next t ∧ FailedInCodec s t .capacityExceeded) ∧
    (s.outCap.toNat < (s.input.flatMap golWord).length →
      ∃ t, exec .golEnc s = .next t ∧ FailedInCodec s t .capacityExceeded) ∧
    (∀ xs rest : List Byte, s.input = xs.flatMap golWord ++ rest → s.outCap.toNat < xs.length →
      ∃ t, exec .golDec s = .next t ∧ FailedInCodec s t .capacityExceeded) ∧
    (s.outCap.toNat < 2 * (lzwEncEnd s).out.length → ∃ t, exec .lzwEnc s = .next t ∧ FailedInCodec s t .capacityExceeded) ∧
    (∀ ks : List Nat, s.input = ks.flatMap be16 → (∀ k ∈ ks, k < 65536) →
      s.outCap.toNat < (lzwDecodeCodes s.guardLzwCode s.lzwDictCap ks).out.length →
      ∃ t, exec .lzwDec s = .next t ∧ FailedInCodec s t .capacityExceeded) ∧
    (s.input = [] → s.outCap.toNat < 2 → ∃ t, exec .hufEnc s = .next t ∧ FailedInCodec s t .capacityExceeded) ∧
    (∀ root : HuffTree, s.input ≠ [] → hufUnguarded s → buildTree (symbolCounts s.input) = some root →
      s.outCap.toNat < hufEncLength root s.input →
      ∃ t, exec .hufEnc s = .next t ∧ FailedInCodec s t .capacityExceeded) ∧
    (∀ (tab : List (Byte × Byte)) (root : HuffTree) (ys : List Byte) (rest : Bits),
      buildTree (sortTable (tableCounts tab)) = some root → (∀ y ∈ ys, y ∈ tab.map Prod.fst) →
      validHufStream s.input tab (codeBits root ys ++ rest) → s.outCap.toNat < ys.length →
      ∃ t, exec .hufDec s = .next t ∧ FailedInCodec s t .capacityExceeded)

/-- 20_memory.md R72, 40_dispatch.md R107, R108, 60_exceptions.md R257: whatever a command's completion
is, it leaves the phase IDLE with DONE set and BUSY clear, and changes neither IN_MEM nor a register
the host writes, the snapshot, the parameters or anything outside the core. -/
def Obligations.CompletionFrame : Prop :=
  ∀ (i : Instr) (s t : State), exec i s = .next t →
    SameOutside s t ∧ t.phase = .idle ∧ statusDone t.status = true ∧ statusBusy t.status = false ∧
    (statusErr t.status = true → t.outLen = 0#32)

/-- 60_exceptions.md R251 to R253: UnsupportedAlgorithm is raised exactly by the reserved opcodes, and
then no buffer is touched; MalformedData only by the decompress commands; UnsupportedInput only under
a guard the command reads. -/
def Obligations.ErrorsComeFromTheirCommands : Prop :=
  ∀ (i : Instr) (s t : State), exec i s = .next t →
    (t.status = statusFailed .unsupportedAlgorithm ↔ i ∈ reservedCommands) ∧
    (t.status = statusFailed .unsupportedAlgorithm → t.outMem = s.outMem ∧ t.inMem = s.inMem) ∧
    (t.status = statusFailed .malformedData → i ∈ decoders) ∧
    (t.status = statusFailed .unsupportedInput →
      (i = .hufEnc ∧ (s.guardHufTable = true ∨ s.guardHufCount = true)) ∨
      ((i = .lzwEnc ∨ i = .lzwDec) ∧ s.guardLzwCode = true))

/-- 30_encoding.md R86: a guard bit an opcode does not read has no effect on it. -/
def Obligations.UnreadGuardBitsHaveNoEffect : Prop :=
  ∀ (i : Instr) (s t : State) (c : BitVec 3),
    (i = .hufEnc → c.getLsbD 0 = s.cfgS.getLsbD 0 ∧ c.getLsbD 1 = s.cfgS.getLsbD 1) →
    (i = .lzwEnc ∨ i = .lzwDec → c.getLsbD 2 = s.cfgS.getLsbD 2) →
    exec i s = .next t → exec i { s with cfgS := c } = .next { t with cfgS := c }

/-- 00_scope.md R11, 10_state.md R40: the result of a command depends only on the command, the guards,
the input bytes and the parameters: not on the RAMs, on OUT_MEM or on the host's registers. -/
def Obligations.ResultDependsOnTheSnapshotAlone : Prop :=
  ∀ (i : Instr) (s s' t : State), s'.cfgS = s.cfgS → s'.inLenS = s.inLenS → s'.inCap = s.inCap →
    s'.outCap = s.outCap → s'.lzwDictCap = s.lzwDictCap → (∀ a, a < s.inLenS.toNat → s'.inByte a = s.inByte a) →
    exec i s = .next t →
    ∃ t', exec i s' = .next t' ∧ t'.status = t.status ∧ t'.outLen = t.outLen ∧
      (i ∈ definedCommands → inputFits s → t'.outMem = t.outMem)

/-! ### The bitstream primitives -/

/-- 41_bitstream.md R122, R123: the padding length; unpacking a packed bit string gives it back,
followed by `pad` zero bits; bit `8 i + j` of an unpacked sequence is bit `7 - j` of byte `i`. -/
def Obligations.UnpackInvertsPack : Prop :=
  (∀ len : Nat, padLen len = (8 - len % 8) % 8 ∧ padLen len ≤ 7 ∧ (padLen len = 0 ↔ len % 8 = 0)) ∧
  (∀ s : Bits, unpackMSB (packMSB s).1 = s ++ List.replicate (packMSB s).2 false ∧ (packMSB s).2 = padLen s.length) ∧
  (∀ p : List Byte, (unpackMSB p).length = 8 * p.length) ∧
  ∀ (p : List Byte) (i j : Nat) (b : Byte), j < 8 → p[i]? = some b →
    (unpackMSB p)[8 * i + j]? = some (b.getLsbD (7 - j))

/-- 41_bitstream.md R124, R125: the two bytes of a code, reading a 16-bit code back, and the collision of
codes above 65535. -/
def Obligations.BigEndianCodes : Prop :=
  (∀ h l : Byte, unBE16 h l = 256 * h.toNat + l.toNat ∧ unBE16 h l ≤ 65535) ∧
  ∀ c : Nat, be16 c = [BitVec.ofNat 8 (c / 256 % 256), BitVec.ofNat 8 (c % 256)] ∧ be16 c = be16 (c % 65536) ∧
    ∃ h l, be16 c = [h, l] ∧ unBE16 h l = c % 65536

/-! ### Run-length codec -/

/-- 42_rle.md R141: RLE_ENC (rleEnc) completes where its output fits, with the output of its rule.
That the RAMs are unchanged is the model's (log 7). -/
def Obligations.RleEncCompletes : Prop :=
  ∀ s : State, inputFits s → (rleBytes s.input).length ≤ s.outCap.toNat →
    ∃ t, exec .rleEnc s = .next t ∧ Succeeded s t (rleBytes s.input) ∧ t.ram = s.ram

/-- 42_rle.md R141: the pseudocode's greedy runs. A run of `r` bytes, cut at 255 or ended by another
byte, is one pair. -/
def Obligations.RleEncEmitsGreedyRuns : Prop :=
  rleBytes [] = [] ∧
  ∀ (v : Byte) (r : Nat) (rest : List Byte), 1 ≤ r → r ≤ 255 → (r = 255 ∨ rest.head? ≠ some v) →
    rleBytes (List.replicate r v ++ rest) = v :: BitVec.ofNat 8 r :: rleBytes rest

/-- 42_rle.md R140, R141: RLE_ENC's output is a sequence of pairs with counts in 1..255 that stand for
the input. -/
def Obligations.RleEncOutputStandsForTheInput : Prop :=
  ∀ xs : List Byte, ∃ runs : List (Byte × Nat),
    rleBytes xs = runs.flatMap (fun p => [p.1, BitVec.ofNat 8 p.2]) ∧
    (∀ p ∈ runs, 1 ≤ p.2 ∧ p.2 ≤ 255) ∧ runs.flatMap (fun p => List.replicate p.2 p.1) = xs

/-- 42_rle.md R142: RLE_DEC (rleDec) expands each pair, a count of 0 to nothing.
That the RAMs are unchanged is the model's (log 7). -/
def Obligations.RleDecCompletes : Prop :=
  ∀ (s : State) (pairs : List (Byte × Byte)), inputFits s → s.input = pairs.flatMap (fun p => [p.1, p.2]) →
    (pairs.map (fun p => p.2.toNat)).sum ≤ s.outCap.toNat →
    ∃ t, exec .rleDec s = .next t ∧ Succeeded s t (pairs.flatMap (fun p => List.replicate p.2.toNat p.1)) ∧ t.ram = s.ram

/-- 42_rle.md R142: an odd length is MalformedData, whatever the output capacity. -/
def Obligations.RleDecRefusesOddLength : Prop :=
  ∀ s : State, inputFits s → s.inLenS.toNat % 2 = 1 →
    ∃ t, exec .rleDec s = .next t ∧ FailedInCodec s t .malformedData

/-- 42_rle.md R143: RLE_ENC succeeds, and RLE_DEC on its output returns the input, when neither raises
CapacityExceeded. -/
def Obligations.RleRoundTrip : Prop :=
  ∀ s t : State, inputFits s → exec .rleEnc s = .next t → t.status ≠ statusFailed .capacityExceeded →
    ∃ out, Succeeded s t out ∧
      ∀ u v : State, u.input = out → exec .rleDec u = .next v → v.status ≠ statusFailed .capacityExceeded →
        Succeeded u v s.input

/-! ### Golomb codec -/

/-- 44_golomb.md R201, R202: GOL_ENC (golEnc) emits each byte's codeword, a byte per bit.
That the RAMs are unchanged is the model's (log 7). -/
def Obligations.GolEncCompletes : Prop :=
  ∀ s : State, inputFits s → (s.input.map (fun v => v.toNat / 4 + 3)).sum ≤ s.outCap.toNat →
    ∃ t, exec .golEnc s = .next t ∧ Succeeded s t (s.input.flatMap golWord) ∧
      t.outLen.toNat = (s.input.map (fun v => v.toNat / 4 + 3)).sum ∧ t.ram = s.ram

/-- 44_golomb.md R204, its second law: the bounds of GOL_ENC's output length, and when the lower one is
reached. -/
def Obligations.GolEncLengthBounds : Prop :=
  ∀ xs : List Byte, 3 * xs.length ≤ (golBytes xs).length ∧ (golBytes xs).length ≤ 66 * xs.length ∧
    ((golBytes xs).length = 3 * xs.length ↔ ∀ v ∈ xs, v.toNat < 4)

/-- 44_golomb.md R203: GOL_DEC (golDec) decodes every sequence of codewords.
That the RAMs are unchanged is the model's (log 7). -/
def Obligations.GolDecCompletes : Prop :=
  ∀ (s : State) (xs : List Byte), inputFits s → s.input = xs.flatMap golWord → xs.length ≤ s.outCap.toNat →
    ∃ t, exec .golDec s = .next t ∧ Succeeded s t xs ∧ t.ram = s.ram

/-- 44_golomb.md R203, 60_exceptions.md R256: every input that is no sequence of codewords is
MalformedData, where the codewords before the fault fit the output: the fault is at the first place
where no codeword begins. An output buffer as large as the input cannot overflow first. -/
def Obligations.GolDecRefusesEverythingElse : Prop :=
  (∀ (s : State) (xs rest : List Byte), inputFits s → s.input = xs.flatMap golWord ++ rest → rest ≠ [] →
    (∀ v : Byte, ¬ golWord v <+: rest) → xs.length ≤ s.outCap.toNat →
    ∃ t, exec .golDec s = .next t ∧ FailedInCodec s t .malformedData) ∧
  ∀ s : State, inputFits s → s.inLenS.toNat ≤ s.outCap.toNat → (¬ ∃ xs : List Byte, s.input = xs.flatMap golWord) →
    ∃ t, exec .golDec s = .next t ∧ FailedInCodec s t .malformedData

/-- 44_golomb.md R204, its first law: GOL_DEC on GOL_ENC's output returns the input, when neither raises
CapacityExceeded. -/
def Obligations.GolRoundTrip : Prop :=
  ∀ s t : State, inputFits s → exec .golEnc s = .next t → t.status ≠ statusFailed .capacityExceeded →
    ∃ out, Succeeded s t out ∧
      ∀ u v : State, u.input = out → exec .golDec u = .next v → v.status ≠ statusFailed .capacityExceeded →
        Succeeded u v s.input

/-! ### LZW codec -/

/-- 45_lzw.md R222, R224, R225: Insert checks the guard, then the capacity; and the sequence a code
stands for, the code about to be assigned among them. -/
def Obligations.LzwInsertAndEntryRules : Prop :=
  ∀ (guard : Bool) (cap : Nat) (dict : List (List Byte)) (w : List Byte) (k : Nat),
    (guard = true → dict.length = 65536 → lzwInsert guard cap dict w = .error .unsupportedInput) ∧
    ((guard = false ∨ dict.length ≠ 65536) → dict.length = cap → lzwInsert guard cap dict w = .error .capacityExceeded) ∧
    ((guard = false ∨ dict.length ≠ 65536) → dict.length ≠ cap → lzwInsert guard cap dict w = .ok (dict ++ [w])) ∧
    (k < dict.length → lzwEntry dict w k = dict[k]?) ∧
    (k = dict.length → lzwEntry dict w k = some (w ++ w.take 1)) ∧
    (dict.length < k → lzwEntry dict w k = none)

/-- 45_lzw.md R222, R223, R228: LZW_ENC (lzwEnc) completes with the codes of its loop where no insertion
fails and the output fits, and with the insertion's error where one fails. No insertion fails where the
dictionary, and the 16-bit codes under the guard, are large enough for the input's length. What the
RAMs hold afterwards is the model's (log 7). -/
def Obligations.LzwEncCompletes : Prop :=
  ∀ s : State, inputFits s →
    ((lzwEncEnd s).err = none → 2 * (lzwEncEnd s).out.length ≤ s.outCap.toNat →
      ∃ t, exec .lzwEnc s = .next t ∧ Succeeded s t ((lzwEncEnd s).out.flatMap be16) ∧ t.ram.dict = (lzwEncEnd s).dict ∧
        t.ram.ft = s.ram.ft ∧ t.ram.arena = s.ram.arena ∧ t.ram.codeTable = s.ram.codeTable) ∧
    (∀ e, (lzwEncEnd s).err = some e → 2 * (lzwEncEnd s).out.length ≤ s.outCap.toNat →
      ∃ t, exec .lzwEnc s = .next t ∧ FailedInCodec s t e) ∧
    (s.inLenS.toNat + 255 ≤ s.lzwDictCap → (s.guardLzwCode = true → s.inLenS.toNat + 255 ≤ 65536) →
      (lzwEncEnd s).err = none ∧ (lzwEncEnd s).out.length ≤ s.inLenS.toNat)

/-- 45_lzw.md R220, R223: the codes LZW_ENC writes are codes of dictionary entries that spell the input,
no two codes have the same sequence, and entry `256 + p` is the sequence of code `p` and the first byte
of the next one. -/
def Obligations.LzwEncCodesSpellTheInput : Prop :=
  ∀ (guard : Bool) (cap : Nat) (xs : List Byte) (codes : List Nat) (dict : List (List Byte)),
    lzwCodes guard cap [] lzwInit xs = ⟨codes, none, dict⟩ →
    codes.flatMap (fun k => dict.getD k []) = xs ∧ (∀ k ∈ codes, k < dict.length) ∧ dict.Nodup ∧ lzwInit <+: dict ∧
    ∀ p k k', codes[p]? = some k → codes[p + 1]? = some k' →
      dict[256 + p]? = some (dict.getD k [] ++ (dict.getD k' []).take 1)

/-- 45_lzw.md R222, R223, R228: how many entries the dictionary has after a run in either direction: one
for each code after the first, at most one for each input byte after the first, never more than 65536
under the guard, and then no CapacityExceeded from an insertion, nor where the dictionary is large enough
for the length. -/
def Obligations.LzwDictionaryBounds : Prop :=
  (∀ (guard : Bool) (cap : Nat) (xs : List Byte), xs ≠ [] →
    (lzwCodes guard cap [] lzwInit xs).dict.length ≤ 255 + xs.length ∧
    (lzwCodes guard cap [] lzwInit xs).out.length ≤ xs.length ∧
    ((lzwCodes guard cap [] lzwInit xs).err = none →
      (lzwCodes guard cap [] lzwInit xs).dict.length = 255 + (lzwCodes guard cap [] lzwInit xs).out.length) ∧
    (guard = true → 65536 ≤ cap → (lzwCodes guard cap [] lzwInit xs).dict.length ≤ 65536 ∧
      (lzwCodes guard cap [] lzwInit xs).err ≠ some .capacityExceeded) ∧
    (255 + xs.length ≤ cap → (lzwCodes guard cap [] lzwInit xs).err ≠ some .capacityExceeded)) ∧
  ∀ (guard : Bool) (cap : Nat) (ks : List Nat), ks ≠ [] →
    (lzwDecodeCodes guard cap ks).dict.length ≤ 255 + ks.length ∧
    ((lzwDecodeCodes guard cap ks).err = none → (lzwDecodeCodes guard cap ks).dict.length = 255 + ks.length) ∧
    (guard = true → 65536 ≤ cap → (lzwDecodeCodes guard cap ks).dict.length ≤ 65536 ∧
      (lzwDecodeCodes guard cap ks).err ≠ some .capacityExceeded) ∧
    (255 + ks.length ≤ cap → (lzwDecodeCodes guard cap ks).err ≠ some .capacityExceeded)

/-- 45_lzw.md R224: LZW_DEC accepts a list of codes exactly when each is at most the next free code at
its place, which is 255 plus its index, and else raises MalformedData. -/
def Obligations.LzwDecAcceptsExactlyAssignableCodes : Prop :=
  ∀ (guard : Bool) (cap : Nat) (ks : List Nat), 255 + ks.length ≤ cap → (guard = true → 255 + ks.length ≤ 65536) →
    ((lzwDecodeCodes guard cap ks).err = none ∨ (lzwDecodeCodes guard cap ks).err = some .malformedData) ∧
    ((lzwDecodeCodes guard cap ks).err = none ↔ ∀ p k, ks[p]? = some k → k ≤ 255 + p)

/-- 45_lzw.md R224, R225: the sequences LZW_DEC emits are those of the codes read, in the dictionary it
ends with, whose entry `256 + p` is the sequence of code `p` and the first byte of the next one. -/
def Obligations.LzwDecOutputIsSpelledByTheCodes : Prop :=
  ∀ (guard : Bool) (cap : Nat) (ks : List Nat) (out : List Byte) (dict : List (List Byte)),
    lzwDecodeCodes guard cap ks = ⟨out, none, dict⟩ →
    out = ks.flatMap (fun k => dict.getD k []) ∧ (∀ k ∈ ks, k < dict.length) ∧ lzwInit <+: dict ∧
    ∀ p k k', ks[p]? = some k → ks[p + 1]? = some k' →
      dict[256 + p]? = some (dict.getD k [] ++ (dict.getD k' []).take 1)

/-- 45_lzw.md R222, R224: LZW_DEC (lzwDec) completes on a stream of codes whose expansion fits: with the
expansion, or with the error its loop raises. That FT, the arena and the code table are unchanged is the
model's (log 7). -/
def Obligations.LzwDecCompletes : Prop :=
  ∀ (s : State) (ks : List Nat), inputFits s → s.input = ks.flatMap be16 → (∀ k ∈ ks, k < 65536) →
    (lzwDecodeCodes s.guardLzwCode s.lzwDictCap ks).out.length ≤ s.outCap.toNat →
    ((lzwDecodeCodes s.guardLzwCode s.lzwDictCap ks).err = none →
      ∃ t, exec .lzwDec s = .next t ∧ Succeeded s t (lzwDecodeCodes s.guardLzwCode s.lzwDictCap ks).out ∧
        t.ram.ft = s.ram.ft ∧ t.ram.arena = s.ram.arena ∧ t.ram.codeTable = s.ram.codeTable) ∧
    ∀ e, (lzwDecodeCodes s.guardLzwCode s.lzwDictCap ks).err = some e →
      ∃ t, exec .lzwDec s = .next t ∧ FailedInCodec s t e

/-- 45_lzw.md R224: half a code, and a first code above 255, are MalformedData. -/
def Obligations.LzwDecRefusesHalfCodesAndUnknownStarts : Prop :=
  ∀ s : State, inputFits s →
    (s.inLenS.toNat % 2 = 1 → ∃ t, exec .lzwDec s = .next t ∧ FailedInCodec s t .malformedData) ∧
    (∀ h l rest, s.input = h :: l :: rest → h ≠ 0x00#8 → ∃ t, exec .lzwDec s = .next t ∧ FailedInCodec s t .malformedData)

/-- 45_lzw.md R222, R227: LZW_DEC on LZW_ENC's output returns the input, when every code emitted is below
65536 and neither raises CapacityExceeded; under GUARD_LZW_CODE, when LZW_ENC ran under it too or inserted
at most 65280 entries; with more, LZW_DEC under the guard raises UnsupportedInput. At most 65280 insertions suffice for
every code to be below 65536. -/
def Obligations.LzwRoundTrip : Prop :=
  (∀ s : State, (lzwEncEnd s).err = none → (lzwEncEnd s).dict.length ≤ 256 + 65280 →
    ∀ k ∈ (lzwEncEnd s).out, k < 65536) ∧
  ∀ s t : State, exec .lzwEnc s = .next t → t.status = 0x00000002#32 → (∀ k ∈ (lzwEncEnd s).out, k < 65536) →
    ∃ out, Succeeded s t out ∧
      ∀ u v : State, u.input = out → exec .lzwDec u = .next v → v.status ≠ statusFailed .capacityExceeded →
        ((u.guardLzwCode = true → s.guardLzwCode = true ∨ (lzwEncEnd s).dict.length ≤ 256 + 65280) →
          Succeeded u v s.input) ∧
        (u.guardLzwCode = true → Succeeded u v s.input ∨
          (256 + 65280 < (lzwEncEnd s).dict.length ∧ FailedInCodec u v .unsupportedInput))

/-! ### Huffman codec -/

/-- 43_huffman.md R160: BuildFT counts the input exactly; the table is the ascending list of its
symbols with their counts. -/
def Obligations.FrequencyTableCountsTheInput : Prop :=
  ∀ xs : List Byte, xs.length < 2 ^ 32 →
    ftTable (buildFT xs) = symbolCounts xs ∧ ∀ b : Byte, ftGet (buildFT xs) b = xs.count b

/-- 43_huffman.md R164: the element removed has a least key, and the rest of Q stays. An iteration of
the merge removes two elements so, and puts back a node numbered `next` with the sum of their
frequencies, the first removed on the left and the second on the right. -/
def Obligations.PopLeastRemovesALeastKey : Prop :=
  (∀ (a : HuffTree) (q : List HuffTree),
    ((popLeast a q).1 :: (popLeast a q).2).Perm (a :: q) ∧ ∀ x ∈ a :: q, keyAtMost (popLeast a q).1 x) ∧
  ∀ (fuel next : Nat) (q0 q1 : HuffTree) (q : List HuffTree), ∃ (a b : HuffTree) (rest : List HuffTree),
    (a :: b :: rest).Perm (q0 :: q1 :: q) ∧ (∀ x ∈ q0 :: q1 :: q, keyAtMost a x) ∧ (∀ x ∈ b :: rest, keyAtMost b x) ∧
    mergeLoop (fuel + 1) next (q0 :: q1 :: q) =
      mergeLoop fuel (next + 1) (.node (a.freq + b.freq) next a b :: rest)

/-- 43_huffman.md R164, R165: BuildTree gives the one tree that merging the table's leaves gives (the
two least keys at a time, the first removed on the left, the new nodes numbered from `m`). It is a tree
of `2 m - 1` nodes over exactly the `m` symbols, its frequency their sum, with no code longer than
`m - 1` bits (one bit for `m = 1`). -/
def Obligations.TreeIsBuiltOverTheTable : Prop :=
  ∀ t : List (Byte × Nat), t ≠ [] →
    ∃ root, buildTree t = some root ∧ (∀ r : HuffTree, MergesTo t.length (tableLeaves t) r ↔ r = root) ∧
      root.size = 2 * t.length - 1 ∧ root.freq = (t.map Prod.snd).sum ∧
      ((codesOf root).map Prod.fst).Perm (t.map Prod.fst) ∧ ∀ c ∈ codesOf root, c.2.length ≤ max 1 (t.length - 1)

/-- 43_huffman.md R165: the code set is prefix-free. -/
def Obligations.CodesArePrefixFree : Prop :=
  ∀ root : HuffTree, ((codesOf root).map Prod.snd).Pairwise (fun c d => ¬ c <+: d ∧ ¬ d <+: c)

/-- 43_huffman.md R161 to R163, R168: HUF_ENC (hufEnc) completes where no guard applies and the output
fits: the padding length, the table size, the pairs with their counts cut to a byte, and the packed
codes; an output that does not fit is CapacityExceeded. Empty input gives `00 00`, or CapacityExceeded
where not even that fits. What the RAMs hold afterwards is the model's (log 7). -/
def Obligations.HufEncCompletes : Prop :=
  (∀ s : State, inputFits s → s.input ≠ [] → hufUnguarded s →
    ∃ root, buildTree (symbolCounts s.input) = some root ∧
      (hufEncLength root s.input ≤ s.outCap.toNat →
        ∃ t, exec .hufEnc s = .next t ∧
          Succeeded s t (BitVec.ofNat 8 (padLen (codeBits root s.input).length) ::
            BitVec.ofNat 8 (symbolCounts s.input).length ::
            ((symbolCounts s.input).flatMap (fun p => [p.1, BitVec.ofNat 8 p.2]) ++ (packMSB (codeBits root s.input)).1)) ∧
          t.outLen.toNat = hufEncLength root s.input ∧ t.ram.dict = s.ram.dict) ∧
      (s.outCap.toNat < hufEncLength root s.input →
        ∃ t, exec .hufEnc s = .next t ∧ FailedInCodec s t .capacityExceeded)) ∧
  ∀ s : State, inputFits s → s.inLenS = 0#32 →
    (2 ≤ s.outCap.toNat → ∃ t, exec .hufEnc s = .next t ∧ Succeeded s t [0x00#8, 0x00#8] ∧ t.ram = s.ram) ∧
    (s.outCap.toNat < 2 → ∃ t, exec .hufEnc s = .next t ∧ FailedInCodec s t .capacityExceeded)

/-- 43_huffman.md R167, R253: HUF_ENC raises UnsupportedInput exactly under a guard whose condition the
input meets, whatever the output capacity. -/
def Obligations.HufEncGuards : Prop :=
  ∀ (s t : State), inputFits s → exec .hufEnc s = .next t →
    (t.status = statusFailed .unsupportedInput ↔
      (s.guardHufTable = true ∧ ∀ b : Byte, b ∈ s.input) ∨ (s.guardHufCount = true ∧ ∃ b, s.input.count b > 255))

/-- 43_huffman.md R166, R168: an input of one distinct symbol codes every byte as one bit 0. -/
def Obligations.HufEncSingleSymbol : Prop :=
  ∀ (s : State) (b : Byte) (n : Nat), inputFits s → 1 ≤ n → s.input = List.replicate n b →
    (s.guardHufCount = true → n ≤ 255) → 4 + (n + 7) / 8 ≤ s.outCap.toNat →
    ∃ t, exec .hufEnc s = .next t ∧
      Succeeded s t (BitVec.ofNat 8 (padLen n) :: 0x01#8 :: b :: BitVec.ofNat 8 n :: List.replicate ((n + 7) / 8) 0x00#8)

/-- 43_huffman.md R169 to R171: HUF_DEC (hufDec) decodes the codewords of any table of distinct symbols,
in any order, with the tree of the sorted table, whatever the fill bits after them; an output that does
not fit is CapacityExceeded. That the RAMs not used are unchanged is the model's (log 7). -/
def Obligations.HufDecCompletes : Prop :=
  (∀ (s : State) (tab : List (Byte × Byte)) (root : HuffTree) (ys : List Byte), inputFits s →
    buildTree (sortTable (tableCounts tab)) = some root → (∀ y ∈ ys, y ∈ tab.map Prod.fst) →
    validHufStream s.input tab (codeBits root ys) →
    (ys.length ≤ s.outCap.toNat →
      ∃ t, exec .hufDec s = .next t ∧ Succeeded s t ys ∧
        t.ram.ft = s.ram.ft ∧ t.ram.codeTable = s.ram.codeTable ∧ t.ram.dict = s.ram.dict) ∧
    (s.outCap.toNat < ys.length → ∃ t, exec .hufDec s = .next t ∧ FailedInCodec s t .capacityExceeded)) ∧
  ∀ s : State, inputFits s → s.input = [0x00#8, 0x00#8] →
    ∃ t, exec .hufDec s = .next t ∧ Succeeded s t [] ∧ t.ram = s.ram

/-- 43_huffman.md R169 to R171, 60_exceptions.md R256: the malformed headers and tables, whatever the
output capacity: too short, padding above 7, truncated table, repeated symbol, padding above the payload
bits, and an empty table with a payload. After a valid header and table, bits that are no sequence of
codewords are malformed, where the codewords before the fault fit the output: a 1 in a single-symbol
stream, or an end inside a codeword. An output buffer of a byte for each bit cannot overflow first. -/
def Obligations.HufDecRefusesMalformedStreams : Prop :=
  (∀ s : State, inputFits s →
    (s.inLenS.toNat < 2 ∨
      (∃ pad rest, s.input = pad :: rest ∧ pad.toNat > 7) ∨
      (∃ pad size rest, s.input = pad :: size :: rest ∧ rest.length < 2 * size.toNat) ∨
      (∃ pad size tab payload, s.input = pad :: size :: (tablePairs tab ++ payload) ∧ tab.length = size.toNat ∧
        (¬ (tab.map Prod.fst).Nodup ∨ pad.toNat > 8 * payload.length ∨ (tab = [] ∧ payload ≠ [])))) →
    ∃ t, exec .hufDec s = .next t ∧ FailedInCodec s t .malformedData) ∧
  (∀ (s : State) (tab : List (Byte × Byte)) (root : HuffTree) (ys : List Byte) (rest : Bits), inputFits s →
    buildTree (sortTable (tableCounts tab)) = some root → (∀ y ∈ ys, y ∈ tab.map Prod.fst) →
    validHufStream s.input tab (codeBits root ys ++ rest) → rest ≠ [] →
    (∀ y ∈ tab.map Prod.fst, ¬ codeOf root y <+: rest) → ys.length ≤ s.outCap.toNat →
    ∃ t, exec .hufDec s = .next t ∧ FailedInCodec s t .malformedData) ∧
  ∀ (s : State) (tab : List (Byte × Byte)) (root : HuffTree) (bits : Bits), inputFits s →
    buildTree (sortTable (tableCounts tab)) = some root → validHufStream s.input tab bits →
    bits.length ≤ s.outCap.toNat →
    (¬ ∃ ys : List Byte, (∀ y ∈ ys, y ∈ tab.map Prod.fst) ∧ bits = codeBits root ys) →
    ∃ t, exec .hufDec s = .next t ∧ FailedInCodec s t .malformedData

/-- 43_huffman.md R163, R171: with all 256 symbols and GUARD_HUF_TABLE clear, HUF_ENC writes a table
size of 0, and HUF_DEC raises MalformedData on that stream. -/
def Obligations.HufFullTableStreamIsMalformed : Prop :=
  ∀ s t : State, exec .hufEnc s = .next t → t.status = 0x00000002#32 → (∀ b : Byte, b ∈ s.input) →
    ∃ out, Succeeded s t out ∧ out[1]? = some 0x00#8 ∧
      ∀ u : State, inputFits u → u.input = out → ∃ v, exec .hufDec u = .next v ∧ FailedInCodec u v .malformedData

/-- 43_huffman.md R172: HUF_DEC on HUF_ENC's output returns the input when it is empty, or has 1 to 255
distinct symbols with no count above 255, or has one distinct symbol; both commands without
CapacityExceeded. -/
def Obligations.HufRoundTrip : Prop :=
  ∀ s t : State, exec .hufEnc s = .next t → t.status = 0x00000002#32 →
    (s.input = [] ∨
      (1 ≤ (symbolCounts s.input).length ∧ (symbolCounts s.input).length ≤ 255 ∧ ∀ b, s.input.count b ≤ 255) ∨
      ∃ b n, 1 ≤ n ∧ s.input = List.replicate n b) →
    ∃ out, Succeeded s t out ∧
      ∀ u v : State, u.input = out → exec .hufDec u = .next v → v.status ≠ statusFailed .capacityExceeded →
        Succeeded u v s.input

/-! ### Whole-machine rules -/

/-- 00_scope.md R7, 10_state.md R24, R31, R32, R36 to R39: the invariant that every step keeps. Over a
step that asserts reset its RAM clause rests on the model's reset values (log 7). -/
def Obligations.StepKeepsTheInvariant : Prop :=
  ∀ s t : State, Inv s → step s = .next t → Inv t

/-- 70_reset_and_hazards.md R280, R282: the invariant holds after reset (its RAM clause rests on the
model's reset values, log 7). -/
def Obligations.ResetMeetsTheInvariant : Prop := Inv State.reset

/-- 70_reset_and_hazards.md R280: the registers and the phase after reset, asserted at any time, and after
the first one; the command in CMD is then RLE_ENC. -/
def Obligations.ResetValues : Prop :=
  (State.reset.inCap = Config.inCap ∧ State.reset.outCap = Config.outCap) ∧
  ∀ s t : State, t = State.reset ∨ t = s.assertReset →
    t.cmd = 0#4 ∧ t.status = 0x00000000#32 ∧ t.config = 0#3 ∧ t.inLen = 0#32 ∧ t.outLen = 0#32 ∧ t.phase = .idle ∧
    decodeOp t.cmd = .rleEnc ∧ (t = s.assertReset → t.inCap = s.inCap ∧ t.outCap = s.outCap)

/-- 70_reset_and_hazards.md R280 to R282: reset at any time, a running command included: no completion,
no output, no specified buffer byte. That the host's program, its responses and the counters of free
values stay is the model's (log 11). -/
def Obligations.ResetAbandonsTheCommand : Prop :=
  ∀ (s : State) (rest : List HostStmt), hostsTurn s → s.host = .reset :: rest →
    ∃ t, step s = .next t ∧ t.cmd = 0#4 ∧ t.status = 0#32 ∧ t.config = 0#3 ∧ t.inLen = 0#32 ∧ t.outLen = 0#32 ∧
      t.phase = .idle ∧ t.inCap = s.inCap ∧ t.outCap = s.outCap ∧ t.lzwDictCap = s.lzwDictCap ∧
      (∀ a, t.inByte a = Config.freeInByte (s.inEpoch + 1) a) ∧ (∀ a, t.outMem.get? a = none) ∧
      t.host = rest ∧ t.responses = s.responses

/-- 40_dispatch.md R102, 70_reset_and_hazards.md R286, R288, 60_exceptions.md R263: a running command
reaches its completion step after at most `delay` host actions, whatever they are, on the snapshot and
the input it was started with; only reset stops it. The bound `delay` is the model's drawing (log 4). -/
def Obligations.EngineCompletesAfterFinitelyManyActions : Prop :=
  ∀ s : State, s.phase = .busy → quietProgram s.host →
    ∃ (k : Nat) (u : State), k ≤ s.delay ∧ Sys2Proof.core.run k s = .next u ∧ u.engineTurn = true ∧
      step u = exec (decodeOp s.opS) u ∧ u.opS = s.opS ∧ u.cfgS = s.cfgS ∧ u.inLenS = s.inLenS ∧
      u.status = s.status ∧ u.input = s.input ∧ u.outMem = s.outMem

/-- 20_memory.md R60, R61: the accesses inside the interface are exactly the five host actions; a step
has a next state unless the host's next statement is another access, and that one is refused. That a
byte-wide write to OUT is refused as the accesses of another width are is the model's (log 12). -/
def Obligations.OnlyForeignAccessesAreRefused : Prop :=
  (∀ h : HostAction, h.encode.wf = true ∧ h.encode.decode = some h) ∧
  (∀ (s : State) (r : Refusal), step s = .refused r →
    ∃ x rest, r = .accessOutsideInterface x ∧ x.wf = false ∧ hostsTurn s ∧ s.host = .raw x :: rest) ∧
  ∀ (s : State) (x : Access) (rest : List HostStmt), hostsTurn s → s.host = .raw x :: rest →
    (x.wf = false → step s = .refused (.accessOutsideInterface x)) ∧
    (x.wf = true → ∃ h, x.decode = some h ∧ step s = .next ((s.popHost rest).act h))

/-- 30_encoding.md R89: POLL reads STATUS and stands again while BUSY is 1. -/
def Obligations.PollRepeatsWhileBusy : Prop :=
  ∀ (s : State) (rest : List HostStmt), hostsTurn s → s.host = .poll :: rest →
    (statusBusy s.status = false → step s = .next ((s.popHost rest).respond (.word s.status))) ∧
    (statusBusy s.status = true → step s = .next ((s.popHost (.poll :: rest)).respond (.word s.status)))

/-- 30_encoding.md R89: COPYBACK moves the output into IN_MEM and its length into IN_LEN, in
`2 n + 2` host actions. -/
def Obligations.CopybackMovesTheOutputToTheInput : Prop :=
  ∀ (s : State) (out : List Byte) (rest : List HostStmt), s.phase = .idle → s.host = .copyback :: rest →
    s.outLen.toNat = out.length → (∀ a, s.outMem.get? a = out[a]?) →
    out.length ≤ s.outCap.toNat → out.length ≤ s.inCap.toNat →
    ∃ t : State, Sys2Proof.core.run (2 * out.length + 2) s = .next t ∧ t.phase = .idle ∧ t.host = rest ∧
      t.inLen.toNat = out.length ∧ (∀ a b, out[a]? = some b → t.inByte a = b) ∧
      (∀ a, out.length ≤ a → t.inByte a = s.inByte a) ∧
      t.cmd = s.cmd ∧ t.config = s.config ∧ t.status = s.status ∧ t.outLen = s.outLen ∧ t.outMem = s.outMem ∧
      t.responses = s.responses ++ .word s.outLen :: out.map Response.byte
end

