-- ==== Sys2Proof/Laws/Bitstream.lean ====
section
/-! SUPPORT. The laws of the bitstream primitives that the codec laws use: lengths, one packed byte. -/

namespace Sys2Proof.Machine

@[simp] theorem bitsMSB_length (v w : Nat) : (bitsMSB v w).length = w := by
  induction w with
  | zero => rfl
  | succ w ih => simp [bitsMSB, ih]

@[simp] theorem unpackMSB_nil : unpackMSB [] = [] := rfl

@[simp] theorem unpackMSB_cons (b : Byte) (p : List Byte) : unpackMSB (b :: p) = bitsMSB b.toNat 8 ++ unpackMSB p := rfl

/-- Eight bits packed into a byte come back from it. -/
theorem bitsMSB_packed (b7 b6 b5 b4 b3 b2 b1 b0 : Bool) :
    bitsMSB (BitVec.ofNat 8 (bitsToNat [b7, b6, b5, b4, b3, b2, b1, b0])).toNat 8 = [b7, b6, b5, b4, b3, b2, b1, b0] := by
  revert b7 b6 b5 b4 b3 b2 b1 b0
  decide

/-- The packing of eight bits and more. -/
theorem packBytes_cons (b7 b6 b5 b4 b3 b2 b1 b0 : Bool) (s : Bits) :
    packBytes (b7 :: b6 :: b5 :: b4 :: b3 :: b2 :: b1 :: b0 :: s) =
      BitVec.ofNat 8 (bitsToNat [b7, b6, b5, b4, b3, b2, b1, b0]) :: packBytes s := rfl

@[simp] theorem be16_length (c : Nat) : (be16 c).length = 2 := rfl

end Sys2Proof.Machine
end

