-- ==== Sys2Proof/Laws/Memory.lean ====
section
/-! SUPPORT. The laws of buffer memory: a read after a write, the bytes a write leaves alone, the
canonical form, and the capacity bound. -/

namespace Sys2Proof.Machine

namespace Memory

@[simp] theorem get?_nil (a : Nat) : Memory.get? [] a = none := rfl

@[simp] theorem get?_cons (x : Host.Cell) (m : Memory) (a : Nat) :
    Memory.get? (x :: m) a = if x.1 = a then some x.2 else Memory.get? m a := by
  by_cases h : x.1 = a
  · simp [Memory.get?, h]
  · simp [Memory.get?, h, beq_eq_false_iff_ne.2 h]

/-- A read after a write to the same address gives the byte written. -/
@[simp] theorem get?_write_same (m : Memory) (a : Nat) (b : Byte) : (Memory.write m a b).get? a = some b := by
  induction m with
  | nil => simp [Memory.write]
  | cons x m ih =>
    unfold Memory.write
    split
    · simp
    · split
      · simp
      · rename_i h
        have hx : ¬ x.1 = a := fun e => h e.symm
        simp [ih, hx]

/-- A write leaves every other address alone. -/
theorem get?_write_other (m : Memory) (a c : Nat) (b : Byte) (h : c ≠ a) :
    (Memory.write m a b).get? c = m.get? c := by
  induction m with
  | nil =>
    have ha : ¬ a = c := fun e => h e.symm
    simp [Memory.write, ha]
  | cons x m ih =>
    have ha : ¬ a = c := fun e => h e.symm
    unfold Memory.write
    split
    · simp [ha]
    · split
      · rename_i e
        have hx : ¬ x.1 = c := fun e' => ha (e.trans e')
        simp [ha, hx]
      · simp [ih]

/-- Every address a write lists was listed or is the address written. -/
theorem mem_write (m : Memory) (a : Nat) (b : Byte) (x : Host.Cell) (h : x ∈ Memory.write m a b) :
    x ∈ m ∨ x = (a, b) := by
  induction m with
  | nil => simpa [Memory.write] using h
  | cons y m ih =>
    unfold Memory.write at h
    split at h
    · rcases List.mem_cons.1 h with h | h
      · exact .inr h
      · exact .inl h
    · split at h
      · rcases List.mem_cons.1 h with h | h
        · exact .inr h
        · exact .inl (List.mem_cons_of_mem _ h)
      · rcases List.mem_cons.1 h with h | h
        · exact .inl (by simp [h])
        · exact (ih h).imp (List.mem_cons_of_mem _) id

/-- A write keeps the canonical form. -/
theorem wf_write (m : Memory) (a : Nat) (b : Byte) (h : m.wf) : (Memory.write m a b).wf := by
  induction m with
  | nil => simp [Memory.write]
  | cons y m ih =>
    have hy := (List.pairwise_cons.1 h).1
    have hm := (List.pairwise_cons.1 h).2
    unfold Memory.write
    split
    · rename_i hlt
      refine List.pairwise_cons.2 ⟨fun x hx => ?_, h⟩
      rcases List.mem_cons.1 hx with rfl | hx
      · exact hlt
      · exact Nat.lt_trans hlt (hy x hx)
    · split
      · rename_i e
        exact List.pairwise_cons.2 ⟨fun x hx => e ▸ hy x hx, hm⟩
      · rename_i hge hne
        refine List.pairwise_cons.2 ⟨fun x hx => ?_, ih hm⟩
        rcases mem_write m a b x hx with hx | rfl
        · exact hy x hx
        · exact Nat.lt_of_le_of_ne (Nat.le_of_not_lt hge) (fun e => hne e.symm)

/-- A write below the capacity keeps every listed address below it. -/
theorem below_write (m : Memory) (cap a : Nat) (b : Byte) (h : m.below cap) (ha : a < cap) :
    (Memory.write m a b).below cap := by
  intro x hx
  rcases mem_write m a b x hx with hx | rfl
  · exact h x hx
  · exact ha

@[simp] theorem writeAll_nil (m : Memory) (a : Nat) : m.writeAll a [] = m := rfl

@[simp] theorem writeAll_cons (m : Memory) (a : Nat) (b : Byte) (bs : List Byte) :
    m.writeAll a (b :: bs) = (Memory.write m a b).writeAll (a + 1) bs := rfl

/-- What a run of bytes leaves at an address: the byte of the run there, or what was there. -/
theorem get?_writeAll (m : Memory) (a c : Nat) (bs : List Byte) :
    (m.writeAll a bs).get? c = if a ≤ c ∧ c < a + bs.length then bs[c - a]? else m.get? c := by
  induction bs generalizing m a with
  | nil => simp
  | cons b bs ih =>
    rw [writeAll_cons, ih]
    rcases Nat.lt_trichotomy c a with h | rfl | h
    · rw [if_neg (by omega), if_neg (by omega), get?_write_other _ _ _ _ (by omega)]
    · simp
    · obtain ⟨d, rfl⟩ : ∃ d, c = a + 1 + d := ⟨c - (a + 1), by omega⟩
      have e : a + 1 + d - a = d + 1 := by omega
      by_cases hd : d < bs.length
      · rw [if_pos (by omega), if_pos ⟨by omega, by simp; omega⟩, e]
        simp
      · rw [if_neg (by omega), if_neg (by simp; omega), get?_write_other _ _ _ _ (by omega)]

/-- Bytes written from address 0 into a buffer that lists nothing: byte `a` is element `a`. -/
@[simp] theorem get?_writeAll_zero (a : Nat) (bs : List Byte) :
    (Memory.writeAll [] 0 bs).get? a = bs[a]? := by
  rw [get?_writeAll]
  by_cases h : a < bs.length
  · simp [h]
  · simp [h]

/-- A run of bytes keeps the canonical form. -/
theorem wf_writeAll (m : Memory) (a : Nat) (bs : List Byte) (h : m.wf) : (m.writeAll a bs).wf := by
  induction bs generalizing m a with
  | nil => exact h
  | cons b bs ih => exact ih _ _ (wf_write m a b h)

/-- A run of bytes that ends within the capacity keeps every listed address below it. -/
theorem below_writeAll (m : Memory) (cap a : Nat) (bs : List Byte) (h : m.below cap) (ha : a + bs.length ≤ cap) :
    (m.writeAll a bs).below cap := by
  induction bs generalizing m a with
  | nil => exact h
  | cons b bs ih =>
    simp only [List.length_cons] at ha
    exact ih _ _ (below_write m cap a b h (by omega)) (by omega)

/-- A write above every listed address lists its byte last. -/
theorem write_last (m : Memory) (a : Nat) (b : Byte) (h : m.below a) : m.write a b = m ++ [(a, b)] := by
  induction m with
  | nil => rfl
  | cons x m ih =>
    have hx : x.1 < a := h x (by simp)
    unfold Memory.write
    rw [if_neg (by omega), if_neg (by omega), ih (fun y hy => h y (by simp [hy]))]
    rfl

/-- The bytes listed after a run written above every listed address. -/
theorem writeAll_bytes (m : Memory) (a : Nat) (bs : List Byte) (h : m.below a) :
    (m.writeAll a bs).map Prod.snd = m.map Prod.snd ++ bs := by
  induction bs generalizing m a with
  | nil => simp [Memory.writeAll]
  | cons b bs ih =>
    unfold Memory.writeAll
    rw [write_last m a b h, ih]
    · simp
    · intro x hx
      rcases List.mem_append.1 hx with hx | hx
      · have := h x hx
        omega
      · simp at hx
        simp [hx]

end Memory

/-- The buffers after reset are canonical. -/
theorem reset_memories_wf : State.reset.inMem.wf ∧ State.reset.outMem.wf := by decide

/-- Reset at any time leaves canonical buffers. -/
theorem assertReset_memories_wf (s : State) : s.assertReset.inMem.wf ∧ s.assertReset.outMem.wf := by
  simp [State.assertReset, State.reset]

/-- A host write keeps IN_MEM canonical. -/
theorem inWrite_wf (s : State) (a : Nat) (b : Byte) (h : s.inMem.wf) : (s.inWrite a b).inMem.wf := by
  unfold State.inWrite
  split
  · exact h
  · split
    · exact Memory.wf_write _ _ _ h
    · exact h

/-- A completion with a result leaves OUT_MEM canonical. -/
theorem succeed_wf (s : State) (out : List Byte) : (s.succeed out).outMem.wf :=
  Memory.wf_writeAll [] 0 out (by simp)

/-- A completion with a codec error leaves OUT_MEM canonical. -/
theorem failCodec_wf (s : State) (e : CmdError) : (s.failCodec e).outMem.wf := by
  simp [State.failCodec]

/-- IN_MEM after a host write below the capacity, byte by byte. -/
theorem inByte_write (s : State) (a c : Nat) (b : Byte) :
    ({ s with inMem := s.inMem.write a b } : State).inByte c = if c = a then b else s.inByte c := by
  by_cases h : c = a
  · simp [State.inByte, h]
  · simp [State.inByte, h, Memory.get?_write_other _ _ _ _ h]

end Sys2Proof.Machine
end

