-- ==== Sys2Proof/Laws/State.lean ====
section
/-! SUPPORT. One lemma per field of State per update, each true by rfl, so that no proof unfolds a
record update; and the fields of the state after reset. -/

namespace Sys2Proof.Machine.State

/-! ### latch -/

@[simp] theorem latch_inCap (s : State) : s.latch.inCap = s.inCap := rfl
@[simp] theorem latch_outCap (s : State) : s.latch.outCap = s.outCap := rfl
@[simp] theorem latch_lzwDictCap (s : State) : s.latch.lzwDictCap = s.lzwDictCap := rfl
@[simp] theorem latch_cmd (s : State) : s.latch.cmd = s.cmd := rfl
@[simp] theorem latch_status (s : State) : s.latch.status = statusStarted := rfl
@[simp] theorem latch_config (s : State) : s.latch.config = s.config := rfl
@[simp] theorem latch_inLen (s : State) : s.latch.inLen = s.inLen := rfl
@[simp] theorem latch_outLen (s : State) : s.latch.outLen = 0#32 := rfl
@[simp] theorem latch_phase (s : State) : s.latch.phase = .busy := rfl
@[simp] theorem latch_inMem (s : State) : s.latch.inMem = s.inMem := rfl
@[simp] theorem latch_outMem (s : State) : s.latch.outMem = s.outMem := rfl
@[simp] theorem latch_opS (s : State) : s.latch.opS = s.cmd := rfl
@[simp] theorem latch_cfgS (s : State) : s.latch.cfgS = s.config := rfl
@[simp] theorem latch_inLenS (s : State) : s.latch.inLenS = s.inLen := rfl
@[simp] theorem latch_ram (s : State) : s.latch.ram = s.ram := rfl
@[simp] theorem latch_host (s : State) : s.latch.host = s.host := rfl
@[simp] theorem latch_responses (s : State) : s.latch.responses = s.responses := rfl
@[simp] theorem latch_delay (s : State) : s.latch.delay = s.delay := rfl
@[simp] theorem latch_delays (s : State) : s.latch.delays = s.delays := rfl
@[simp] theorem latch_draws (s : State) : s.latch.draws = s.draws := rfl
@[simp] theorem latch_inEpoch (s : State) : s.latch.inEpoch = s.inEpoch := rfl

/-! ### respond -/

@[simp] theorem respond_inCap (s : State) (r : Response) : (s.respond r).inCap = s.inCap := rfl
@[simp] theorem respond_outCap (s : State) (r : Response) : (s.respond r).outCap = s.outCap := rfl
@[simp] theorem respond_lzwDictCap (s : State) (r : Response) : (s.respond r).lzwDictCap = s.lzwDictCap := rfl
@[simp] theorem respond_cmd (s : State) (r : Response) : (s.respond r).cmd = s.cmd := rfl
@[simp] theorem respond_status (s : State) (r : Response) : (s.respond r).status = s.status := rfl
@[simp] theorem respond_config (s : State) (r : Response) : (s.respond r).config = s.config := rfl
@[simp] theorem respond_inLen (s : State) (r : Response) : (s.respond r).inLen = s.inLen := rfl
@[simp] theorem respond_outLen (s : State) (r : Response) : (s.respond r).outLen = s.outLen := rfl
@[simp] theorem respond_phase (s : State) (r : Response) : (s.respond r).phase = s.phase := rfl
@[simp] theorem respond_inMem (s : State) (r : Response) : (s.respond r).inMem = s.inMem := rfl
@[simp] theorem respond_outMem (s : State) (r : Response) : (s.respond r).outMem = s.outMem := rfl
@[simp] theorem respond_opS (s : State) (r : Response) : (s.respond r).opS = s.opS := rfl
@[simp] theorem respond_cfgS (s : State) (r : Response) : (s.respond r).cfgS = s.cfgS := rfl
@[simp] theorem respond_inLenS (s : State) (r : Response) : (s.respond r).inLenS = s.inLenS := rfl
@[simp] theorem respond_ram (s : State) (r : Response) : (s.respond r).ram = s.ram := rfl
@[simp] theorem respond_host (s : State) (r : Response) : (s.respond r).host = s.host := rfl
@[simp] theorem respond_responses (s : State) (r : Response) : (s.respond r).responses = s.responses ++ [r] := rfl
@[simp] theorem respond_delay (s : State) (r : Response) : (s.respond r).delay = s.delay := rfl
@[simp] theorem respond_delays (s : State) (r : Response) : (s.respond r).delays = s.delays := rfl
@[simp] theorem respond_draws (s : State) (r : Response) : (s.respond r).draws = s.draws := rfl
@[simp] theorem respond_inEpoch (s : State) (r : Response) : (s.respond r).inEpoch = s.inEpoch := rfl

/-! ### popHost -/

@[simp] theorem popHost_inCap (s : State) (rest : List HostStmt) : (s.popHost rest).inCap = s.inCap := rfl
@[simp] theorem popHost_outCap (s : State) (rest : List HostStmt) : (s.popHost rest).outCap = s.outCap := rfl
@[simp] theorem popHost_lzwDictCap (s : State) (rest : List HostStmt) : (s.popHost rest).lzwDictCap = s.lzwDictCap := rfl
@[simp] theorem popHost_cmd (s : State) (rest : List HostStmt) : (s.popHost rest).cmd = s.cmd := rfl
@[simp] theorem popHost_status (s : State) (rest : List HostStmt) : (s.popHost rest).status = s.status := rfl
@[simp] theorem popHost_config (s : State) (rest : List HostStmt) : (s.popHost rest).config = s.config := rfl
@[simp] theorem popHost_inLen (s : State) (rest : List HostStmt) : (s.popHost rest).inLen = s.inLen := rfl
@[simp] theorem popHost_outLen (s : State) (rest : List HostStmt) : (s.popHost rest).outLen = s.outLen := rfl
@[simp] theorem popHost_phase (s : State) (rest : List HostStmt) : (s.popHost rest).phase = s.phase := rfl
@[simp] theorem popHost_inMem (s : State) (rest : List HostStmt) : (s.popHost rest).inMem = s.inMem := rfl
@[simp] theorem popHost_outMem (s : State) (rest : List HostStmt) : (s.popHost rest).outMem = s.outMem := rfl
@[simp] theorem popHost_opS (s : State) (rest : List HostStmt) : (s.popHost rest).opS = s.opS := rfl
@[simp] theorem popHost_cfgS (s : State) (rest : List HostStmt) : (s.popHost rest).cfgS = s.cfgS := rfl
@[simp] theorem popHost_inLenS (s : State) (rest : List HostStmt) : (s.popHost rest).inLenS = s.inLenS := rfl
@[simp] theorem popHost_ram (s : State) (rest : List HostStmt) : (s.popHost rest).ram = s.ram := rfl
@[simp] theorem popHost_host (s : State) (rest : List HostStmt) : (s.popHost rest).host = rest := rfl
@[simp] theorem popHost_responses (s : State) (rest : List HostStmt) : (s.popHost rest).responses = s.responses := rfl
@[simp] theorem popHost_delay (s : State) (rest : List HostStmt) : (s.popHost rest).delay = s.delay - 1 := rfl
@[simp] theorem popHost_delays (s : State) (rest : List HostStmt) : (s.popHost rest).delays = s.delays := rfl
@[simp] theorem popHost_draws (s : State) (rest : List HostStmt) : (s.popHost rest).draws = s.draws := rfl
@[simp] theorem popHost_inEpoch (s : State) (rest : List HostStmt) : (s.popHost rest).inEpoch = s.inEpoch := rfl

/-! ### succeed -/

@[simp] theorem succeed_inCap (s : State) (out : List Byte) : (s.succeed out).inCap = s.inCap := rfl
@[simp] theorem succeed_outCap (s : State) (out : List Byte) : (s.succeed out).outCap = s.outCap := rfl
@[simp] theorem succeed_lzwDictCap (s : State) (out : List Byte) : (s.succeed out).lzwDictCap = s.lzwDictCap := rfl
@[simp] theorem succeed_cmd (s : State) (out : List Byte) : (s.succeed out).cmd = s.cmd := rfl
@[simp] theorem succeed_status (s : State) (out : List Byte) : (s.succeed out).status = statusSucceeded := rfl
@[simp] theorem succeed_config (s : State) (out : List Byte) : (s.succeed out).config = s.config := rfl
@[simp] theorem succeed_inLen (s : State) (out : List Byte) : (s.succeed out).inLen = s.inLen := rfl
@[simp] theorem succeed_outLen (s : State) (out : List Byte) : (s.succeed out).outLen = BitVec.ofNat 32 out.length := rfl
@[simp] theorem succeed_phase (s : State) (out : List Byte) : (s.succeed out).phase = .idle := rfl
@[simp] theorem succeed_inMem (s : State) (out : List Byte) : (s.succeed out).inMem = s.inMem := rfl
@[simp] theorem succeed_outMem (s : State) (out : List Byte) : (s.succeed out).outMem = Memory.writeAll [] 0 out := rfl
@[simp] theorem succeed_opS (s : State) (out : List Byte) : (s.succeed out).opS = s.opS := rfl
@[simp] theorem succeed_cfgS (s : State) (out : List Byte) : (s.succeed out).cfgS = s.cfgS := rfl
@[simp] theorem succeed_inLenS (s : State) (out : List Byte) : (s.succeed out).inLenS = s.inLenS := rfl
@[simp] theorem succeed_ram (s : State) (out : List Byte) : (s.succeed out).ram = s.ram := rfl
@[simp] theorem succeed_host (s : State) (out : List Byte) : (s.succeed out).host = s.host := rfl
@[simp] theorem succeed_responses (s : State) (out : List Byte) : (s.succeed out).responses = s.responses := rfl
@[simp] theorem succeed_delay (s : State) (out : List Byte) : (s.succeed out).delay = s.delay := rfl
@[simp] theorem succeed_delays (s : State) (out : List Byte) : (s.succeed out).delays = s.delays := rfl
@[simp] theorem succeed_draws (s : State) (out : List Byte) : (s.succeed out).draws = s.draws := rfl
@[simp] theorem succeed_inEpoch (s : State) (out : List Byte) : (s.succeed out).inEpoch = s.inEpoch := rfl

/-! ### fail -/

@[simp] theorem fail_inCap (s : State) (e : CmdError) : (s.fail e).inCap = s.inCap := rfl
@[simp] theorem fail_outCap (s : State) (e : CmdError) : (s.fail e).outCap = s.outCap := rfl
@[simp] theorem fail_lzwDictCap (s : State) (e : CmdError) : (s.fail e).lzwDictCap = s.lzwDictCap := rfl
@[simp] theorem fail_cmd (s : State) (e : CmdError) : (s.fail e).cmd = s.cmd := rfl
@[simp] theorem fail_status (s : State) (e : CmdError) : (s.fail e).status = statusFailed e := rfl
@[simp] theorem fail_config (s : State) (e : CmdError) : (s.fail e).config = s.config := rfl
@[simp] theorem fail_inLen (s : State) (e : CmdError) : (s.fail e).inLen = s.inLen := rfl
@[simp] theorem fail_outLen (s : State) (e : CmdError) : (s.fail e).outLen = 0#32 := rfl
@[simp] theorem fail_phase (s : State) (e : CmdError) : (s.fail e).phase = .idle := rfl
@[simp] theorem fail_inMem (s : State) (e : CmdError) : (s.fail e).inMem = s.inMem := rfl
@[simp] theorem fail_outMem (s : State) (e : CmdError) : (s.fail e).outMem = s.outMem := rfl
@[simp] theorem fail_opS (s : State) (e : CmdError) : (s.fail e).opS = s.opS := rfl
@[simp] theorem fail_cfgS (s : State) (e : CmdError) : (s.fail e).cfgS = s.cfgS := rfl
@[simp] theorem fail_inLenS (s : State) (e : CmdError) : (s.fail e).inLenS = s.inLenS := rfl
@[simp] theorem fail_ram (s : State) (e : CmdError) : (s.fail e).ram = s.ram := rfl
@[simp] theorem fail_host (s : State) (e : CmdError) : (s.fail e).host = s.host := rfl
@[simp] theorem fail_responses (s : State) (e : CmdError) : (s.fail e).responses = s.responses := rfl
@[simp] theorem fail_delay (s : State) (e : CmdError) : (s.fail e).delay = s.delay := rfl
@[simp] theorem fail_delays (s : State) (e : CmdError) : (s.fail e).delays = s.delays := rfl
@[simp] theorem fail_draws (s : State) (e : CmdError) : (s.fail e).draws = s.draws := rfl
@[simp] theorem fail_inEpoch (s : State) (e : CmdError) : (s.fail e).inEpoch = s.inEpoch := rfl

/-! ### failCodec -/

@[simp] theorem failCodec_inCap (s : State) (e : CmdError) : (s.failCodec e).inCap = s.inCap := rfl
@[simp] theorem failCodec_outCap (s : State) (e : CmdError) : (s.failCodec e).outCap = s.outCap := rfl
@[simp] theorem failCodec_lzwDictCap (s : State) (e : CmdError) : (s.failCodec e).lzwDictCap = s.lzwDictCap := rfl
@[simp] theorem failCodec_cmd (s : State) (e : CmdError) : (s.failCodec e).cmd = s.cmd := rfl
@[simp] theorem failCodec_status (s : State) (e : CmdError) : (s.failCodec e).status = statusFailed e := rfl
@[simp] theorem failCodec_config (s : State) (e : CmdError) : (s.failCodec e).config = s.config := rfl
@[simp] theorem failCodec_inLen (s : State) (e : CmdError) : (s.failCodec e).inLen = s.inLen := rfl
@[simp] theorem failCodec_outLen (s : State) (e : CmdError) : (s.failCodec e).outLen = 0#32 := rfl
@[simp] theorem failCodec_phase (s : State) (e : CmdError) : (s.failCodec e).phase = .idle := rfl
@[simp] theorem failCodec_inMem (s : State) (e : CmdError) : (s.failCodec e).inMem = s.inMem := rfl
@[simp] theorem failCodec_outMem (s : State) (e : CmdError) : (s.failCodec e).outMem = [] := rfl
@[simp] theorem failCodec_opS (s : State) (e : CmdError) : (s.failCodec e).opS = s.opS := rfl
@[simp] theorem failCodec_cfgS (s : State) (e : CmdError) : (s.failCodec e).cfgS = s.cfgS := rfl
@[simp] theorem failCodec_inLenS (s : State) (e : CmdError) : (s.failCodec e).inLenS = s.inLenS := rfl
@[simp] theorem failCodec_ram (s : State) (e : CmdError) : (s.failCodec e).ram = s.ram := rfl
@[simp] theorem failCodec_host (s : State) (e : CmdError) : (s.failCodec e).host = s.host := rfl
@[simp] theorem failCodec_responses (s : State) (e : CmdError) : (s.failCodec e).responses = s.responses := rfl
@[simp] theorem failCodec_delay (s : State) (e : CmdError) : (s.failCodec e).delay = s.delay := rfl
@[simp] theorem failCodec_delays (s : State) (e : CmdError) : (s.failCodec e).delays = s.delays := rfl
@[simp] theorem failCodec_draws (s : State) (e : CmdError) : (s.failCodec e).draws = s.draws := rfl
@[simp] theorem failCodec_inEpoch (s : State) (e : CmdError) : (s.failCodec e).inEpoch = s.inEpoch := rfl

/-! ### drawOutByte -/

@[simp] theorem drawOutByte_inCap (s : State) : s.drawOutByte.2.inCap = s.inCap := rfl
@[simp] theorem drawOutByte_outCap (s : State) : s.drawOutByte.2.outCap = s.outCap := rfl
@[simp] theorem drawOutByte_lzwDictCap (s : State) : s.drawOutByte.2.lzwDictCap = s.lzwDictCap := rfl
@[simp] theorem drawOutByte_cmd (s : State) : s.drawOutByte.2.cmd = s.cmd := rfl
@[simp] theorem drawOutByte_status (s : State) : s.drawOutByte.2.status = s.status := rfl
@[simp] theorem drawOutByte_config (s : State) : s.drawOutByte.2.config = s.config := rfl
@[simp] theorem drawOutByte_inLen (s : State) : s.drawOutByte.2.inLen = s.inLen := rfl
@[simp] theorem drawOutByte_outLen (s : State) : s.drawOutByte.2.outLen = s.outLen := rfl
@[simp] theorem drawOutByte_phase (s : State) : s.drawOutByte.2.phase = s.phase := rfl
@[simp] theorem drawOutByte_inMem (s : State) : s.drawOutByte.2.inMem = s.inMem := rfl
@[simp] theorem drawOutByte_outMem (s : State) : s.drawOutByte.2.outMem = s.outMem := rfl
@[simp] theorem drawOutByte_opS (s : State) : s.drawOutByte.2.opS = s.opS := rfl
@[simp] theorem drawOutByte_cfgS (s : State) : s.drawOutByte.2.cfgS = s.cfgS := rfl
@[simp] theorem drawOutByte_inLenS (s : State) : s.drawOutByte.2.inLenS = s.inLenS := rfl
@[simp] theorem drawOutByte_ram (s : State) : s.drawOutByte.2.ram = s.ram := rfl
@[simp] theorem drawOutByte_host (s : State) : s.drawOutByte.2.host = s.host := rfl
@[simp] theorem drawOutByte_responses (s : State) : s.drawOutByte.2.responses = s.responses := rfl
@[simp] theorem drawOutByte_delay (s : State) : s.drawOutByte.2.delay = s.delay := rfl
@[simp] theorem drawOutByte_delays (s : State) : s.drawOutByte.2.delays = s.delays := rfl
@[simp] theorem drawOutByte_draws (s : State) : s.drawOutByte.2.draws = s.draws + 1 := rfl
@[simp] theorem drawOutByte_inEpoch (s : State) : s.drawOutByte.2.inEpoch = s.inEpoch := rfl

/-! ### assertReset -/

@[simp] theorem assertReset_inCap (s : State) : s.assertReset.inCap = s.inCap := rfl
@[simp] theorem assertReset_outCap (s : State) : s.assertReset.outCap = s.outCap := rfl
@[simp] theorem assertReset_lzwDictCap (s : State) : s.assertReset.lzwDictCap = s.lzwDictCap := rfl
@[simp] theorem assertReset_cmd (s : State) : s.assertReset.cmd = 0#4 := rfl
@[simp] theorem assertReset_status (s : State) : s.assertReset.status = 0#32 := rfl
@[simp] theorem assertReset_config (s : State) : s.assertReset.config = 0#3 := rfl
@[simp] theorem assertReset_inLen (s : State) : s.assertReset.inLen = 0#32 := rfl
@[simp] theorem assertReset_outLen (s : State) : s.assertReset.outLen = 0#32 := rfl
@[simp] theorem assertReset_phase (s : State) : s.assertReset.phase = .idle := rfl
@[simp] theorem assertReset_inMem (s : State) : s.assertReset.inMem = [] := rfl
@[simp] theorem assertReset_outMem (s : State) : s.assertReset.outMem = [] := rfl
@[simp] theorem assertReset_opS (s : State) : s.assertReset.opS = 0#4 := rfl
@[simp] theorem assertReset_cfgS (s : State) : s.assertReset.cfgS = 0#3 := rfl
@[simp] theorem assertReset_inLenS (s : State) : s.assertReset.inLenS = 0#32 := rfl
@[simp] theorem assertReset_ram (s : State) : s.assertReset.ram = Ram.reset := rfl
@[simp] theorem assertReset_host (s : State) : s.assertReset.host = s.host := rfl
@[simp] theorem assertReset_responses (s : State) : s.assertReset.responses = s.responses := rfl
@[simp] theorem assertReset_delay (s : State) : s.assertReset.delay = 0 := rfl
@[simp] theorem assertReset_delays (s : State) : s.assertReset.delays = s.delays := rfl
@[simp] theorem assertReset_draws (s : State) : s.assertReset.draws = s.draws := rfl
@[simp] theorem assertReset_inEpoch (s : State) : s.assertReset.inEpoch = s.inEpoch + 1 := rfl

/-! ### reset -/

@[simp] theorem reset_inCap : State.reset.inCap = Config.inCap := rfl
@[simp] theorem reset_outCap : State.reset.outCap = Config.outCap := rfl
@[simp] theorem reset_lzwDictCap : State.reset.lzwDictCap = Config.lzwDictCap := rfl
@[simp] theorem reset_cmd : State.reset.cmd = 0#4 := rfl
@[simp] theorem reset_status : State.reset.status = 0#32 := rfl
@[simp] theorem reset_config : State.reset.config = 0#3 := rfl
@[simp] theorem reset_inLen : State.reset.inLen = 0#32 := rfl
@[simp] theorem reset_outLen : State.reset.outLen = 0#32 := rfl
@[simp] theorem reset_phase : State.reset.phase = .idle := rfl
@[simp] theorem reset_inMem : State.reset.inMem = [] := rfl
@[simp] theorem reset_outMem : State.reset.outMem = [] := rfl
@[simp] theorem reset_opS : State.reset.opS = 0#4 := rfl
@[simp] theorem reset_cfgS : State.reset.cfgS = 0#3 := rfl
@[simp] theorem reset_inLenS : State.reset.inLenS = 0#32 := rfl
@[simp] theorem reset_ram : State.reset.ram = Ram.reset := rfl
@[simp] theorem reset_host : State.reset.host = [] := rfl
@[simp] theorem reset_responses : State.reset.responses = [] := rfl
@[simp] theorem reset_delay : State.reset.delay = 0 := rfl
@[simp] theorem reset_delays : State.reset.delays = [] := rfl
@[simp] theorem reset_draws : State.reset.draws = 0 := rfl
@[simp] theorem reset_inEpoch : State.reset.inEpoch = 0 := rfl

/-! ### Values an update returns -/

@[simp] theorem drawOutByte_fst (s : State) : s.drawOutByte.1 = Config.freeOutByte s.draws := rfl
@[simp] theorem respond_inByte (s : State) (r : Response) (a : Nat) : (s.respond r).inByte a = s.inByte a := rfl
@[simp] theorem popHost_inByte (s : State) (rest : List HostStmt) (a : Nat) : (s.popHost rest).inByte a = s.inByte a := rfl
@[simp] theorem popHost_regRead (s : State) (rest : List HostStmt) (off : Nat) : (s.popHost rest).regRead off = s.regRead off := rfl
@[simp] theorem latch_inByte (s : State) (a : Nat) : s.latch.inByte a = s.inByte a := rfl
@[simp] theorem succeed_inByte (s : State) (out : List Byte) (a : Nat) : (s.succeed out).inByte a = s.inByte a := rfl
@[simp] theorem fail_inByte (s : State) (e : CmdError) (a : Nat) : (s.fail e).inByte a = s.inByte a := rfl
@[simp] theorem failCodec_inByte (s : State) (e : CmdError) (a : Nat) : (s.failCodec e).inByte a = s.inByte a := rfl

end Sys2Proof.Machine.State
end

