-- ==== Sys2Proof/Laws/Ops.lean ====
section
/-! SUPPORT. One lemma per shared operation that says everything it can do: Emit, a codec's run under
an output capacity, the completion step, the host's accesses, START, and a step. -/

namespace Sys2Proof.Machine

/-! ### Emit (40_dispatch.md R106) -/

/-- EmitAll gives all the bytes where they fit and CapacityExceeded where they do not. -/
theorem emitAll_eq (cap : Nat) (out bs : List Byte) (h : out.length ≤ cap) :
    emitAll cap out bs =
      if out.length + bs.length ≤ cap then .ok (out ++ bs) else .error .capacityExceeded := by
  induction bs generalizing out with
  | nil => simp [emitAll, h]
  | cons b bs ih =>
    unfold emitAll emit
    by_cases hf : out.length = cap
    · simp [hf]
    · simp only [hf, if_false]
      rw [ih _ (by simp; omega)]
      simp [Nat.add_assoc, Nat.add_comm 1]

/-- A run under a capacity: an output that does not fit is CapacityExceeded, else the run's own error,
else the output. -/
theorem finish_eq (r : CodecRun) (cap : Nat) :
    r.finish cap =
      if cap < r.out.length then .error .capacityExceeded
      else match r.err with
        | some e => .error e
        | none => .ok r.out := by
  unfold CodecRun.finish
  rw [emitAll_eq cap [] r.out (by simp)]
  by_cases h : cap < r.out.length
  · rw [if_neg (by simpa using h), if_pos h]
  · rw [if_pos (by simpa using h), if_neg h]
    rfl

theorem finish_ok {r : CodecRun} {cap : Nat} {out : List Byte} (h : r.finish cap = .ok out) :
    out = r.out ∧ r.err = none ∧ r.out.length ≤ cap := by
  rw [finish_eq] at h
  split at h
  · cases h
  · split at h
    · cases h
    · cases h
      exact ⟨rfl, ‹_›, by omega⟩

theorem finish_error {r : CodecRun} {cap : Nat} {e : CmdError} (h : r.finish cap = .error e) :
    (e = .capacityExceeded ∧ cap < r.out.length) ∨ (r.err = some e ∧ r.out.length ≤ cap) := by
  rw [finish_eq] at h
  split at h
  · cases h
    exact .inl ⟨rfl, ‹_›⟩
  · split at h
    · cases h
      exact .inr ⟨‹_›, by omega⟩
    · cases h

@[simp] theorem Trace.before_out (b : Byte) (t : Trace) : (t.before b).out = b :: t.out := rfl
@[simp] theorem Trace.before_err (b : Byte) (t : Trace) : (t.before b).err = t.err := rfl
@[simp] theorem Trace.done_out : Trace.done.out = [] := rfl
@[simp] theorem Trace.done_err : Trace.done.err = none := rfl
@[simp] theorem Trace.malformed_out : Trace.malformed.out = [] := rfl
@[simp] theorem Trace.malformed_err : Trace.malformed.err = some .malformedData := rfl
@[simp] theorem Trace.toRun_out (r : Ram) (t : Trace) : (t.toRun r).out = t.out := rfl
@[simp] theorem Trace.toRun_err (r : Ram) (t : Trace) : (t.toRun r).err = t.err := rfl
@[simp] theorem Trace.toRun_ram (r : Ram) (t : Trace) : (t.toRun r).ram = r := rfl

/-! ### Completion (40_dispatch.md R107, R108) -/

/-- STATUS tells the errors apart. -/
theorem statusFailed_injective (e e' : CmdError) (h : statusFailed e = statusFailed e') : e = e' := by
  revert h
  cases e <;> cases e' <;> decide

/-- STATUS tells an error from a success. -/
theorem statusFailed_ne_succeeded (e : CmdError) : statusFailed e ≠ statusSucceeded := by cases e <;> decide

theorem SameOutside.refl (s : State) : SameOutside s s :=
  ⟨rfl, rfl, rfl, rfl, rfl, rfl, rfl, fun _ => rfl, rfl, rfl, rfl, rfl, rfl, rfl, rfl, rfl, rfl⟩

/-- A state that differs from `s` in STATUS, OUT_LEN, the phase, OUT_MEM and the RAMs only. -/
theorem sameOutside_complete (s : State) (r : Ram) (m : Memory) (w n : Word) (p : Phase) :
    SameOutside s { s with ram := r, outMem := m, outLen := n, status := w, phase := p } :=
  ⟨rfl, rfl, rfl, rfl, rfl, rfl, rfl, fun _ => rfl, rfl, rfl, rfl, rfl, rfl, rfl, rfl, rfl, rfl⟩

theorem succeeded_succeed (s : State) (r : Ram) (out : List Byte) (h : out.length ≤ s.outCap.toNat) :
    Succeeded s (({ s with ram := r } : State).succeed out) out where
  status := rfl
  outLen := by
    have := s.outCap.isLt
    simp [BitVec.toNat_ofNat, Nat.mod_eq_of_lt (by omega : out.length < 4294967296)]
  phase := rfl
  outBytes := fun a => by simp
  same := sameOutside_complete s r _ _ _ _

theorem failedInCodec_failCodec (s : State) (r : Ram) (e : CmdError) :
    FailedInCodec s (({ s with ram := r } : State).failCodec e) e :=
  ⟨rfl, rfl, rfl, fun _ => rfl, sameOutside_complete s r _ _ _ _⟩

theorem failedBeforeAccess_fail (s : State) (e : CmdError) : FailedBeforeAccess s (s.fail e) e :=
  ⟨rfl, rfl, rfl, rfl, rfl, sameOutside_complete s s.ram s.outMem _ _ _⟩

/-- A completion leaves the RAMs as they are. -/
theorem complete_ram (s : State) (r : Except CmdError (List Byte)) : (s.complete r).ram = s.ram := by
  cases r <;> rfl

/-- The input is too long: the command fails before any buffer access (40_dispatch.md R104). -/
theorem runCodec_tooLong (s : State) (codec : Ram → List Byte → CodecRun) (h : s.inCap.toNat < s.inLenS.toNat) :
    FailedBeforeAccess s (s.runCodec codec) .capacityExceeded := by
  unfold State.runCodec
  rw [if_pos h]
  exact failedBeforeAccess_fail s _

/-- A run that ends without error and fits succeeds with its output. -/
theorem runCodec_succeeds (s : State) (codec : Ram → List Byte → CodecRun) (h : s.inLenS.toNat ≤ s.inCap.toNat)
    (he : (codec s.ram s.input).err = none) (hl : (codec s.ram s.input).out.length ≤ s.outCap.toNat) :
    Succeeded s (s.runCodec codec) (codec s.ram s.input).out ∧ (s.runCodec codec).ram = (codec s.ram s.input).ram := by
  unfold State.runCodec
  rw [if_neg (by omega)]
  simp only [finish_eq, if_neg (by omega : ¬ s.outCap.toNat < (codec s.ram s.input).out.length), he]
  exact ⟨succeeded_succeed s _ _ hl, rfl⟩

/-- A run that ends in an error fails with it, unless an Emit before found the output full. -/
theorem runCodec_fails (s : State) (codec : Ram → List Byte → CodecRun) (e : CmdError)
    (h : s.inLenS.toNat ≤ s.inCap.toNat) (he : (codec s.ram s.input).err = some e)
    (hl : (codec s.ram s.input).out.length ≤ s.outCap.toNat) :
    FailedInCodec s (s.runCodec codec) e := by
  unfold State.runCodec
  rw [if_neg (by omega)]
  simp only [finish_eq, if_neg (by omega : ¬ s.outCap.toNat < (codec s.ram s.input).out.length), he]
  exact failedInCodec_failCodec s _ e

/-- A run whose output does not fit fails with CapacityExceeded (40_dispatch.md R106). -/
theorem runCodec_overflows (s : State) (codec : Ram → List Byte → CodecRun)
    (h : s.inLenS.toNat ≤ s.inCap.toNat) (hl : s.outCap.toNat < (codec s.ram s.input).out.length) :
    FailedInCodec s (s.runCodec codec) .capacityExceeded := by
  unfold State.runCodec
  rw [if_neg (by omega)]
  simp only [finish_eq, if_pos hl]
  exact failedInCodec_failCodec s _ _

/-- Everything the completion step of a defined command can do. -/
theorem runCodec_cases (s : State) (codec : Ram → List Byte → CodecRun) :
    (s.inCap.toNat < s.inLenS.toNat ∧ FailedBeforeAccess s (s.runCodec codec) .capacityExceeded) ∨
    (s.inLenS.toNat ≤ s.inCap.toNat ∧ (s.runCodec codec).ram = (codec s.ram s.input).ram ∧
      (((codec s.ram s.input).err = none ∧ (codec s.ram s.input).out.length ≤ s.outCap.toNat ∧
          Succeeded s (s.runCodec codec) (codec s.ram s.input).out) ∨
        ∃ e, FailedInCodec s (s.runCodec codec) e ∧
          ((e = .capacityExceeded ∧ s.outCap.toNat < (codec s.ram s.input).out.length) ∨
            ((codec s.ram s.input).err = some e ∧ (codec s.ram s.input).out.length ≤ s.outCap.toNat)))) := by
  by_cases h : s.inCap.toNat < s.inLenS.toNat
  · exact .inl ⟨h, runCodec_tooLong s codec h⟩
  · refine .inr ⟨by omega, ?_, ?_⟩
    · unfold State.runCodec
      rw [if_neg (by omega)]
      exact complete_ram _ _
    · by_cases hl : (codec s.ram s.input).out.length ≤ s.outCap.toNat
      · cases he : (codec s.ram s.input).err with
        | none => exact .inl ⟨rfl, hl, (runCodec_succeeds s codec (by omega) he hl).1⟩
        | some e => exact .inr ⟨e, runCodec_fails s codec e (by omega) he hl, .inr ⟨rfl, hl⟩⟩
      · exact .inr ⟨_, runCodec_overflows s codec (by omega) (by omega), .inl ⟨rfl, by omega⟩⟩

/-- A reserved command fails before any buffer access (40_dispatch.md R109). -/
theorem runReserved_fails (s : State) : FailedBeforeAccess s s.runReserved .unsupportedAlgorithm :=
  failedBeforeAccess_fail s _

/-- Every command is the completion step of a codec, or of a reserved opcode. -/
theorem exec_cases (i : Instr) (s : State) :
    (i.reserved = true ∧ exec i s = .next s.runReserved) ∨
    (i.reserved = false ∧ ∃ codec, exec i s = .next (s.runCodec codec)) := by
  cases i
  case rleEnc => exact .inr ⟨rfl, _, rfl⟩
  case rleDec => exact .inr ⟨rfl, _, rfl⟩
  case hufEnc => exact .inr ⟨rfl, _, rfl⟩
  case hufDec => exact .inr ⟨rfl, _, rfl⟩
  case golEnc => exact .inr ⟨rfl, _, rfl⟩
  case golDec => exact .inr ⟨rfl, _, rfl⟩
  case lzwEnc => exact .inr ⟨rfl, _, rfl⟩
  case lzwDec => exact .inr ⟨rfl, _, rfl⟩
  all_goals exact .inl ⟨rfl, rfl⟩

/-! ### The input -/

@[simp] theorem input_length (s : State) : s.input.length = s.inLenS.toNat := by simp [State.input]

theorem input_getElem (s : State) (i : Nat) (h : i < s.inLenS.toNat) :
    s.input[i]? = some (s.inByte i) := by
  simp [State.input, State.fetch, h]

/-- The input of a core whose IN_MEM lists exactly the input's bytes from address 0. -/
theorem input_writeAll (s : State) (xs : List Byte) (hm : s.inMem = Memory.writeAll [] 0 xs)
    (hl : s.inLenS.toNat = xs.length) : s.input = xs := by
  apply List.ext_getElem?
  intro i
  by_cases h : i < xs.length
  · rw [input_getElem s i (by omega)]
    simp [State.inByte, hm, h]
  · rw [List.getElem?_eq_none (by simp; omega), List.getElem?_eq_none (by omega)]

/-! ### START -/

/-- A drawn delay touches the delay and its two sources only. -/
theorem drawDelay_fields (s : State) :
    s.drawDelay = { s with
      delay := s.drawDelay.delay
      delays := s.drawDelay.delays
      draws := s.drawDelay.draws } := by
  unfold State.drawDelay
  split <;> rfl

/-- An accepted START is the latch, apart from the delay and its draw (40_dispatch.md R101, R102). -/
theorem acceptStart_eq (s : State) :
    s.acceptStart = { s.latch with
      delay := s.acceptStart.delay
      delays := s.acceptStart.delays
      draws := s.acceptStart.draws } := drawDelay_fields s.latch

/-! ### Host accesses -/

theorem inWrite_busy (s : State) (a : Nat) (b : Byte) (h : s.phase = .busy) : s.inWrite a b = s := by
  simp [State.inWrite, h]

theorem regWrite_busy (s : State) (off : Nat) (v : Word) (h : s.phase = .busy) : s.regWrite off v = s := by
  simp [State.regWrite, h]

theorem inWrite_idle (s : State) (a : Nat) (b : Byte) (h : s.phase = .idle) :
    s.inWrite a b = if a < s.inCap.toNat then { s with inMem := s.inMem.write a b } else s := by
  simp [State.inWrite, h]

theorem regWrite_idle (s : State) (off : Nat) (v : Word) (h : s.phase = .idle) :
    s.regWrite off v = s.regWriteIdle off v := by
  simp [State.regWrite, h]

/-- Everything a register write can do. -/
theorem regWrite_cases (s : State) (off : Nat) (v : Word) :
    s.regWrite off v = s ∨
    (s.phase = .idle ∧
      ((off = 0x00 ∧ s.regWrite off v = { s with cmd := v.extractLsb' 0 4 }) ∨
        (off = 0x04 ∧ v.getLsbD 0 = true ∧ s.regWrite off v = s.acceptStart) ∨
        (off = 0x0C ∧ s.regWrite off v = { s with config := v.extractLsb' 0 3 }) ∨
        (off = 0x10 ∧ s.regWrite off v = { s with inLen := v }))) := by
  by_cases hp : s.phase = .idle
  · rw [regWrite_idle s off v hp]
    unfold State.regWriteIdle
    split
    · exact .inr ⟨hp, .inl ⟨‹_›, rfl⟩⟩
    · split
      · split
        · exact .inr ⟨hp, .inr (.inl ⟨‹_›, ‹_›, rfl⟩)⟩
        · exact .inl rfl
      · split
        · exact .inr ⟨hp, .inr (.inr (.inl ⟨‹_›, rfl⟩))⟩
        · split
          · exact .inr ⟨hp, .inr (.inr (.inr ⟨‹_›, rfl⟩))⟩
          · exact .inl rfl
  · refine .inl (regWrite_busy s off v ?_)
    cases h : s.phase
    · exact absurd h hp
    · rfl

/-- An OUT read leaves the state alone or moves the counter of free values on. -/
theorem outRead_state (s : State) (a : Nat) : (s.outRead a).2 = s ∨ (s.outRead a).2 = s.drawOutByte.2 := by
  unfold State.outRead
  split
  · split
    · exact .inr rfl
    · split
      · exact .inl rfl
      · exact .inr rfl
  · exact .inl rfl

/-- While IDLE a specified byte of OUT_MEM is what a read gives (70_reset_and_hazards.md R285). -/
theorem outRead_specified (s : State) (a : Nat) (b : Byte) (hp : s.phase = .idle) (ha : a < s.outCap.toNat)
    (hb : s.outMem.get? a = some b) : s.outRead a = (b, s) := by
  simp [State.outRead, hp, ha, hb]

/-! ### A step -/

theorem engineTurn_iff (s : State) : s.engineTurn = true ↔ s.phase = .busy ∧ (s.delay = 0 ∨ s.host = []) := by
  cases hp : s.phase <;> simp [State.engineTurn, hp]

theorem engineTurn_idle (s : State) (h : s.phase = .idle) : s.engineTurn = false := by
  simp [State.engineTurn, h]

theorem step_engine (s : State) (h : s.engineTurn = true) : step s = exec (decodeOp s.opS) s := by
  simp [step, h]

theorem step_host (s : State) (st : HostStmt) (rest : List HostStmt) (h : s.engineTurn = false)
    (hh : s.host = st :: rest) : step s = (s.popHost rest).hostStmt st := by
  simp [step, h, hh]

theorem step_wait (s : State) (h : s.engineTurn = false) (hh : s.host = []) : step s = .next s := by
  simp [step, h, hh]

/-- A run's first step. -/
theorem core_run_next (s t : State) (k : Nat) (h : step s = .next t) :
    Sys2Proof.core.run (k + 1) s = Sys2Proof.core.run k t := by
  simp only [Host.Core.run]
  rw [show Sys2Proof.core.step s = .next t from h]

/-- Everything a step can do. -/
theorem step_cases (s : State) :
    (s.engineTurn = true ∧ step s = exec (decodeOp s.opS) s) ∨
    (s.engineTurn = false ∧ s.host = [] ∧ step s = .next s) ∨
    (s.engineTurn = false ∧ ∃ st rest, s.host = st :: rest ∧ step s = (s.popHost rest).hostStmt st) := by
  cases h : s.engineTurn with
  | true => exact .inl ⟨rfl, step_engine s h⟩
  | false =>
    cases hh : s.host with
    | nil => exact .inr (.inl ⟨rfl, rfl, step_wait s h hh⟩)
    | cons st rest => exact .inr (.inr ⟨rfl, st, rest, rfl, step_host s st rest h hh⟩)

/-- A host statement has a next state, unless it is an access outside the interface. -/
theorem hostStmt_cases (s : State) (st : HostStmt) :
    (∃ t, s.hostStmt st = .next t) ∨
    (∃ x, st = .raw x ∧ x.decode = none ∧ s.hostStmt st = .refused (.accessOutsideInterface x)) := by
  cases st with
  | act a => exact .inl ⟨_, rfl⟩
  | raw x =>
    cases h : x.decode with
    | some a => exact .inl ⟨s.act a, by simp [State.hostStmt, h]⟩
    | none => exact .inr ⟨x, rfl, h, by simp [State.hostStmt, h]⟩
  | poll => exact .inl ⟨_, rfl⟩
  | copyback => exact .inl ⟨_, rfl⟩
  | copyLoop i n => exact .inl ⟨_, rfl⟩
  | reset => exact .inl ⟨_, rfl⟩

end Sys2Proof.Machine
end

