-- ==== Sys2Proof/Laws/Golomb.lean ====
section
/-! SUPPORT. The equations of the Golomb codec's operations (44_golomb.md R201 to R203): each says once
what one codeword or one byte of a stream does. -/

namespace Sys2Proof.Machine

/-- A byte is read as a bit exactly when it is that bit's byte (41_bitstream.md R126). -/
theorem byteBit_eq_some (b : Byte) (x : Bool) : byteBit b = some x ↔ b = bitByte x := by
  revert b x
  decide

@[simp] theorem byteBit_bitByte (x : Bool) : byteBit (bitByte x) = some x := by
  cases x <;> rfl

/-- The length of a codeword (44_golomb.md R201). -/
@[simp] theorem golCode_length (v : Byte) : (golCode v).length = v.toNat / 4 + 3 := by
  simp [golCode, bitsMSB]

/-- The input ends: at the start of a codeword that is the end of the stream, inside one it is
malformed. -/
@[simp] theorem golDecode_nil (q : Option Nat) : golDecode q [] = if q = none then .done else .malformed := by
  unfold golDecode
  rfl

/-- A one-byte lengthens the unary part, up to a quotient of 63. -/
theorem golDecode_one (q : Option Nat) (rest : List Byte) :
    golDecode q (0x01#8 :: rest) = if q.getD 0 + 1 > 63 then .malformed else golDecode (some (q.getD 0 + 1)) rest := by
  conv_lhs => unfold golDecode
  rfl

/-- A zero-byte and two bit bytes end a codeword. -/
theorem golDecode_zero (q : Option Nat) (x1 x0 : Bool) (rest : List Byte) :
    golDecode q (0x00#8 :: bitByte x1 :: bitByte x0 :: rest) =
      (golDecode none rest).before (BitVec.ofNat 8 (4 * q.getD 0 + (2 * x1.toNat + x0.toNat))) := by
  conv_lhs => unfold golDecode
  simp only [golRemainder, byteBit_bitByte]
  rfl

/-- Everything a non-empty stream can be: a byte that is no bit, a one, a zero with two bit bytes, or a
zero without them. -/
theorem golDecode_cases (q : Option Nat) (b : Byte) (rest : List Byte) :
    golDecode q (b :: rest) = .malformed ∨
    (b = 0x01#8 ∧ q.getD 0 + 1 ≤ 63) ∨
    (b = 0x00#8 ∧ ∃ x1 x0 rest', rest = bitByte x1 :: bitByte x0 :: rest') := by
  by_cases h0 : b = 0x00#8
  · subst h0
    match rest with
    | r1 :: r0 :: rest' =>
      cases h1 : byteBit r1 with
      | none => exact .inl (by unfold golDecode; simp [byteBit, golRemainder] at h1 ⊢; simp [h1])
      | some x1 =>
        cases h2 : byteBit r0 with
        | none => exact .inl (by unfold golDecode; simp only [golRemainder, h1, h2]; rfl)
        | some x0 =>
          exact .inr (.inr ⟨rfl, x1, x0, rest', by
            rw [(byteBit_eq_some r1 x1).1 h1, (byteBit_eq_some r0 x0).1 h2]⟩)
    | [] => exact .inl (by unfold golDecode; rfl)
    | [_] => exact .inl (by unfold golDecode; rfl)
  · by_cases h1 : b = 0x01#8
    · subst h1
      by_cases hq : q.getD 0 + 1 > 63
      · exact .inl (by rw [golDecode_one, if_pos hq])
      · exact .inr (.inl ⟨rfl, by omega⟩)
    · exact .inl (by unfold golDecode; simp [byteBit, h0, h1])

end Sys2Proof.Machine
end

