-- ==== Sys2Proof/Laws/Huffman.lean ====
section
/-! SUPPORT. The laws of the Huffman codec's parts: the frequency table, the queue, the stream. -/

namespace Sys2Proof.Machine

@[simp] theorem ftCount_length (ft : List (BitVec Config.countW)) (b : Byte) : (ftCount ft b).length = ft.length := by
  simp [ftCount]

@[simp] theorem buildFT_length (xs : List Byte) : (buildFT xs).length = 256 := by
  have h : ∀ ft : List (BitVec Config.countW), (xs.foldl ftCount ft).length = ft.length := by
    induction xs with
    | nil => intro ft; rfl
    | cons x xs ih => intro ft; simp [ih]
  rw [buildFT, h]
  simp [ftClear]

@[simp] theorem codeTableOf_length (root : HuffTree) : (codeTableOf root).length = 256 := by simp [codeTableOf]

/-- The keys are compared by a strict order. -/
theorem keyLess_irrefl (a : HuffTree) : keyLess a a = false := by simp [keyLess]

theorem keyLess_trans_false (a b c : HuffTree) (h1 : keyLess a b = false) (h2 : keyLess b c = false) :
    keyLess a c = false := by
  simp [keyLess] at *
  omega

theorem keyLess_asymm (a b : HuffTree) (h : keyLess a b = true) : keyLess b a = false := by
  simp [keyLess] at *
  omega

/-- The order of the keys that the merge tests is the one the claims are stated with. -/
theorem keyLess_eq_false_iff (x a : HuffTree) : keyLess x a = false ↔ keyAtMost a x := by
  simp [keyLess, keyAtMost]
  omega

/-- Q is a set: the merge does not depend on the order of the list that stands for it. -/
theorem MergesTo.perm {next : Nat} {q q' : List HuffTree} {t : HuffTree} (h : MergesTo next q t) (hp : q.Perm q') :
    MergesTo next q' t := by
  cases h with
  | root => exact List.singleton_perm.1 hp ▸ .root next t
  | merge hq ha hb hm => exact .merge (hp.symm.trans hq) (fun x hx => ha x (hp.mem_iff.2 hx)) hb hm

/-- Removing an element leaves one element less. -/
@[simp] theorem popLeast_length (a : HuffTree) (q : List HuffTree) : (popLeast a q).2.length = q.length := by
  induction q generalizing a with
  | nil => rfl
  | cons b q ih =>
    unfold popLeast
    split
    · simp [ih b]
    · simp [ih a]

@[simp] theorem huffLeaves_length (k : Nat) (t : List (Byte × Nat)) : (huffLeaves k t).length = t.length := by
  induction t generalizing k with
  | nil => rfl
  | cons p t ih => simp [huffLeaves, ih]

/-- The table pairs of a stream take two bytes each. -/
@[simp] theorem hufPairs_length (t : List (Byte × Nat)) : (hufPairs t).length = 2 * t.length := by
  induction t with
  | nil => rfl
  | cons p t ih =>
    simp only [hufPairs, List.length_cons, ih]
    omega

@[simp] theorem sortTable_length (t : List (Byte × Nat)) : (sortTable t).length = t.length :=
  (List.perm_insertionSort _ _).length_eq

/-! ### Sizes -/

/-- A path to a leaf is shorter than the tree is large. -/
theorem walkCodes_length (t : HuffTree) (p : Bits) : ∀ c ∈ walkCodes t p, c.2.length < p.length + t.size := by
  induction t generalizing p with
  | leaf s f k => simp [walkCodes, HuffTree.size]
  | node f k l r hl hr =>
    intro c hc
    simp only [walkCodes, List.mem_append] at hc
    simp only [HuffTree.size]
    rcases hc with hc | hc
    · have := hl _ c hc
      simp at this
      omega
    · have := hr _ c hc
      simp at this
      omega

theorem codesOf_length (t : HuffTree) : ∀ c ∈ codesOf t, c.2.length ≤ t.size := by
  cases t with
  | leaf s f k => simp [codesOf, HuffTree.size]
  | node f k l r =>
    intro c hc
    have := walkCodes_length _ _ c hc
    simp at this
    omega

/-- A code of the table is no longer than the tree is large. -/
theorem codeGet_length (root : HuffTree) (b : Byte) : (codeGet (codeTableOf root) b).length ≤ root.size := by
  have hb : b.toNat < Config.alphabetSize := b.isLt
  have e : codeGet (codeTableOf root) b = ((codesOf root).lookup b).getD [] := by
    simp [codeGet, codeTableOf, List.getD_eq_getElem?_getD, hb]
  rw [e]
  cases h : (codesOf root).lookup b with
  | none => simp
  | some c =>
    obtain ⟨l1, l2, hl, _⟩ := List.lookup_eq_some_iff.1 h
    exact codesOf_length root (b, c) (by rw [hl]; simp)

theorem encodeBits_length (root : HuffTree) (xs : List Byte) :
    (encodeBits (codeTableOf root) xs).length ≤ xs.length * root.size := by
  induction xs with
  | nil => simp [encodeBits]
  | cons x xs ih =>
    simp only [encodeBits, List.length_append, List.length_cons, Nat.succ_mul]
    have := codeGet_length root x
    omega

/-- What a queue becomes is at most as large as its trees and the merges. -/
theorem mergeLoop_size (fuel next : Nat) (q : List HuffTree) (root : HuffTree) (h : mergeLoop fuel next q = some root) :
    root.size + 1 ≤ (q.map (fun t => t.size + 1)).sum := by
  have pop : ∀ (a : HuffTree) (q : List HuffTree),
      (popLeast a q).1.size + 1 + ((popLeast a q).2.map (fun t => t.size + 1)).sum =
        a.size + 1 + (q.map (fun t => t.size + 1)).sum := by
    intro a q
    induction q generalizing a with
    | nil => rfl
    | cons b q ih =>
      unfold popLeast
      split
      · have := ih b
        simp only [List.map_cons, List.sum_cons] at *
        omega
      · have := ih a
        simp only [List.map_cons, List.sum_cons] at *
        omega
  induction fuel generalizing next q with
  | zero =>
    match q, h with
    | [t], h => cases h; simp
  | succ fuel ih =>
    match q, h with
    | [t], h => cases h; simp
    | q0 :: q1 :: q, h =>
      unfold mergeLoop at h
      have h1 := pop q0 (q1 :: q)
      split at h
      · rename_i a heq
        cases h
        rw [heq] at h1
        simp only [List.map_cons, List.sum_cons, List.map_nil, List.sum_nil] at *
        omega
      · rename_i a r0 r heq
        rw [heq] at h1
        have h2 := pop r0 r
        have h3 := ih _ _ h
        simp only [List.map_cons, List.sum_cons, HuffTree.size] at *
        omega

/-- The tree of a table has fewer nodes than twice its symbols. -/
theorem buildTree_size (t : List (Byte × Nat)) (root : HuffTree) (h : buildTree t = some root) :
    root.size < 2 * t.length := by
  have leaves : ∀ k, ((huffLeaves k t).map (fun x => x.size + 1)).sum = 2 * t.length := by
    clear h
    induction t with
    | nil => intro k; rfl
    | cons p t ih =>
      intro k
      simp only [huffLeaves, List.map_cons, List.sum_cons, HuffTree.size, List.length_cons, ih]
      omega
  have := mergeLoop_size _ _ _ _ h
  rw [leaves] at this
  omega

theorem ftTable_length (ft : List (BitVec Config.countW)) : (ftTable ft).length ≤ 256 := by
  simp only [ftTable, ftSymbols, List.length_map]
  exact (List.length_filter_le _ _).trans (by simp)

/-- The packed bytes of a bit string. -/
theorem packMSB_length (s : Bits) : (packMSB s).1.length = (s.length + 7) / 8 := by
  have h : ∀ (n : Nat) (s : Bits), s.length = 8 * n → (packBytes s).length = n := by
    intro n
    induction n with
    | zero =>
      intro s h
      rw [List.eq_nil_of_length_eq_zero h]
      rfl
    | succ n ih =>
      intro s h
      obtain ⟨b7, s, rfl⟩ := List.exists_cons_of_length_pos (l := s) (by omega)
      simp only [List.length_cons] at h
      obtain ⟨b6, s, rfl⟩ := List.exists_cons_of_length_pos (l := s) (by omega)
      simp only [List.length_cons] at h
      obtain ⟨b5, s, rfl⟩ := List.exists_cons_of_length_pos (l := s) (by omega)
      simp only [List.length_cons] at h
      obtain ⟨b4, s, rfl⟩ := List.exists_cons_of_length_pos (l := s) (by omega)
      simp only [List.length_cons] at h
      obtain ⟨b3, s, rfl⟩ := List.exists_cons_of_length_pos (l := s) (by omega)
      simp only [List.length_cons] at h
      obtain ⟨b2, s, rfl⟩ := List.exists_cons_of_length_pos (l := s) (by omega)
      simp only [List.length_cons] at h
      obtain ⟨b1, s, rfl⟩ := List.exists_cons_of_length_pos (l := s) (by omega)
      simp only [List.length_cons] at h
      obtain ⟨b0, s, rfl⟩ := List.exists_cons_of_length_pos (l := s) (by omega)
      simp only [List.length_cons] at h
      rw [packBytes_cons, List.length_cons, ih s (by omega)]
  apply h
  simp only [List.length_append, List.length_replicate, padLen]
  omega

/-- Without guards HUF_ENC raises no error of its own. -/
theorem hufEnc_no_guard (ram : Ram) (xs : List Byte) : (hufEnc false false ram xs).err = none := by
  unfold hufEnc
  split
  · rfl
  · simp only [hufGuards, Bool.false_eq_true, false_and, if_false]
    split <;> rfl

/-- A coarse bound of HUF_ENC's output. -/
theorem hufEnc_length (ram : Ram) (xs : List Byte) (g1 g2 : Bool) :
    (hufEnc g1 g2 ram xs).out.length ≤ 514 + 512 * xs.length := by
  unfold hufEnc
  split
  · simp only [List.length_cons, List.length_nil]
    omega
  · simp only
    split
    · simp
    · split
      · simp
      · rename_i root hr
        have h1 := buildTree_size _ _ hr
        have h2 := ftTable_length (buildFT xs)
        have h3 := encodeBits_length root xs
        have h4 : xs.length * root.size ≤ xs.length * 512 := Nat.mul_le_mul_left _ (by omega)
        simp only [hufStream, List.length_cons, List.length_append, hufPairs_length]
        rw [show ((packMSB (encodeBits (codeTableOf root) xs))).1.length = _ from packMSB_length _]
        omega

/-- The walk emits at most one byte for each bit. -/
theorem decodeWalk_length (root cur : HuffTree) (bits : Bits) : (decodeWalk root cur bits).out.length ≤ bits.length := by
  induction bits generalizing cur with
  | nil =>
    unfold decodeWalk
    split <;> simp [Trace.done, Trace.malformed]
  | cons b bits ih =>
    unfold decodeWalk
    split
    · simpa [Trace.before] using ih root
    · exact (ih _).trans (by simp)

/-- The single-symbol decoder emits at most one byte for each bit. -/
theorem decodeSingle_length (s : Byte) (bits : Bits) : (decodeSingle s bits).out.length ≤ bits.length := by
  induction bits with
  | nil => simp [decodeSingle, Trace.done]
  | cons b bits ih =>
    cases b
    · simpa [decodeSingle, Trace.before] using ih
    · simp [decodeSingle, Trace.malformed]

end Sys2Proof.Machine
end

