-- ==== Sys2Proof/Laws/Lzw.lean ====
section
/-! SUPPORT. What the LZW operations do, said once: Insert, a code and its entry, and one run of the
encoder's loop up to its next code (45_lzw.md R220 to R225). -/

namespace Sys2Proof.Machine

@[simp] theorem LzwEnd.after_out {α : Type} (b : List α) (t : LzwEnd α) : (t.after b).out = b ++ t.out := rfl
@[simp] theorem LzwEnd.after_err {α : Type} (b : List α) (t : LzwEnd α) : (t.after b).err = t.err := rfl
@[simp] theorem LzwEnd.after_dict {α : Type} (b : List α) (t : LzwEnd α) : (t.after b).dict = t.dict := rfl

/-- Everything Insert can do (45_lzw.md R222). -/
theorem lzwInsert_cases (guard : Bool) (cap : Nat) (dict : List (List Byte)) (t : List Byte) :
    (guard = true ∧ dict.length = 65536 ∧ lzwInsert guard cap dict t = .error .unsupportedInput) ∨
    (¬ (guard = true ∧ dict.length = 65536) ∧ dict.length = cap ∧
      lzwInsert guard cap dict t = .error .capacityExceeded) ∨
    (¬ (guard = true ∧ dict.length = 65536) ∧ dict.length ≠ cap ∧
      lzwInsert guard cap dict t = .ok (dict ++ [t])) := by
  unfold lzwInsert
  by_cases h : guard = true ∧ dict.length = Config.lzwCodeLimit
  · exact .inl ⟨h.1, h.2, if_pos h⟩
  · by_cases hc : dict.length = cap
    · exact .inr (.inl ⟨h, hc, by rw [if_neg h, if_pos hc]⟩)
    · exact .inr (.inr ⟨h, hc, by rw [if_neg h, if_neg hc]⟩)

/-- The initial dictionary has the 256 single bytes (45_lzw.md R220). -/
@[simp] theorem lzwInit_length : lzwInit.length = 256 := by simp [lzwInit]

theorem lzwInit_getElem? (k : Nat) (h : k < 256) : lzwInit[k]? = some [BitVec.ofNat 8 k] := by
  simp [lzwInit, h]

theorem single_mem_lzwInit (b : Byte) : [b] ∈ lzwInit :=
  List.mem_map.2 ⟨b.toNat, List.mem_range.2 b.isLt, by simp⟩

theorem nil_not_mem_lzwInit : [] ∉ lzwInit := by simp [lzwInit]

theorem lzwInit_nodup : lzwInit.Nodup := by
  refine List.Nodup.map_on (fun x hx y hy h => ?_) List.nodup_range
  have hx := List.mem_range.1 hx
  have hy := List.mem_range.1 hy
  have := congrArg BitVec.toNat (List.singleton_inj.1 h)
  simpa [Nat.mod_eq_of_lt hx, Nat.mod_eq_of_lt hy] using this

/-- The code of a sequence in the dictionary is an index where it stands. -/
theorem lzwCode_spec (dict : List (List Byte)) (w : List Byte) (h : w ∈ dict) :
    lzwCode dict w < dict.length ∧ dict[lzwCode dict w]? = some w := by
  have hl : dict.idxOf w < dict.length := List.idxOf_lt_length_iff.2 h
  exact ⟨hl, by rw [lzwCode, List.getElem?_eq_getElem hl, List.getElem_idxOf]⟩

/-- The encoder's loop up to its next code: it extends `w` by `ext` within the dictionary, and then
either the input ends and the code is the flush, or the next byte leaves the dictionary and the
extended sequence is inserted (45_lzw.md R223). -/
theorem lzwCodes_run (guard : Bool) (cap : Nat) (w : List Byte) (dict : List (List Byte)) (xs : List Byte)
    (hw : w ≠ []) (hm : w ∈ dict) :
    ∃ ext rest, xs = ext ++ rest ∧ w ++ ext ∈ dict ∧
      ((rest = [] ∧ lzwCodes guard cap w dict xs = ⟨[lzwCode dict (w ++ ext)], none, dict⟩) ∨
        ∃ c rest', rest = c :: rest' ∧ w ++ ext ++ [c] ∉ dict ∧
          lzwCodes guard cap w dict xs =
            match lzwInsert guard cap dict (w ++ ext ++ [c]) with
            | .error e => ⟨[lzwCode dict (w ++ ext)], some e, dict⟩
            | .ok dict' => (lzwCodes guard cap [c] dict' rest').after [lzwCode dict (w ++ ext)]) := by
  induction xs generalizing w with
  | nil => exact ⟨[], [], rfl, by simpa using hm, .inl ⟨rfl, by simp [lzwCodes, hw]⟩⟩
  | cons c xs ih =>
    by_cases h : w ++ [c] ∈ dict
    · obtain ⟨ext, rest, hx, hd, ht⟩ := ih (w ++ [c]) (by simp) h
      refine ⟨c :: ext, rest, by simp [hx], by simpa using hd, ?_⟩
      have he : lzwCodes guard cap w dict (c :: xs) = lzwCodes guard cap (w ++ [c]) dict xs := by
        conv_lhs => unfold lzwCodes
        rw [if_pos h]
      rw [he]
      simpa using ht
    · refine ⟨[], c :: xs, rfl, by simpa using hm, .inr ⟨c, xs, rfl, by simpa using h, ?_⟩⟩
      conv_lhs => unfold lzwCodes
      rw [if_neg h]
      simp only [List.append_nil]
      all_goals rfl

/-- The first byte of an input only extends the empty sequence. -/
theorem lzwCodes_start (guard : Bool) (cap : Nat) (c : Byte) (xs : List Byte) :
    lzwCodes guard cap [] lzwInit (c :: xs) = lzwCodes guard cap [c] lzwInit xs := by
  conv_lhs => unfold lzwCodes
  rw [if_pos (by simpa using single_mem_lzwInit c)]
  simp

@[simp] theorem lzwStream_eq (ks : List Nat) : lzwStream ks = ks.flatMap be16 := by
  induction ks with
  | nil => rfl
  | cons k ks ih => simp [lzwStream, ih]

/-- The decoder on its first code (45_lzw.md R224). -/
theorem lzwDecodeCodes_cons (guard : Bool) (cap : Nat) (k : Nat) (ks : List Nat) :
    lzwDecodeCodes guard cap (k :: ks) =
      if k > 255 then ⟨[], some .malformedData, lzwInit⟩
      else (lzwExpand guard cap [BitVec.ofNat 8 k] lzwInit ks).after [BitVec.ofNat 8 k] := rfl

/-- The decoder's loop on its next code (45_lzw.md R224). -/
theorem lzwExpand_cons (guard : Bool) (cap : Nat) (w : List Byte) (dict : List (List Byte)) (k : Nat) (ks : List Nat) :
    lzwExpand guard cap w dict (k :: ks) =
      match lzwEntry dict w k with
      | none => ⟨[], some .malformedData, dict⟩
      | some e =>
        match lzwInsert guard cap dict (w ++ e.take 1) with
        | .error err => ⟨e, some err, dict⟩
        | .ok dict' => (lzwExpand guard cap e dict' ks).after e := rfl

end Sys2Proof.Machine
end

