-- ==== Sys2Proof/Laws/PerInstr.lean ====
section
/-! SUPPORT. The family of laws about each instruction as syntax: its encoding carries its CODEC and its
DIR in the fields 30_encoding.md R80 gives them. -/

namespace Sys2Proof.Laws.EncodingFields

/-- The fields of an instruction's encoding are its codec's number and its direction's bit. -/
def Statement (i : Instr) : Prop :=
  i.wf = true ∧ opCodecField (encode i) = encodeCodec i.codec ∧ (encode i).extractLsb' 0 1 = encodeDir i.dir

theorem rleEnc : Statement .rleEnc := ⟨rfl, rfl, rfl⟩
theorem rleDec : Statement .rleDec := ⟨rfl, rfl, rfl⟩
theorem hufEnc : Statement .hufEnc := ⟨rfl, rfl, rfl⟩
theorem hufDec : Statement .hufDec := ⟨rfl, rfl, rfl⟩
theorem golEnc : Statement .golEnc := ⟨rfl, rfl, rfl⟩
theorem golDec : Statement .golDec := ⟨rfl, rfl, rfl⟩
theorem lzwEnc : Statement .lzwEnc := ⟨rfl, rfl, rfl⟩
theorem lzwDec : Statement .lzwDec := ⟨rfl, rfl, rfl⟩
theorem reserved8 : Statement .reserved8 := ⟨rfl, rfl, rfl⟩
theorem reserved9 : Statement .reserved9 := ⟨rfl, rfl, rfl⟩
theorem reservedA : Statement .reservedA := ⟨rfl, rfl, rfl⟩
theorem reservedB : Statement .reservedB := ⟨rfl, rfl, rfl⟩
theorem reservedC : Statement .reservedC := ⟨rfl, rfl, rfl⟩
theorem reservedD : Statement .reservedD := ⟨rfl, rfl, rfl⟩
theorem reservedE : Statement .reservedE := ⟨rfl, rfl, rfl⟩
theorem reservedF : Statement .reservedF := ⟨rfl, rfl, rfl⟩

end Sys2Proof.Laws.EncodingFields
end

