-- ==== Sys2Proof/Laws/Rle.lean ====
section
/-! SUPPORT. The laws of the run-length codec's loops. -/

namespace Sys2Proof.Machine

/-- The run goes on. -/
theorem rleRun_same (v : Byte) (r : Nat) (xs : List Byte) (h : r < 255) :
    rleRun v r (v :: xs) = rleRun v (r + 1) xs := by
  conv_lhs => unfold rleRun
  rw [if_pos ⟨rfl, h⟩]

/-- The run ends: at its full length, or before another byte. -/
theorem rleRun_end (v x : Byte) (r : Nat) (xs : List Byte) (h : r = 255 ∨ x ≠ v) :
    rleRun v r (x :: xs) = v :: BitVec.ofNat 8 r :: rleRun x 1 xs := by
  conv_lhs => unfold rleRun
  rw [if_neg]
  rintro ⟨hx, hr⟩
  rcases h with h | h
  · exact absurd hr (by simp [h])
  · exact h hx

/-- Every pair takes two bytes, so the output has an even length. -/
theorem rleRun_length_even (v : Byte) (r : Nat) (xs : List Byte) : (rleRun v r xs).length % 2 = 0 := by
  induction xs generalizing v r with
  | nil => simp [rleRun]
  | cons x xs ih =>
    unfold rleRun
    split
    · exact ih _ _
    · simp only [List.length_cons]
      have := ih x 1
      omega

/-- One pair expands to its run, and the rest follows. -/
@[simp] theorem rleExpand_pair (v c : Byte) (xs : List Byte) :
    rleExpand (v :: c :: xs) = List.replicate c.toNat v ++ rleExpand xs := rfl

end Sys2Proof.Machine
end

