-- ==== Sys2Proof/Tests/Slice0.lean ====
section
/-! SUPPORT. Tests of one step on small states, with expected results from the spec (the vector's label
of 95_test_vectors.md, or the rule), the words of the encoding, the refused ill-formed accesses, and a
witness for the hypotheses of each obligation. -/

open Sys2Proof Sys2Proof.Machine Sys2Proof.Claims

namespace Sys2Proof.Tests

set_option Elab.async false

/-- An IDLE core with input bytes loaded, IN_CAP 600 and the given OUT_CAP. -/
def loaded (outCap : Nat) (xs : List Byte) : State :=
  { State.reset with
    inCap := 600#32
    outCap := BitVec.ofNat 32 outCap
    lzwDictCap := 65536
    inMem := Memory.writeAll [] 0 xs
    inLen := BitVec.ofNat 32 xs.length }

/-- A core whose next step is the completion step of a command on those bytes. -/
def ready (i : Instr) (cfg : BitVec 3) (outCap : Nat) (xs : List Byte) : State :=
  { ({ loaded outCap xs with cmd := encode i, config := cfg } : State).latch with delay := 0 }

/-- The same, with two host actions still to come. -/
def waiting (i : Instr) (xs : List Byte) (p : List HostStmt) : State := { ready i 0#3 600 xs with delay := 2, host := p }

/-- An IDLE core and a host program. -/
def hosted (xs : List Byte) (p : List HostStmt) : State := { loaded 600 xs with host := p }

/-- STATUS, OUT_LEN and the specified output bytes after one step. -/
def result (s : State) : Option (Word × Nat × List Byte) :=
  match step s with
  | .next t => some (t.status, t.outLen.toNat, t.outMem.map Prod.snd)
  | .fault _ => none
  | .refused _ => none

/-- One field of the state after one step. -/
def after {α : Type} (s : State) (f : State → α) : Option α :=
  match step s with
  | .next t => some (f t)
  | .fault _ => none
  | .refused _ => none

/-- The access a step refused. -/
def refusedAccess (s : State) : Option Access :=
  match step s with
  | .next _ => none
  | .fault _ => none
  | .refused (.accessOutsideInterface x) => some x
  | .refused (.notModelled _) => none

/-- What a completion records: STATUS, OUT_LEN and the output bytes. -/
def completion : Except CmdError (List Byte) → Option (Word × Nat × List Byte)
  | .ok out => some (2#32, out.length, out)
  | .error e => some (statusFailed e, 0, [])

/-- The input of a ready core is the bytes it was given. -/
theorem ready_input (i : Instr) (cfg : BitVec 3) (cap : Nat) (xs : List Byte) (h : xs.length ≤ 600) :
    (ready i cfg cap xs).input = xs :=
  input_writeAll _ xs rfl (Nat.mod_eq_of_lt (by omega))

/-- The step of a ready core records what the command's rule gives on those bytes. -/
theorem result_ready (i : Instr) (cfg : BitVec 3) (cap : Nat) (xs : List Byte) (codec : Ram → List Byte → CodecRun)
    (hx : xs.length ≤ 600) (hc : cap ≤ 600) (hi : decodeOp (encode i) = i)
    (he : exec i (ready i cfg cap xs) = .next ((ready i cfg cap xs).runCodec codec)) :
    result (ready i cfg cap xs) = completion ((codec Ram.reset xs).finish cap) := by
  have hs : step (ready i cfg cap xs) = .next ((ready i cfg cap xs).runCodec codec) := by
    rw [step_engine _ rfl, ← he]
    show exec (decodeOp (encode i)) _ = _
    rw [hi]
  have hl : (ready i cfg cap xs).inLenS.toNat = xs.length := Nat.mod_eq_of_lt (by omega)
  have ho : (ready i cfg cap xs).outCap.toNat = cap := Nat.mod_eq_of_lt (by omega)
  have hcap : (ready i cfg cap xs).inCap.toNat = 600 := rfl
  unfold result
  rw [hs]
  unfold State.runCodec
  rw [if_neg (by omega)]
  have hr : (ready i cfg cap xs).ram = Ram.reset := rfl
  simp only [ready_input i cfg cap xs hx, ho, hr]
  cases h : (codec Ram.reset xs).finish cap with
  | error e => rfl
  | ok out =>
    have hf := finish_ok h
    have hlen : out.length ≤ 600 := by
      rw [hf.1]
      omega
    have h2 : ((BitVec.ofNat 32 out.length : Word)).toNat = out.length := Nat.mod_eq_of_lt (by omega)
    have h3 : (Memory.writeAll [] 0 out).map Prod.snd = out := Memory.writeAll_bytes [] 0 out (by simp)
    simp [completion, State.complete, State.succeed, statusSucceeded, h2, h3]

/-- The 256 byte values in order. -/
def allBytes : List Byte := (List.range 256).map (BitVec.ofNat 8)

theorem mem_allBytes (b : Byte) : b ∈ allBytes := by
  have hb := b.isLt
  simp only [allBytes, List.mem_map, List.mem_range]
  exact ⟨b.toNat, by omega, by simp⟩

/-- 256 times 0x61. -/
def many : List Byte := List.replicate 256 0x61

theorem many_length : many.length = 256 := by decide +kernel

/-- HUF_ENC without guards succeeds on up to 600 bytes where OUT_CAP is large. -/
theorem hufEnc_succeeds (xs : List Byte) (h : xs.length ≤ 600) :
    ∃ t, exec .hufEnc (ready .hufEnc 0 400000 xs) = .next t ∧ t.status = 0x00000002#32 := by
  have hl : (ready .hufEnc 0 400000 xs).inLenS.toNat = xs.length := Nat.mod_eq_of_lt (by omega)
  have hcap : (ready .hufEnc 0 400000 xs).inCap.toNat = 600 := rfl
  have hout : (ready .hufEnc 0 400000 xs).outCap.toNat = 400000 := rfl
  have hlen := hufEnc_length (ready .hufEnc 0 400000 xs).ram (ready .hufEnc 0 400000 xs).input false false
  rw [input_length, hl] at hlen
  have h := (runCodec_succeeds (ready .hufEnc 0 400000 xs) (hufEnc false false) (by omega)
    (hufEnc_no_guard _ _) (by omega)).1.status
  refine ⟨(ready .hufEnc 0 400000 xs).runCodec (hufEnc false false), ?_, h⟩
  have g1 : (ready .hufEnc 0 400000 xs).guardHufTable = false := by
    show (0 : BitVec 3).getLsbD 1 = false
    decide
  have g2 : (ready .hufEnc 0 400000 xs).guardHufCount = false := by
    show (0 : BitVec 3).getLsbD 0 = false
    decide
  show Host.Outcome.next _ = _
  rw [g1, g2]

/-- "aaabbbbcc". -/
def abc : List Byte := [0x61, 0x61, 0x61, 0x62, 0x62, 0x62, 0x62, 0x63, 0x63]

/-! ### The encoding (30_encoding.md R80 to R83) -/

/-- CODEC in bits 3 to 1, DIR in bit 0. -/
theorem test_words_decode :
    decodeTableWord 8 0b0000 = some .rleEnc ∧ decodeTableWord 8 0b0001 = some .rleDec ∧
    decodeTableWord 8 0b0010 = some .hufEnc ∧ decodeTableWord 8 0b0011 = some .hufDec ∧
    decodeTableWord 8 0b0100 = some .golEnc ∧ decodeTableWord 8 0b0101 = some .golDec ∧
    decodeTableWord 8 0b0110 = some .lzwEnc ∧ decodeTableWord 8 0b0111 = some .lzwDec ∧
    decodeTableWord 8 0b1000 = some .reserved8 ∧ decodeTableWord 8 0b1001 = some .reserved9 ∧
    decodeTableWord 8 0b1010 = some .reservedA ∧ decodeTableWord 8 0b1011 = some .reservedB ∧
    decodeTableWord 8 0b1100 = some .reservedC ∧ decodeTableWord 8 0b1101 = some .reservedD ∧
    decodeTableWord 8 0b1110 = some .reservedE ∧ decodeTableWord 8 0b1111 = some .reservedF := by decide

/-- R80: bits [31:4] are not part of the command, and a 4-bit word is enough. -/
theorem test_upper_bits_are_not_the_command :
    decodeCmd 0xFFFFFFF7#32 = .lzwDec ∧ decodeTableWord 4 0x3 = some .hufDec ∧ decodeTableWord 0 0x3 = none := by decide

/-- R81: the misspelt literal is the source's, matching is case-sensitive, and the legacy transform has
no defined command. -/
theorem test_source_names :
    commandOfName "Golomb code alggorithm" .compress = some .golEnc ∧
    commandOfName "golomb code alggorithm" .compress = none ∧
    commandOfName "Lempel-Ziv-Welch Algorithm" .decompress = some .lzwDec ∧
    commandOfName "Arithmetic Algorithm" .compress = none := by decide

/-- R90, the beginning of `RUN HUF_ENC`, and PRG1's form of a buffer access. -/
theorem test_host_lines :
    (HostAction.regWrite 0x00 0x00000002#32).line = "W REG 0x00 00000002".toList ∧
    (HostAction.regWrite 0x04 0x00000001#32).line = "W REG 0x04 00000001".toList ∧
    (HostAction.regRead 0x14).line = "R REG 0x14 --".toList ∧
    (HostAction.inWrite 0x08 0xFC#8).line = "W IN  0x08 FC".toList ∧
    (HostAction.outRead 0x09).line = "R OUT 0x09 --".toList := by decide +kernel

/-- R89: the expansion of `LOAD 0x41, 0x42` and of `RUN RLE_DEC`. -/
theorem test_pseudo_statements :
    HostScript.load [0x41, 0x42] =
      [.act (.inWrite 0 0x41#8), .act (.inWrite 1 0x42#8), .act (.regWrite 0x10 2#32)] ∧
    HostScript.run .rleDec = [.act (.regWrite 0x00 1#32), .act (.regWrite 0x04 1#32), .poll] := by decide

/-! ### Ill-formed accesses are refused (20_memory.md R60, R61) -/

def byteOfReg : Access := ⟨false, .reg, 8, 0x08, 0⟩
def halfOfIn : Access := ⟨true, .inBuf, 16, 0, 0x4142⟩
def wideData : Access := ⟨true, .inBuf, 8, 0, 256⟩
def writeToOut : Access := ⟨true, .outBuf, 8, 0, 1⟩

theorem test_ill_formed_accesses :
    (byteOfReg.wf = false ∧ byteOfReg.decode = none) ∧ (halfOfIn.wf = false ∧ halfOfIn.decode = none) ∧
    (wideData.wf = false ∧ wideData.decode = none) ∧ (writeToOut.wf = false ∧ writeToOut.decode = none) := by decide

theorem test_ill_formed_accesses_are_refused :
    refusedAccess (hosted [] [.raw byteOfReg]) = some byteOfReg ∧
    refusedAccess (hosted [] [.raw halfOfIn]) = some halfOfIn ∧
    refusedAccess (hosted [] [.raw wideData]) = some wideData ∧
    refusedAccess (hosted [] [.raw writeToOut]) = some writeToOut := by decide +kernel

/-- A misaligned REG offset is an unmapped offset, not a refused one. -/
theorem test_misaligned_offset_reads_zero :
    after (hosted [] [.raw ⟨false, .reg, 32, 0x12, 0⟩]) State.responses = some [.word 0#32] := by decide +kernel

/-! ### The commands, one step each -/

/-- RLE5: 256 equal bytes are two pairs. -/
theorem test_rleEnc_splits_at_255 :
    result (ready .rleEnc 0 600 (List.replicate 256 0x07)) = some (2#32, 4, [0x07, 0xFF, 0x07, 0x01]) := by
  rw [result_ready _ _ _ _ rleEnc (by decide +kernel) (by decide) rfl rfl]
  decide +kernel

/-- RLE11: one byte too many for OUT_CAP = 3. -/
theorem test_rleEnc_overflow : result (ready .rleEnc 0 3 [0x41, 0x41, 0x42]) = some (0x406#32, 0, []) := by
  rw [result_ready _ _ _ _ rleEnc (by decide +kernel) (by decide) rfl rfl]
  decide +kernel

/-- RLE7: a count of 0. -/
theorem test_rleDec_count_zero :
    result (ready .rleDec 0 600 [0x41, 0x03, 0x42, 0x00, 0x43, 0x01]) = some (2#32, 4, [0x41, 0x41, 0x41, 0x43]) := by
  rw [result_ready _ _ _ _ rleDec (by decide +kernel) (by decide) rfl rfl]
  decide +kernel

/-- RLE12: the odd length is found before the output overflows. -/
theorem test_rleDec_odd_first : result (ready .rleDec 0 1 [0x41, 0xFF, 0x42]) = some (0x206#32, 0, []) := by
  rw [result_ready _ _ _ _ rleDec (by decide +kernel) (by decide) rfl rfl]
  decide +kernel

/-- HUF9, "abracadabra". -/
theorem test_hufEnc_abracadabra :
    result (ready .hufEnc 0 600 [0x61, 0x62, 0x72, 0x61, 0x63, 0x61, 0x64, 0x61, 0x62, 0x72, 0x61]) =
      some (2#32, 15, [0x01, 0x05, 0x61, 0x05, 0x62, 0x02, 0x63, 0x01, 0x64, 0x01, 0x72, 0x02, 0x6E, 0x8A, 0xDC]) := by
  rw [result_ready _ _ _ _ (hufEnc false false) (by decide +kernel) (by decide) rfl rfl]
  decide +kernel

/-- HUF21: the guard comes before any Emit. -/
theorem test_hufEnc_guard_first :
    result (ready .hufEnc 1 1 (List.replicate 256 0x61 ++ [0x62])) = some (0x306#32, 0, []) := by
  rw [result_ready _ _ _ _ (hufEnc false true) (by decide +kernel) (by decide) rfl rfl]
  decide +kernel

/-- HUF11: pairs out of order, the tree from the sorted table. -/
theorem test_hufDec_sorts_the_table :
    result (ready .hufDec 0 600 [0x00, 0x02, 0x62, 0x01, 0x61, 0x01, 0x40]) =
      some (2#32, 8, [0x61, 0x62, 0x61, 0x61, 0x61, 0x61, 0x61, 0x61]) := by
  rw [result_ready _ _ _ _ hufDec (by decide +kernel) (by decide) rfl rfl]
  decide +kernel

/-- HUF13: seven bits that end inside a codeword. -/
theorem test_hufDec_incomplete_codeword :
    result (ready .hufDec 0 600 [0x01, 0x03, 0x61, 0x03, 0x62, 0x04, 0x63, 0x02, 0xFE]) = some (0x206#32, 0, []) := by
  rw [result_ready _ _ _ _ hufDec (by decide +kernel) (by decide) rfl rfl]
  decide +kernel

/-- GOL5: 0x2A has quotient 10 and remainder 2. -/
theorem test_golEnc_2A :
    result (ready .golEnc 0 600 [0x2A]) = some (2#32, 13, List.replicate 10 0x01 ++ [0x00, 0x01, 0x00]) := by
  rw [result_ready _ _ _ _ golEnc (by decide +kernel) (by decide) rfl rfl]
  decide +kernel

/-- GOL11: the largest quotient. -/
theorem test_golDec_FF :
    result (ready .golDec 0 600 (List.replicate 63 0x01 ++ [0x00, 0x01, 0x01])) = some (2#32, 1, [0xFF]) := by
  rw [result_ready _ _ _ _ golDec (by decide +kernel) (by decide) rfl rfl]
  decide +kernel

/-- GOL15: a quotient above 63. -/
theorem test_golDec_quotient_64 :
    result (ready .golDec 0 600 (List.replicate 64 0x01 ++ [0x00, 0x00, 0x00])) = some (0x206#32, 0, []) := by
  rw [result_ready _ _ _ _ golDec (by decide +kernel) (by decide) rfl rfl]
  decide +kernel

/-- LZW5, "ABABABA": codes 65, 66, 256, 258. -/
theorem test_lzwEnc_ABABABA :
    result (ready .lzwEnc 0 600 [0x41, 0x42, 0x41, 0x42, 0x41, 0x42, 0x41]) =
      some (2#32, 8, [0x00, 0x41, 0x00, 0x42, 0x01, 0x00, 0x01, 0x02]) := by
  rw [result_ready _ _ _ _ (lzwEnc false 65536) (by decide +kernel) (by decide) rfl rfl]
  decide +kernel

/-- LZW8: code 257 is the next code after 256 = "AB" is inserted. -/
theorem test_lzwDec_next_code :
    result (ready .lzwDec 0 600 [0x00, 0x41, 0x00, 0x42, 0x01, 0x01]) = some (2#32, 4, [0x41, 0x42, 0x42, 0x42]) := by
  rw [result_ready _ _ _ _ (lzwDec false 65536) (by decide +kernel) (by decide) rfl rfl]
  decide +kernel

/-- LZW11: code 257 is above the next code. -/
theorem test_lzwDec_undefined_code :
    result (ready .lzwDec 0 600 [0x00, 0x41, 0x01, 0x01]) = some (0x206#32, 0, []) := by
  rw [result_ready _ _ _ _ (lzwDec false 65536) (by decide +kernel) (by decide) rfl rfl]
  decide +kernel

/-- DSP1: every reserved command, and the output of an earlier command stays (OUT_MEM unchanged). -/
theorem test_reserved_commands :
    ∀ i ∈ reservedCommands,
      result ({ ready i 7 600 [0x41] with outMem := [(0, 0x55#8)] } : State) = some (0x106#32, 0, [0x55]) := by decide +kernel

/-- DSP2: IN_LEN = IN_CAP + 1. -/
theorem test_input_above_capacity :
    result ({ ready .rleEnc 0 600 [] with inLenS := 601#32, outMem := [(0, 0x55#8)] } : State) =
      some (0x406#32, 0, [0x55]) := by decide +kernel

/-! ### The host's actions, one step each -/

/-- DSP5: CMD and CONFIG keep the bits they implement. -/
theorem test_register_masks :
    after (hosted [] [.act (.regWrite 0x00 0xFFFFFFFF#32)]) (·.regRead 0x00) = some 0x0000000F#32 ∧
    after (hosted [] [.act (.regWrite 0x0C 0xFFFFFFFF#32)]) (·.regRead 0x0C) = some 0x00000007#32 := by decide +kernel

/-- R101 and DSP9: an accepted START; STATUS reads BUSY alone, CTRL reads 0. -/
theorem test_start :
    after (hosted [0x41] [.act (.regWrite 0x04 1#32)]) (fun t => (t.regRead 0x08, t.regRead 0x04, t.phase)) =
      some (1#32, 0#32, .busy) := by decide +kernel

/-- DSP8: CTRL with bit 0 clear. -/
theorem test_no_start :
    after (hosted [0x41] [.act (.regWrite 0x04 2#32)]) (fun t => (t.status, t.phase)) = some (0#32, .idle) := by
  decide +kernel

/-- DSP10: writes while BUSY are ignored. -/
theorem test_busy_writes :
    after (waiting .rleEnc [0x41] [.act (.regWrite 0x00 7#32)]) (·.cmd) = some 0#4 ∧
    after (waiting .rleEnc [0x41] [.act (.inWrite 0 0x55)]) (·.inMem) = some [(0, 0x41)] := by decide +kernel

/-- DSP13: accesses at the capacity. -/
theorem test_accesses_at_capacity :
    after (hosted [] [.act (.inRead 600)]) State.responses = some [.byte 0] ∧
    after (hosted [] [.act (.inWrite 600 5)]) (·.inMem) = some [] ∧
    after (hosted [] [.act (.outRead 600)]) State.responses = some [.byte 0] := by decide +kernel

/-- A supplied delay is the one taken: the host polls before the completion (R102). -/
theorem test_supplied_delay :
    after ({ hosted [] [.act (.regWrite 0x04 1#32), .poll] with delays := [3] } : State) (fun t => (t.delay, t.delays)) =
      some (3, []) := by decide +kernel

/-! ### Witnesses: a concrete state and operands that meet the hypotheses of each obligation

A statement with several clauses has one conjunct for each. A hypothesis `exec i s = .next t` holds by
definition for the `t` given. -/

theorem witness_DecodeAndEncodeAgree : Instr.wf .reservedF = true := rfl

theorem witness_StepRunsTheCommandInOpS :
    ((ready .lzwEnc 0 600 [0x41]).phase = .busy ∧ (ready .lzwEnc 0 600 [0x41]).delay = 0 ∧
      decodeOp (ready .lzwEnc 0 600 [0x41]).opS = .lzwEnc) ∧
    ((waiting .reservedF [0x41] []).phase = .busy ∧ (waiting .reservedF [0x41] []).host = [] ∧
      decodeOp (waiting .reservedF [0x41] []).opS = .reservedF) := by decide

theorem witness_StepTakesTheHostsNextStatement :
    ((hosted [] [.poll]).phase = .idle ∧ (hosted [] [.poll]).host = .poll :: []) ∧
    ((waiting .rleEnc [] [.poll]).delay ≠ 0 ∧ (waiting .rleEnc [] [.poll]).host = .poll :: []) ∧
    (State.reset.phase = .idle ∧ State.reset.host = []) := by decide

theorem witness_FetchWordIsRunByTheNextStep : 4 ≤ 4 ∧ 4 ≤ 8 := by decide

theorem witness_AcceptedStartLatchesTheSnapshot :
    (hosted [0x41] [.act (.regWrite 0x04 1#32)]).phase = .idle ∧ (1#32 : Word).getLsbD 0 = true ∧
    (hosted [0x41] [.act (.regWrite 0x04 1#32)]).host = .act (.regWrite 0x04 1#32) :: [] := by decide

theorem witness_BusyIgnoresWritesAndAnswersReads :
    (waiting .rleEnc [0x41] [.act (.regWrite 0x04 1#32)]).phase = .busy ∧
    (waiting .rleEnc [0x41] [.act (.regWrite 0x04 1#32)]).delay ≠ 0 ∧
    (waiting .rleEnc [0x41] [.act (.regWrite 0x04 1#32)]).host = .act (.regWrite 0x04 1#32) :: [] ∧
    (waiting .rleEnc [0x41] [.act (.inWrite 0 5)]).host = .act (.inWrite 0 5) :: [] ∧
    (waiting .rleEnc [0x41] [.act (.regRead 0x08)]).host = .act (.regRead 0x08) :: [] ∧
    ((599 < (waiting .rleEnc [0x41] [.act (.inRead 599)]).inCap.toNat) ∧
      (waiting .rleEnc [0x41] [.act (.inRead 599)]).host = .act (.inRead 599) :: []) := by decide

/-- Every mapped offset, one between two of them, and the first one above them. -/
theorem witness_RegisterReadsFollowTheMap :
    ∀ off ∈ [0x00, 0x04, 0x08, 0x0C, 0x10, 0x14, 0x18, 0x1C, 0x02, 0x20],
      (hosted [] [.act (.regRead off)]).phase = .idle ∧ (hosted [] [.act (.regRead off)]).host = .act (.regRead off) :: [] ∧
      (waiting .rleEnc [] [.act (.regRead off)]).delay ≠ 0 := by decide

/-- CMD, CTRL with bit 0 clear, CONFIG, IN_LEN, the read-only registers and an unmapped offset. -/
theorem witness_RegisterWritesFollowTheMap :
    ∀ off ∈ [0x00, 0x04, 0x0C, 0x10, 0x08, 0x14, 0x18, 0x1C, 0x20],
      (hosted [] [.act (.regWrite off 2#32)]).phase = .idle ∧ (off ≠ 0x04 ∨ (2#32 : Word).getLsbD 0 = false) ∧
      (hosted [] [.act (.regWrite off 2#32)]).host = .act (.regWrite off 2#32) :: [] := by decide

theorem witness_StatusFlagsFitTogether :
    StatusLegal State.reset ∧ StatusLegal (ready .rleEnc 0 600 []) ∧
    StatusLegal { State.reset with status := statusSucceeded } ∧
    ∀ e, StatusLegal { State.reset with status := statusFailed e } :=
  ⟨.fresh rfl rfl rfl, .running rfl rfl rfl, .succeeded rfl rfl (fun a => by simp [State.reset]),
    fun e => .failed e rfl rfl rfl⟩

theorem witness_InBufferAccesses :
    (∀ a ∈ [0, 599, 600], (hosted [] [.act (.inWrite a 5)]).phase = .idle ∧
      (hosted [] [.act (.inWrite a 5)]).host = .act (.inWrite a 5) :: []) ∧
    (∀ a ∈ [0, 599, 600], (hosted [] [.act (.inRead a)]).phase = .idle ∧
      (hosted [] [.act (.inRead a)]).host = .act (.inRead a) :: []) ∧
    599 < (hosted [] []).inCap.toNat ∧ (hosted [] []).inCap.toNat ≤ 600 := by decide

/-- A success whose last output byte, at address 1, the host reads back. -/
theorem witness_OutBufferReads_after_success :
    ∃ t, exec .rleEnc { ready .rleEnc 0 600 [0x41] with host := [.act (.outRead 1)] } = .next t ∧
      Succeeded { ready .rleEnc 0 600 [0x41] with host := [.act (.outRead 1)] } t [0x41, 0x01] ∧
      ([0x41, 0x01] : List Byte)[1]? = some 0x01 ∧ t.host = .act (.outRead 1) :: [] := by
  refine ⟨_, rfl, ?_, rfl, rfl⟩
  have h := runCodec_succeeds { ready .rleEnc 0 600 [0x41] with host := [.act (.outRead 1)] } rleEnc (by decide +kernel)
    (by decide +kernel) (by decide +kernel)
  have e : (rleEnc (ready .rleEnc 0 600 [0x41]).ram (ready .rleEnc 0 600 [0x41]).input).out = [0x41, 0x01] := by
    decide +kernel
  exact e ▸ h.1

/-- At the capacity; a specified byte while IDLE; no specified byte; while BUSY. -/
theorem witness_OutBufferReads :
    (hosted [] [.act (.outRead 600)]).outCap.toNat ≤ 600 ∧
    ((hosted [] [.act (.outRead 0)]).phase = .idle ∧
      ({ hosted [] [.act (.outRead 0)] with outMem := [(0, 0x55#8)] } : State).outMem.get? 0 = some 0x55#8) ∧
    (599 < (hosted [] [.act (.outRead 599)]).outCap.toNat ∧ (hosted [] [.act (.outRead 599)]).outMem.get? 599 = none) ∧
    ((waiting .rleEnc [] [.act (.outRead 0)]).phase = .busy ∧ (waiting .rleEnc [] [.act (.outRead 0)]).delay ≠ 0 ∧
      (waiting .rleEnc [] [.act (.outRead 0)]).host = .act (.outRead 0) :: []) := by decide

theorem witness_ReservedCommandsComplete : Instr.reserved8 ∈ reservedCommands ∧ Instr.reservedF ∈ reservedCommands := by
  decide

theorem witness_InputAboveCapacityIsRefusedFirst :
    Instr.rleEnc ∈ definedCommands ∧ Instr.lzwDec ∈ definedCommands ∧
    ({ ready .lzwDec 0 600 [] with inLenS := 601#32 } : State).inCap.toNat <
      ({ ready .lzwDec 0 600 [] with inLenS := 601#32 } : State).inLenS.toNat := by decide

/-- Each clause with one byte more than OUT_CAP. -/
theorem witness_OutputAboveCapacityFails :
    (inputFits (ready .rleEnc 0 1 [0x41]) ∧
      (ready .rleEnc 0 1 [0x41]).outCap.toNat < (rleBytes (ready .rleEnc 0 1 [0x41]).input).length) ∧
    (inputFits (ready .rleDec 0 1 [0x41, 0x02]) ∧
      (ready .rleDec 0 1 [0x41, 0x02]).input = [((0x41, 0x02) : Byte × Byte)].flatMap (fun p => [p.1, p.2]) ∧
      (ready .rleDec 0 1 [0x41, 0x02]).outCap.toNat < ([((0x41, 0x02) : Byte × Byte)].map (fun p => p.2.toNat)).sum) ∧
    (inputFits (ready .golEnc 0 2 [0x03]) ∧
      (ready .golEnc 0 2 [0x03]).outCap.toNat < ((ready .golEnc 0 2 [0x03]).input.flatMap golWord).length) ∧
    (inputFits (ready .golDec 0 1 [0, 0, 0, 0, 0, 1, 2]) ∧
      (ready .golDec 0 1 [0, 0, 0, 0, 0, 1, 2]).input = [(0x00 : Byte), 0x01].flatMap golWord ++ [2] ∧
      (ready .golDec 0 1 [0, 0, 0, 0, 0, 1, 2]).outCap.toNat < [(0x00 : Byte), 0x01].length) ∧
    (inputFits (ready .lzwEnc 0 1 [0x41]) ∧
      (ready .lzwEnc 0 1 [0x41]).outCap.toNat < 2 * (lzwEncEnd (ready .lzwEnc 0 1 [0x41])).out.length) ∧
    (inputFits (ready .lzwDec 0 1 [0, 0x41, 0, 0x42]) ∧
      (ready .lzwDec 0 1 [0, 0x41, 0, 0x42]).input = [0x41, 0x42].flatMap be16 ∧ (∀ k ∈ [0x41, 0x42], k < 65536) ∧
      (ready .lzwDec 0 1 [0, 0x41, 0, 0x42]).outCap.toNat < (lzwDecodeCodes false 65536 [0x41, 0x42]).out.length) := by
  decide +kernel

/-- HUF_ENC on the empty input and on "aaabbbbcc" (HUF20) with one byte less than their outputs. -/
theorem witness_OutputAboveCapacityFails_hufEnc :
    (inputFits (ready .hufEnc 0 1 []) ∧ (ready .hufEnc 0 1 []).input = [] ∧ (ready .hufEnc 0 1 []).outCap.toNat < 2) ∧
    (inputFits (ready .hufEnc 3 9 abc) ∧ (ready .hufEnc 3 9 abc).input = abc ∧ abc ≠ [] ∧
      hufUnguarded (ready .hufEnc 3 9 abc) ∧
      ∃ root, buildTree (symbolCounts abc) = some root ∧ (ready .hufEnc 3 9 abc).outCap.toNat < hufEncLength root abc) := by
  have e : (ready .hufEnc 3 9 abc).input = abc := by decide +kernel
  refine ⟨by decide +kernel, by decide, e, by decide, ?_, _, rfl, by decide +kernel⟩
  rw [hufUnguarded, e]
  exact ⟨fun _ => by decide +kernel, fun _ b => List.count_le_length.trans (by decide)⟩

/-- HUF22: the third codeword passes OUT_CAP before the incomplete one. -/
theorem witness_OutputAboveCapacityFails_hufDec :
    ∃ root rest, buildTree (sortTable (tableCounts [(0x61, 3), (0x62, 4), (0x63, 2)])) = some root ∧
      inputFits (ready .hufDec 0 2 [1, 3, 0x61, 3, 0x62, 4, 0x63, 2, 0xFE]) ∧
      (∀ y ∈ ([0x61, 0x61, 0x61] : List Byte), y ∈ ([(0x61, 3), (0x62, 4), (0x63, 2)] : List (Byte × Byte)).map Prod.fst) ∧
      validHufStream (ready .hufDec 0 2 [1, 3, 0x61, 3, 0x62, 4, 0x63, 2, 0xFE]).input
        [(0x61, 3), (0x62, 4), (0x63, 2)] (codeBits root [0x61, 0x61, 0x61] ++ rest) ∧ rest = [true] ∧
      (ready .hufDec 0 2 [1, 3, 0x61, 3, 0x62, 4, 0x63, 2, 0xFE]).outCap.toNat < ([0x61, 0x61, 0x61] : List Byte).length :=
  ⟨_, [true], rfl, by decide, by decide, ⟨1, 3, [0xFE], by decide +kernel⟩, rfl, by decide⟩

theorem witness_CompletionFrame :
    (∃ t, exec .rleEnc (ready .rleEnc 0 600 [0x41]) = .next t ∧ statusErr t.status = false) ∧
    ∃ t, exec .rleDec (ready .rleDec 0 600 [0x41]) = .next t ∧ statusErr t.status = true :=
  ⟨⟨_, rfl, by decide +kernel⟩, ⟨_, rfl, by decide +kernel⟩⟩

/-- Each of the three errors named. -/
theorem witness_ErrorsComeFromTheirCommands :
    (∃ t, exec .reserved8 (ready .reserved8 0 600 []) = .next t ∧ t.status = statusFailed .unsupportedAlgorithm) ∧
    (∃ t, exec .golDec (ready .golDec 0 600 [0x02]) = .next t ∧ t.status = statusFailed .malformedData) ∧
    ∃ t, exec .hufEnc (ready .hufEnc 1 600 many) = .next t ∧
      t.status = statusFailed .unsupportedInput := by
  refine ⟨⟨_, rfl, rfl⟩, ⟨_, rfl, by decide +kernel⟩, _, rfl, ?_⟩
  have h : hufEnc false true (ready .hufEnc 1 600 many).ram many =
      ⟨[], some .unsupportedInput, { Ram.reset with ft := buildFT many }⟩ := by
    have hne : many ≠ [] := by decide +kernel
    unfold hufEnc
    rw [if_neg hne]
    have g : hufGuards false true (buildFT many) = some .unsupportedInput := by decide +kernel
    simp only [g]
    rfl
  have e := ready_input .hufEnc 1 600 many (by rw [many_length]; decide)
  exact (runCodec_fails (ready .hufEnc 1 600 many) (hufEnc false true) .unsupportedInput
    (by decide +kernel) (by rw [e, h]) (by rw [e, h]; exact Nat.zero_le _)).status

/-- RLE_ENC with other guards, HUF_ENC with the LZW guard set, LZW_ENC with the Huffman guards set. -/
theorem witness_UnreadGuardBitsHaveNoEffect :
    (∃ t, exec .rleEnc (ready .rleEnc 0 600 [0x41]) = .next t) ∧
    ((∃ t, exec .hufEnc (ready .hufEnc 0 600 [0x41]) = .next t) ∧
      (4#3).getLsbD 0 = (ready .hufEnc 0 600 [0x41]).cfgS.getLsbD 0 ∧
      (4#3).getLsbD 1 = (ready .hufEnc 0 600 [0x41]).cfgS.getLsbD 1) ∧
    ((∃ t, exec .lzwEnc (ready .lzwEnc 0 600 [0x41]) = .next t) ∧
      (3#3).getLsbD 2 = (ready .lzwEnc 0 600 [0x41]).cfgS.getLsbD 2) :=
  ⟨⟨_, rfl⟩, ⟨⟨_, rfl⟩, by decide⟩, ⟨_, rfl⟩, by decide⟩

/-- Two states that differ in OUT_MEM, in CMD and above the input. -/
theorem witness_ResultDependsOnTheSnapshotAlone :
    (∃ t, exec .rleEnc (ready .rleEnc 0 600 [0x41]) = .next t) ∧ Instr.rleEnc ∈ definedCommands ∧
    inputFits (ready .rleEnc 0 600 [0x41]) ∧
    ∀ a, a < (ready .rleEnc 0 600 [0x41]).inLenS.toNat →
      ({ ready .rleEnc 0 600 [0x41] with outMem := [(3, 9#8)], cmd := 7#4, inMem := [(0, 0x41#8), (1, 5#8)] } : State).inByte a =
        (ready .rleEnc 0 600 [0x41]).inByte a := by
  refine ⟨⟨_, rfl⟩, by decide, by decide, ?_⟩
  intro a ha
  have h1 : (ready .rleEnc 0 600 [0x41]).inLenS.toNat = 1 := by decide
  have h0 : a = 0 := by omega
  subst h0
  rfl

theorem witness_UnpackInvertsPack : (7 < 8) ∧ ([0xA5, 0x01] : List Byte)[1]? = some 0x01 := by decide

/-- An output of exactly OUT_CAP bytes (RLE11). -/
theorem witness_RleEncCompletes :
    inputFits (ready .rleEnc 0 4 [0x41, 0x41, 0x42]) ∧
    (rleBytes (ready .rleEnc 0 4 [0x41, 0x41, 0x42]).input).length ≤ (ready .rleEnc 0 4 [0x41, 0x41, 0x42]).outCap.toNat := by
  decide +kernel

/-- A run of 1 before another byte, a run of 255 before the same byte, a run of 254 at the end. -/
theorem witness_RleEncEmitsGreedyRuns :
    (1 ≤ 1 ∧ 1 ≤ 255 ∧ ([0x42] : List Byte).head? ≠ some 0x41) ∧ (1 ≤ 255 ∧ 255 ≤ 255 ∧ 255 = 255) ∧
    (1 ≤ 254 ∧ 254 ≤ 255 ∧ ([] : List Byte).head? ≠ some 0x41) := by decide

theorem witness_RleDecCompletes :
    inputFits (ready .rleDec 0 256 [0x41, 0xFF, 0x42, 0x00, 0x43, 0x01]) ∧
    (ready .rleDec 0 256 [0x41, 0xFF, 0x42, 0x00, 0x43, 0x01]).input =
      [((0x41, 0xFF) : Byte × Byte), (0x42, 0x00), (0x43, 0x01)].flatMap (fun p => [p.1, p.2]) ∧
    ([((0x41, 0xFF) : Byte × Byte), (0x42, 0x00), (0x43, 0x01)].map (fun p => p.2.toNat)).sum ≤
      (ready .rleDec 0 256 [0x41, 0xFF, 0x42, 0x00, 0x43, 0x01]).outCap.toNat := by decide +kernel

theorem witness_RleDecRefusesOddLength :
    inputFits (ready .rleDec 0 1 [0x41]) ∧ (ready .rleDec 0 1 [0x41]).inLenS.toNat % 2 = 1 := by decide

theorem witness_RleRoundTrip :
    (inputFits (ready .rleEnc 0 600 [0x41, 0x41]) ∧ ∃ t, exec .rleEnc (ready .rleEnc 0 600 [0x41, 0x41]) = .next t ∧
      t.status ≠ statusFailed .capacityExceeded) ∧
    (ready .rleDec 0 600 [0x41, 0x02]).input = [0x41, 0x02] ∧
    ∃ v, exec .rleDec (ready .rleDec 0 600 [0x41, 0x02]) = .next v ∧ v.status ≠ statusFailed .capacityExceeded :=
  ⟨⟨by decide, _, rfl, by decide +kernel⟩, by decide +kernel, _, rfl, by decide +kernel⟩

/-- The longest and the shortest codeword, with exactly OUT_CAP bytes of output. -/
theorem witness_GolEncCompletes :
    inputFits (ready .golEnc 0 69 [0xFF, 0x00]) ∧
    ((ready .golEnc 0 69 [0xFF, 0x00]).input.map (fun v => v.toNat / 4 + 3)).sum ≤
      (ready .golEnc 0 69 [0xFF, 0x00]).outCap.toNat := by decide +kernel

theorem witness_GolDecCompletes :
    inputFits (ready .golDec 0 2 (List.replicate 63 0x01 ++ [0, 1, 1, 0, 0, 0])) ∧
    (ready .golDec 0 2 (List.replicate 63 0x01 ++ [0, 1, 1, 0, 0, 0])).input = [(0xFF : Byte), 0x00].flatMap golWord ∧
    [(0xFF : Byte), 0x00].length ≤ (ready .golDec 0 2 (List.replicate 63 0x01 ++ [0, 1, 1, 0, 0, 0])).outCap.toNat := by
  decide +kernel

/-- GOL12's byte, which is no bit, after one codeword that exactly fits OUT_CAP. -/
theorem witness_GolDecRefusesEverythingElse_after_codewords :
    inputFits (ready .golDec 0 1 [1, 0, 0, 1, 2]) ∧
    (ready .golDec 0 1 [1, 0, 0, 1, 2]).input = [(0x05 : Byte)].flatMap golWord ++ [2] ∧ ([2] : List Byte) ≠ [] ∧
    (∀ v : Byte, ¬ golWord v <+: [2]) ∧ [(0x05 : Byte)].length ≤ (ready .golDec 0 1 [1, 0, 0, 1, 2]).outCap.toNat := by
  refine ⟨by decide, by decide +kernel, by decide, fun v h => ?_, by decide⟩
  have hl := h.length_le
  simp [golWord] at hl

/-- GOL12: a byte that is no bit is the beginning of no codeword. -/
theorem witness_GolDecRefusesEverythingElse :
    inputFits (ready .golDec 0 1 [0x02]) ∧
    (ready .golDec 0 1 [0x02]).inLenS.toNat ≤ (ready .golDec 0 1 [0x02]).outCap.toNat ∧
    ¬ ∃ xs : List Byte, (ready .golDec 0 1 [0x02]).input = xs.flatMap golWord := by
  refine ⟨by decide, by decide, ?_⟩
  rintro ⟨xs, h⟩
  have e : (ready .golDec 0 1 [0x02]).input = [0x02] := by decide +kernel
  rw [e] at h
  have hl := congrArg List.length h
  cases xs with
  | nil => simp at hl
  | cons v xs =>
    simp [golWord] at hl
    omega

theorem witness_GolRoundTrip :
    (inputFits (ready .golEnc 0 600 [0x05]) ∧ ∃ t, exec .golEnc (ready .golEnc 0 600 [0x05]) = .next t ∧
      t.status ≠ statusFailed .capacityExceeded) ∧
    (ready .golDec 0 600 [1, 0, 0, 1]).input = [1, 0, 0, 1] ∧
    ∃ v, exec .golDec (ready .golDec 0 600 [1, 0, 0, 1]) = .next v ∧ v.status ≠ statusFailed .capacityExceeded :=
  ⟨⟨by decide, _, rfl, by decide +kernel⟩, by decide +kernel, _, rfl, by decide +kernel⟩

/-- The six clauses; in the first the dictionary holds 65536 entries. -/
theorem witness_LzwInsertAndEntryRules :
    (List.replicate 65536 ([] : List Byte)).length = 65536 ∧ lzwInit.length ≠ 65536 ∧ lzwInit.length = 256 ∧
    lzwInit.length ≠ 257 ∧ 255 < lzwInit.length ∧ lzwInit.length < 257 := by
  refine ⟨List.length_replicate, ?_, ?_, ?_, ?_, ?_⟩ <;> decide +kernel

/-- A success with exactly OUT_CAP bytes, a full dictionary, and the bounds with an empty input. -/
theorem witness_LzwEncCompletes :
    (inputFits (ready .lzwEnc 0 4 [0x41, 0x42]) ∧ (lzwEncEnd (ready .lzwEnc 0 4 [0x41, 0x42])).err = none ∧
      2 * (lzwEncEnd (ready .lzwEnc 0 4 [0x41, 0x42])).out.length ≤ (ready .lzwEnc 0 4 [0x41, 0x42]).outCap.toNat) ∧
    (inputFits { ready .lzwEnc 0 4 [0x41, 0x42] with lzwDictCap := 256 } ∧
      (lzwEncEnd { ready .lzwEnc 0 4 [0x41, 0x42] with lzwDictCap := 256 }).err = some .capacityExceeded ∧
      2 * (lzwEncEnd { ready .lzwEnc 0 4 [0x41, 0x42] with lzwDictCap := 256 }).out.length ≤
        (ready .lzwEnc 0 4 [0x41, 0x42]).outCap.toNat) ∧
    (inputFits (ready .lzwEnc 4 600 []) ∧
      (ready .lzwEnc 4 600 []).inLenS.toNat + 255 ≤ (ready .lzwEnc 4 600 []).lzwDictCap ∧
      (ready .lzwEnc 4 600 []).inLenS.toNat + 255 ≤ 65536) := by decide +kernel

theorem witness_LzwEncCodesSpellTheInput :
    lzwCodes false 65536 [] lzwInit [0x41, 0x41, 0x41] = ⟨[65, 256], none, lzwInit ++ [[0x41, 0x41]]⟩ ∧
    [65, 256][0]? = some 65 ∧ [65, 256][0 + 1]? = some 256 := by decide +kernel

theorem witness_LzwDictionaryBounds :
    ([0x41] : List Byte) ≠ [] ∧ (lzwCodes true 65536 [] lzwInit [0x41]).err = none ∧ 65536 ≤ 65536 ∧ [65] ≠ [] ∧
    (lzwDecodeCodes true 65536 [65]).err = none ∧ 255 + ([0x41] : List Byte).length ≤ 65536 ∧
    255 + [65].length ≤ 65536 := by decide +kernel

/-- Exactly full, with and without the guard; assignable codes and one that is not. -/
theorem witness_LzwDecAcceptsExactlyAssignableCodes :
    (255 + [65, 256].length ≤ 257 ∧ 255 + [65, 256].length ≤ 65536) ∧
    (∀ p, p < 2 → ∀ k, [65, 256][p]? = some k → k ≤ 255 + p) ∧ ¬ 257 ≤ 255 + 1 := by
  refine ⟨by decide, ?_, by decide⟩
  intro p hp k hk
  match p, hp with
  | 0, _ => simp at hk; omega
  | 1, _ => simp at hk; omega

theorem witness_LzwDecOutputIsSpelledByTheCodes :
    lzwDecodeCodes false 65536 [65, 256] = ⟨[0x41, 0x41, 0x41], none, lzwInit ++ [[0x41, 0x41]]⟩ ∧
    [65, 256][0]? = some 65 ∧ [65, 256][0 + 1]? = some 256 := by decide +kernel

/-- A success with exactly OUT_CAP bytes, and an undefined code. -/
theorem witness_LzwDecCompletes :
    (inputFits (ready .lzwDec 0 3 [0, 0x41, 1, 0]) ∧ (ready .lzwDec 0 3 [0, 0x41, 1, 0]).input = [65, 256].flatMap be16 ∧
      (∀ k ∈ [65, 256], k < 65536) ∧ (lzwDecodeCodes false 65536 [65, 256]).out.length ≤ 3 ∧
      (lzwDecodeCodes false 65536 [65, 256]).err = none) ∧
    (inputFits (ready .lzwDec 0 1 [0, 0x41, 1, 1]) ∧ (ready .lzwDec 0 1 [0, 0x41, 1, 1]).input = [65, 257].flatMap be16 ∧
      (∀ k ∈ [65, 257], k < 65536) ∧ (lzwDecodeCodes false 65536 [65, 257]).out.length ≤ 1 ∧
      (lzwDecodeCodes false 65536 [65, 257]).err = some .malformedData) := by decide +kernel

theorem witness_LzwDecRefusesHalfCodesAndUnknownStarts :
    (inputFits (ready .lzwDec 0 1 [0]) ∧ (ready .lzwDec 0 1 [0]).inLenS.toNat % 2 = 1) ∧
    (inputFits (ready .lzwDec 0 1 [1, 0]) ∧ (ready .lzwDec 0 1 [1, 0]).input = [1, 0] ∧ (1 : Byte) ≠ 0x00#8) := by
  decide +kernel

/-- LZW_ENC with the guard and without it, and LZW_DEC under the guard after either. -/
theorem witness_LzwRoundTrip :
    (∀ g ∈ [0#3, 4#3], (∃ t, exec .lzwEnc (ready .lzwEnc g 600 [0x41, 0x41, 0x41]) = .next t ∧ t.status = 0x00000002#32) ∧
      (lzwEncEnd (ready .lzwEnc g 600 [0x41, 0x41, 0x41])).err = none ∧
      (lzwEncEnd (ready .lzwEnc g 600 [0x41, 0x41, 0x41])).dict.length ≤ 256 + 65280 ∧
      (∀ k ∈ (lzwEncEnd (ready .lzwEnc g 600 [0x41, 0x41, 0x41])).out, k < 65536)) ∧
    (ready .lzwDec 4 600 [0, 0x41, 1, 0]).input = [0, 0x41, 1, 0] ∧
    (ready .lzwEnc 0 600 [0x41, 0x41, 0x41]).guardLzwCode = false ∧ (ready .lzwDec 4 600 [0, 0x41, 1, 0]).guardLzwCode = true ∧
    ∃ v, exec .lzwDec (ready .lzwDec 4 600 [0, 0x41, 1, 0]) = .next v ∧ v.status ≠ statusFailed .capacityExceeded := by
  refine ⟨fun g hg => ⟨⟨_, rfl, ?_⟩, ?_⟩, by decide +kernel, by decide, by decide, _, rfl, by decide +kernel⟩
  · revert g
    decide +kernel
  · revert g
    decide +kernel

theorem witness_FrequencyTableCountsTheInput : abc.length < 2 ^ 32 := by decide

theorem witness_PopLeastRemovesALeastKey : HuffTree.leaf 0x61 3 0 ∈ HuffTree.leaf 0x61 3 0 :: [HuffTree.leaf 0x62 3 1] := by
  decide

theorem witness_TreeIsBuiltOverTheTable : [((0x61, 3) : Byte × Nat)] ≠ [] := by decide

/-- A non-empty input with exactly OUT_CAP bytes of output (HUF20), one byte less, and the empty input. -/
theorem witness_HufEncCompletes :
    (inputFits (ready .hufEnc 3 10 abc) ∧ (ready .hufEnc 3 10 abc).input = abc ∧ abc ≠ [] ∧
      (symbolCounts abc).length ≠ 256 ∧ (∀ b : Byte, abc.count b ≤ 255) ∧
      ∃ root, buildTree (symbolCounts abc) = some root ∧
        2 + 2 * (symbolCounts abc).length + ((codeBits root abc).length + 7) / 8 = 10) ∧
    (inputFits (ready .hufEnc 0 2 []) ∧ (ready .hufEnc 0 2 []).inLenS = 0#32 ∧ 2 ≤ (ready .hufEnc 0 2 []).outCap.toNat) ∧
    (inputFits (ready .hufEnc 0 1 []) ∧ (ready .hufEnc 0 1 []).inLenS = 0#32 ∧ (ready .hufEnc 0 1 []).outCap.toNat < 2) := by
  refine ⟨⟨by decide, by decide +kernel, by decide, by decide +kernel, ?_, ?_⟩, by decide⟩
  · intro b
    have h := List.count_le_length (a := b) (l := abc)
    have hl : abc.length = 9 := rfl
    omega
  · exact ⟨_, rfl, by decide +kernel⟩

/-- The table guard with all 256 symbols (N = 256), the count guard with a count of 256, and neither. -/
theorem witness_HufEncGuards :
    (inputFits (ready .hufEnc 2 600 allBytes) ∧ (ready .hufEnc 2 600 allBytes).guardHufTable = true ∧
      (∀ b : Byte, b ∈ (ready .hufEnc 2 600 allBytes).input)) ∧
    (inputFits (ready .hufEnc 1 600 many) ∧
      (ready .hufEnc 1 600 many).guardHufCount = true ∧
      (ready .hufEnc 1 600 many).input.count 0x61 > 255) ∧
    ∃ t, exec .hufEnc (ready .hufEnc 3 600 abc) = .next t ∧ t.status ≠ statusFailed .unsupportedInput := by
  have e2 := ready_input .hufEnc 2 600 allBytes (by simp [allBytes])
  have e1 := ready_input .hufEnc 1 600 many (by rw [many_length]; decide)
  refine ⟨⟨by decide +kernel, rfl, fun b => ?_⟩, ⟨by decide +kernel, rfl, ?_⟩, _, rfl, by decide +kernel⟩
  · rw [e2]
    exact mem_allBytes b
  · rw [e1, many, List.count_replicate_self]
    decide

/-- 255 equal bytes under the count guard, with exactly OUT_CAP bytes of output. -/
theorem witness_HufEncSingleSymbol :
    inputFits (ready .hufEnc 1 36 (List.replicate 255 0x61)) ∧ 1 ≤ 255 ∧
    (ready .hufEnc 1 36 (List.replicate 255 0x61)).input = List.replicate 255 0x61 ∧ 255 ≤ 255 ∧
    4 + (255 + 7) / 8 ≤ (ready .hufEnc 1 36 (List.replicate 255 0x61)).outCap.toNat :=
  ⟨by decide +kernel, by decide, ready_input .hufEnc 1 36 _ (by decide +kernel), by decide, by decide +kernel⟩

/-- HUF12, whose fill bits are 1s, and the same with the table's pairs out of order (HUF11), with exactly
OUT_CAP bytes of output and with one byte less; and the empty stream. -/
theorem witness_HufDecCompletes :
    (∀ tab ∈ [[(0x61, 1), (0x62, 1)], [(0x62, 1), ((0x61, 1) : Byte × Byte)]],
      ∃ root, buildTree (sortTable (tableCounts tab)) = some root ∧
        (∀ y ∈ ([0x61, 0x62] : List Byte), y ∈ tab.map Prod.fst) ∧
        inputFits (ready .hufDec 0 2 (6 :: 2 :: (tablePairs tab ++ [0x7F]))) ∧
        validHufStream (ready .hufDec 0 2 (6 :: 2 :: (tablePairs tab ++ [0x7F]))).input tab (codeBits root [0x61, 0x62]) ∧
        ([0x61, 0x62] : List Byte).length ≤ (ready .hufDec 0 2 (6 :: 2 :: (tablePairs tab ++ [0x7F]))).outCap.toNat ∧
        (ready .hufDec 0 1 (6 :: 2 :: (tablePairs tab ++ [0x7F]))).outCap.toNat < ([0x61, 0x62] : List Byte).length) ∧
    (inputFits (ready .hufDec 0 600 [0, 0]) ∧ (ready .hufDec 0 600 [0, 0]).input = [0x00#8, 0x00#8]) := by
  refine ⟨?_, by decide +kernel⟩
  intro tab ht
  simp only [List.mem_cons, List.not_mem_nil, or_false] at ht
  rcases ht with rfl | rfl <;>
    exact ⟨_, rfl, by decide, by decide, ⟨6, 2, [0x7F], by decide +kernel⟩, by decide, by decide⟩

/-- HUF18's streams, in the order of the clauses. -/
theorem witness_HufDecRefusesMalformedStreams :
    (ready .hufDec 0 1 [0x00]).inLenS.toNat < 2 ∧
    ((ready .hufDec 0 1 [0x08, 0x00]).input = 0x08 :: [0x00] ∧ (0x08 : Byte).toNat > 7) ∧
    ((ready .hufDec 0 1 [0x00, 0x02, 0x61, 0x01]).input = 0x00 :: 0x02 :: [0x61, 0x01] ∧
      ([0x61, 0x01] : List Byte).length < 2 * (0x02 : Byte).toNat) ∧
    ((ready .hufDec 0 1 [0x00, 0x02, 0x61, 0x01, 0x61, 0x01, 0x00]).input =
        0x00 :: 0x02 :: (tablePairs [(0x61, 0x01), (0x61, 0x01)] ++ [0x00]) ∧
      ¬ (([(0x61, 0x01), (0x61, 0x01)] : List (Byte × Byte)).map Prod.fst).Nodup) ∧
    ((ready .hufDec 0 1 [0x03, 0x01, 0x61, 0x01]).input = 0x03 :: 0x01 :: (tablePairs [(0x61, 0x01)] ++ []) ∧
      (0x03 : Byte).toNat > 8 * ([] : List Byte).length) ∧
    ((ready .hufDec 0 1 [0x00, 0x00, 0xFF]).input = 0x00 :: 0x00 :: (tablePairs [] ++ [0xFF]) ∧ ([0xFF] : List Byte) ≠ []) := by
  decide +kernel

/-- HUF22's stream, whose last codeword is incomplete, with room for exactly the codewords before it. -/
theorem witness_HufDecRefusesMalformedStreams_after_codewords :
    ∃ root rest, buildTree (sortTable (tableCounts [(0x61, 3), (0x62, 4), (0x63, 2)])) = some root ∧
      inputFits (ready .hufDec 0 3 [1, 3, 0x61, 3, 0x62, 4, 0x63, 2, 0xFE]) ∧
      (∀ y ∈ ([0x61, 0x61, 0x61] : List Byte), y ∈ ([(0x61, 3), (0x62, 4), (0x63, 2)] : List (Byte × Byte)).map Prod.fst) ∧
      validHufStream (ready .hufDec 0 3 [1, 3, 0x61, 3, 0x62, 4, 0x63, 2, 0xFE]).input
        [(0x61, 3), (0x62, 4), (0x63, 2)] (codeBits root [0x61, 0x61, 0x61] ++ rest) ∧ rest ≠ [] ∧
      (∀ y ∈ ([(0x61, 3), (0x62, 4), (0x63, 2)] : List (Byte × Byte)).map Prod.fst, ¬ codeOf root y <+: rest) ∧
      ([0x61, 0x61, 0x61] : List Byte).length ≤ (ready .hufDec 0 3 [1, 3, 0x61, 3, 0x62, 4, 0x63, 2, 0xFE]).outCap.toNat :=
  ⟨_, [true], rfl, by decide, by decide, ⟨1, 3, [0xFE], by decide +kernel⟩, by decide, by decide +kernel, by decide⟩

/-- HUF18's last stream: a bit 1 in a single-symbol stream. -/
theorem witness_HufDecRefusesMalformedStreams_bits :
    inputFits (ready .hufDec 0 1 [0x07, 0x01, 0x61, 0x01, 0x80]) ∧
    buildTree (sortTable (tableCounts [(0x61, 0x01)])) = some (.leaf 0x61 1 0) ∧
    validHufStream (ready .hufDec 0 1 [0x07, 0x01, 0x61, 0x01, 0x80]).input [(0x61, 0x01)] [true] ∧
    ([true] : Bits).length ≤ (ready .hufDec 0 1 [0x07, 0x01, 0x61, 0x01, 0x80]).outCap.toNat ∧
    ¬ ∃ ys : List Byte, (∀ y ∈ ys, y ∈ ([(0x61, 0x01)] : List (Byte × Byte)).map Prod.fst) ∧
      [true] = codeBits (.leaf 0x61 1 0) ys := by
  refine ⟨by decide, by decide +kernel, ⟨7, 1, [0x80], by decide +kernel⟩, by decide, ?_⟩
  rintro ⟨ys, hy, h⟩
  cases ys with
  | nil => simp [codeBits] at h
  | cons y ys =>
    have hm : y = 0x61 := by simpa using hy y (by simp)
    simp [hm, codeBits, codeOf, codesOf] at h

/-- HUF14: the 256 bytes 00 to FF, with GUARD_HUF_TABLE clear. -/
theorem witness_HufFullTableStreamIsMalformed :
    ∃ t, exec .hufEnc (ready .hufEnc 0 400000 allBytes) = .next t ∧ t.status = 0x00000002#32 ∧
      ∀ b : Byte, b ∈ (ready .hufEnc 0 400000 allBytes).input := by
  obtain ⟨t, h1, h2⟩ := hufEnc_succeeds allBytes (by simp [allBytes])
  refine ⟨t, h1, h2, fun b => ?_⟩
  rw [ready_input _ _ _ _ (by simp [allBytes])]
  exact mem_allBytes b

/-- The three conditions (a), (b), (c): the empty input, HUF8, and a count above 255; and the decoding. -/
theorem witness_HufRoundTrip :
    ((∃ t, exec .hufEnc (ready .hufEnc 0 400000 []) = .next t ∧ t.status = 0x00000002#32) ∧
      (ready .hufEnc 0 400000 []).input = []) ∧
    ((∃ t, exec .hufEnc (ready .hufEnc 0 400000 abc) = .next t ∧ t.status = 0x00000002#32) ∧
      1 ≤ (symbolCounts abc).length ∧ (symbolCounts abc).length ≤ 255 ∧ ∀ b, abc.count b ≤ 255) ∧
    ((∃ t, exec .hufEnc (ready .hufEnc 0 400000 many) = .next t ∧ t.status = 0x00000002#32) ∧
      (ready .hufEnc 0 400000 many).input = many) ∧
    ((ready .hufDec 0 600 [0, 0]).input = [0, 0] ∧
      ∃ v, exec .hufDec (ready .hufDec 0 600 [0, 0]) = .next v ∧ v.status ≠ statusFailed .capacityExceeded) := by
  refine ⟨⟨hufEnc_succeeds [] (by simp), rfl⟩, ⟨hufEnc_succeeds abc (by decide), by decide +kernel, by decide +kernel, ?_⟩,
    ⟨hufEnc_succeeds many (by rw [many_length]; decide), ready_input _ _ _ _ (by rw [many_length]; decide)⟩, by decide +kernel, _, rfl, by decide +kernel⟩
  intro b
  exact (List.count_le_length).trans (by decide)

/-- A running command meets the invariant, and a step of it answers a next state. -/
theorem witness_StepKeepsTheInvariant :
    Inv (ready .rleEnc 0 600 [0x41]) ∧ ∃ t, step (ready .rleEnc 0 600 [0x41]) = .next t := by
  refine ⟨⟨by decide, by decide, by decide, by decide, by decide, by decide, by decide, by decide, .running rfl rfl rfl,
    ⟨by decide +kernel, ?_, by decide +kernel, by decide +kernel, by decide +kernel⟩⟩, _, rfl⟩
  intro t h
  cases h

theorem witness_ResetAbandonsTheCommand :
    (waiting .rleEnc [0x41] [.reset]).delay ≠ 0 ∧ (waiting .rleEnc [0x41] [.reset]).phase = .busy ∧
    (waiting .rleEnc [0x41] [.reset]).host = .reset :: [] ∧ (hosted [] [.reset]).phase = .idle := by decide

theorem witness_EngineCompletesAfterFinitelyManyActions :
    (waiting .rleEnc [0x41] [.poll, .copyback]).phase = .busy ∧ quietProgram (waiting .rleEnc [0x41] [.poll, .copyback]).host := by
  refine ⟨rfl, ?_⟩
  intro st h
  have hm : st ∈ [HostStmt.poll, .copyback] := h
  fin_cases hm <;> decide

theorem witness_OnlyForeignAccessesAreRefused :
    step (hosted [] [.raw writeToOut]) = .refused (.accessOutsideInterface writeToOut) ∧
    (hosted [] [.raw writeToOut]).phase = .idle ∧ (hosted [] [.raw writeToOut]).host = .raw writeToOut :: [] ∧
    writeToOut.wf = false ∧ Access.wf ⟨true, .inBuf, 8, 0, 255⟩ = true := ⟨rfl, rfl, rfl, rfl, rfl⟩

theorem witness_PollRepeatsWhileBusy :
    ((hosted [] [.poll]).phase = .idle ∧ (hosted [] [.poll]).host = .poll :: [] ∧
      statusBusy (hosted [] [.poll]).status = false) ∧
    ((waiting .rleEnc [] [.poll]).delay ≠ 0 ∧ (waiting .rleEnc [] [.poll]).host = .poll :: [] ∧
      statusBusy (waiting .rleEnc [] [.poll]).status = true) := by decide

theorem witness_CopybackMovesTheOutputToTheInput :
    (hosted [] [.copyback]).phase = .idle ∧ (hosted [] [.copyback]).host = .copyback :: [] ∧
    ({ hosted [] [.copyback] with outLen := 2#32, outMem := [(0, 5#8), (1, 6#8)] } : State).outLen.toNat = [5#8, 6#8].length ∧
    (∀ a, ({ hosted [] [.copyback] with outLen := 2#32, outMem := [(0, 5#8), (1, 6#8)] } : State).outMem.get? a = [5#8, 6#8][a]?) ∧
    [5#8, 6#8].length ≤ (hosted [] [.copyback]).outCap.toNat ∧ [5#8, 6#8].length ≤ (hosted [] [.copyback]).inCap.toNat := by
  refine ⟨rfl, rfl, rfl, ?_, by decide, by decide⟩
  intro a
  match a with
  | 0 => rfl
  | 1 => rfl
  | a + 2 => simp

end Sys2Proof.Tests
end

section
/-! SUPPORT. The codec rule of each command as a table, so that a fact about the completion step of every
command is a fact about eight codec rules (40_dispatch.md R103, R109). -/

namespace Sys2Proof.Machine

/-- The codec rule a command runs in a state, with the guards and the dictionary capacity of that state;
none for a reserved command. -/
def codecRule (s : State) : Instr → Option (Ram → List Byte → CodecRun)
  | .rleEnc => some rleEnc
  | .rleDec => some rleDec
  | .hufEnc => some (hufEnc s.guardHufTable s.guardHufCount)
  | .hufDec => some hufDec
  | .golEnc => some golEnc
  | .golDec => some golDec
  | .lzwEnc => some (lzwEnc s.guardLzwCode s.lzwDictCap)
  | .lzwDec => some (lzwDec s.guardLzwCode s.lzwDictCap)
  | .reserved8 | .reserved9 | .reservedA | .reservedB | .reservedC | .reservedD | .reservedE | .reservedF => none

/-- Every command is the completion step of its codec rule, or of a reserved opcode. -/
theorem exec_eq_codecRule (i : Instr) (s : State) :
    exec i s = .next ((codecRule s i).elim s.runReserved s.runCodec) := by
  cases i <;> rfl

/-- A command without a codec rule is no defined one. -/
theorem not_mem_definedCommands_of_codecRule_none {s : State} {i : Instr} (h : codecRule s i = none) :
    i ∉ Claims.definedCommands := by
  cases i
  case rleEnc | rleDec | hufEnc | hufDec | golEnc | golDec | lzwEnc | lzwDec => cases h
  all_goals decide

/-- A command's codec rule depends on CFG_S and LZW_DICT_CAP only (30_encoding.md R86). -/
theorem codecRule_congr {s s' : State} (hc : s'.cfgS = s.cfgS) (hd : s'.lzwDictCap = s.lzwDictCap) (i : Instr) :
    codecRule s' i = codecRule s i := by
  cases i <;> simp only [codecRule, State.guardHufTable, State.guardHufCount, State.guardLzwCode, hc, hd]

end Sys2Proof.Machine
end

section
/-! SUPPORT. No command reads what the RAMs held before it (00_scope.md R11): each codec rule's output and
error are the same whatever RAMs it is given, and the completion depends on those two alone. -/

namespace Sys2Proof.Machine

/-- The bytes a codec rule emits and the error it raises do not depend on the RAMs it starts from. -/
def IgnoresRam (codec : Ram → List Byte → CodecRun) : Prop :=
  ∀ (r r' : Ram) (xs : List Byte), (codec r' xs).out = (codec r xs).out ∧ (codec r' xs).err = (codec r xs).err

theorem rleEnc_ignoresRam : IgnoresRam rleEnc := fun _ _ _ => ⟨rfl, rfl⟩

theorem rleDec_ignoresRam : IgnoresRam rleDec := by
  intro r r' xs
  unfold rleDec
  split <;> exact ⟨rfl, rfl⟩

theorem golEnc_ignoresRam : IgnoresRam golEnc := fun _ _ _ => ⟨rfl, rfl⟩

theorem golDec_ignoresRam : IgnoresRam golDec := fun _ _ _ => ⟨rfl, rfl⟩

theorem hufEnc_ignoresRam (guardTable guardCount : Bool) : IgnoresRam (hufEnc guardTable guardCount) := by
  intro r r' xs
  unfold hufEnc
  by_cases hx : xs = []
  · simp only [hx, if_true, and_self]
  · simp only [hx, if_false]
    cases hufGuards guardTable guardCount (buildFT xs) with
    | some e => exact ⟨rfl, rfl⟩
    | none => cases buildTree (ftTable (buildFT xs)) <;> exact ⟨rfl, rfl⟩

theorem hufDec_ignoresRam : IgnoresRam hufDec := by
  intro r r' xs
  unfold hufDec
  cases hufParse xs with
  | error e => exact ⟨rfl, rfl⟩
  | ok parsed =>
    simp only
    cases buildTree (sortTable parsed.1) <;> exact ⟨rfl, rfl⟩

theorem lzwEnc_ignoresRam (guard : Bool) (cap : Nat) : IgnoresRam (lzwEnc guard cap) := fun _ _ _ => ⟨rfl, rfl⟩

theorem lzwDec_ignoresRam (guard : Bool) (cap : Nat) : IgnoresRam (lzwDec guard cap) := by
  intro r r' xs
  unfold lzwDec
  split
  · exact ⟨rfl, rfl⟩
  · split <;> exact ⟨rfl, rfl⟩

/-- Every command's codec rule ignores the RAMs. -/
theorem codecRule_ignoresRam {s : State} {codec : Ram → List Byte → CodecRun} :
    ∀ {i : Instr}, codecRule s i = some codec → IgnoresRam codec
  | .rleEnc, rfl => rleEnc_ignoresRam
  | .rleDec, rfl => rleDec_ignoresRam
  | .hufEnc, rfl => hufEnc_ignoresRam _ _
  | .hufDec, rfl => hufDec_ignoresRam
  | .golEnc, rfl => golEnc_ignoresRam
  | .golDec, rfl => golDec_ignoresRam
  | .lzwEnc, rfl => lzwEnc_ignoresRam _ _
  | .lzwDec, rfl => lzwDec_ignoresRam _ _

/-- The result of a run depends on its output and its error, not on the RAMs it leaves. -/
theorem finish_congr {r r' : CodecRun} (ho : r'.out = r.out) (he : r'.err = r.err) (cap : Nat) :
    r'.finish cap = r.finish cap := by
  rw [finish_eq, finish_eq, ho, he]

/-- What a completion records does not depend on the state before it. -/
theorem complete_result (s s' : State) (r : Except CmdError (List Byte)) :
    (s'.complete r).status = (s.complete r).status ∧ (s'.complete r).outLen = (s.complete r).outLen ∧
      (s'.complete r).outMem = (s.complete r).outMem := by
  cases r <;> exact ⟨rfl, rfl, rfl⟩

/-- The input is the bytes of IN_MEM below IN_LEN_S (40_dispatch.md R105). -/
theorem input_congr {s s' : State} (hl : s'.inLenS = s.inLenS)
    (hb : ∀ a, a < s.inLenS.toNat → s'.inByte a = s.inByte a) : s'.input = s.input := by
  unfold State.input
  rw [hl]
  exact List.map_congr_left fun a ha => hb a (List.mem_range.1 ha)

theorem runCodec_of_inputFits {s : State} (codec : Ram → List Byte → CodecRun) (h : Claims.inputFits s) :
    s.runCodec codec =
      ({ s with ram := (codec s.ram s.input).ram } : State).complete ((codec s.ram s.input).finish s.outCap.toNat) := by
  unfold State.runCodec
  rw [if_neg (Nat.not_lt.2 h)]

theorem runCodec_of_not_inputFits {s : State} (codec : Ram → List Byte → CodecRun) (h : ¬ Claims.inputFits s) :
    s.runCodec codec = s.fail .capacityExceeded := by
  unfold State.runCodec
  rw [if_pos (Nat.not_le.1 h)]

/-- A codec rule that ignores the RAMs records the same result from any two states with the same input and
capacities, and leaves the same OUT_MEM where it reaches the buffers. -/
theorem runCodec_result {codec : Ram → List Byte → CodecRun} (hk : IgnoresRam codec) {s s' : State}
    (hl : s'.inLenS = s.inLenS) (hi : s'.inCap = s.inCap) (ho : s'.outCap = s.outCap) (hx : s'.input = s.input) :
    (s'.runCodec codec).status = (s.runCodec codec).status ∧
      (s'.runCodec codec).outLen = (s.runCodec codec).outLen ∧
      (Claims.inputFits s → (s'.runCodec codec).outMem = (s.runCodec codec).outMem) := by
  have hfits : Claims.inputFits s' ↔ Claims.inputFits s := by rw [Claims.inputFits, hl, hi]
  by_cases h : Claims.inputFits s
  · obtain ⟨hout, herr⟩ := hk s.ram s'.ram s.input
    have hfin : (codec s'.ram s'.input).finish s'.outCap.toNat = (codec s.ram s.input).finish s.outCap.toNat := by
      rw [hx, ho, finish_congr hout herr]
    rw [runCodec_of_inputFits codec h, runCodec_of_inputFits codec (hfits.2 h), hfin]
    obtain ⟨hstatus, hlen, hmem⟩ := complete_result { s with ram := (codec s.ram s.input).ram }
      { s' with ram := (codec s'.ram s'.input).ram } ((codec s.ram s.input).finish s.outCap.toNat)
    exact ⟨hstatus, hlen, fun _ => hmem⟩
  · rw [runCodec_of_not_inputFits codec h, runCodec_of_not_inputFits codec (mt hfits.1 h)]
    exact ⟨rfl, rfl, fun hfit => absurd hfit h⟩

end Sys2Proof.Machine
end

section
/-! The obligation on what a command's result depends on. -/

open Sys2Proof Sys2Proof.Machine Sys2Proof.Claims

/-- Settles O19: both states run the same codec rule on the same input, and no codec rule reads the RAMs. -/
theorem resultDependsOnTheSnapshotAlone : Obligations.ResultDependsOnTheSnapshotAlone := by
  intro i s s' t hc hl hi ho hd hb ht
  rw [exec_eq_codecRule] at ht
  cases ht
  refine ⟨_, exec_eq_codecRule i s', ?_⟩
  rw [codecRule_congr hc hd]
  cases hr : codecRule s i with
  | none => exact ⟨rfl, rfl, fun hdef => absurd hdef (not_mem_definedCommands_of_codecRule_none hr)⟩
  | some codec =>
    obtain ⟨hstatus, hlen, hmem⟩ := runCodec_result (codecRule_ignoresRam hr) hl hi ho (input_congr hl hb)
    exact ⟨hstatus, hlen, fun _ => hmem⟩
end

section
/-! SUPPORT. The sizes of the internal RAMs (10_state.md R36 to R39): every codec rule leaves RAMs of their
sizes where it found them so. -/

namespace Sys2Proof.Machine

/-- A codec rule leaves RAMs of their sizes where it is given such. -/
def KeepsRamSized (cap : Nat) (codec : Ram → List Byte → CodecRun) : Prop :=
  ∀ (r : Ram) (xs : List Byte), r.Sized cap → (codec r xs).ram.Sized cap

/-! ### The code table: a path of `d` steps in a binary tree needs `2 d + 1` nodes -/

theorem HuffTree.size_pos (t : HuffTree) : 0 < t.size := by
  cases t <;> exact Nat.succ_pos _

theorem walkCodes_length_le_half (t : HuffTree) (p : Bits) :
    ∀ c ∈ walkCodes t p, 2 * c.2.length + 1 ≤ 2 * p.length + t.size := by
  induction t generalizing p with
  | leaf s f k => simp [walkCodes, HuffTree.size]
  | node f k l r hl hr =>
    intro c hc
    simp only [walkCodes, List.mem_append] at hc
    simp only [HuffTree.size]
    have hlpos := l.size_pos
    have hrpos := r.size_pos
    rcases hc with hc | hc
    · have hlen := hl _ c hc
      rw [List.length_append, List.length_singleton] at hlen
      omega
    · have hlen := hr _ c hc
      rw [List.length_append, List.length_singleton] at hlen
      omega

/-- In a tree that fits the arena every code fits its 8-bit length (10_state.md R37, R38). -/
theorem codesOf_length_le_255 {t : HuffTree} (ht : t.size ≤ 511) : ∀ c ∈ codesOf t, c.2.length ≤ 255 := by
  intro c hc
  cases t with
  | leaf s f k =>
    have hc : c = (s, [false]) := List.mem_singleton.1 hc
    simp [hc]
  | node f k l r =>
    have hlen := walkCodes_length_le_half _ _ c hc
    rw [List.length_nil] at hlen
    omega

theorem codeTableOf_codes_le_255 {root : HuffTree} (hr : root.size ≤ 511) : ∀ c ∈ codeTableOf root, c.length ≤ 255 := by
  intro c hc
  obtain ⟨k, -, rfl⟩ := List.mem_map.1 hc
  cases h : (codesOf root).lookup (BitVec.ofNat 8 k) with
  | none => simp
  | some c =>
    obtain ⟨l1, l2, hl, -⟩ := List.lookup_eq_some_iff.1 h
    exact codesOf_length_le_255 hr _ (by rw [hl]; exact List.mem_append_right _ List.mem_cons_self)

/-! ### The table of a stream -/

theorem parseTable_length {k : Nat} {seen xs rest : List Byte} {tab : List (Byte × Nat)}
    (h : parseTable k seen xs = some (tab, rest)) : tab.length = k := by
  fun_induction parseTable k seen xs generalizing tab with
  | case1 => cases h; rfl
  | case2 => cases h
  | case3 k seen s f xs hs t payload ht ih =>
    cases h
    simp [ih ht]
  | case4 => cases h
  | case5 => cases h

/-- A stream's table has at most 255 entries, since its size is one byte (43_huffman.md R169). -/
theorem hufParse_length {xs : List Byte} {tab : List (Byte × Nat)} {bits : Bits}
    (h : hufParse xs = .ok (tab, bits)) : tab.length ≤ 255 := by
  unfold hufParse at h
  split at h
  · rename_i pad size rest
    split at h
    · cases h
    split at h
    · cases h
    split at h
    · cases h
    · rename_i ht
      split at h
      · cases h
      · cases h
        have := size.isLt
        rw [parseTable_length ht]
        omega
  · cases h

/-! ### The dictionary -/

/-- Insert never makes the dictionary larger than its RAM (45_lzw.md R222). -/
theorem lzwInsert_length_le {guard : Bool} {cap : Nat} {dict dict' : List (List Byte)} {t : List Byte}
    (h : lzwInsert guard cap dict t = .ok dict') (hd : dict.length ≤ cap) : dict'.length ≤ cap := by
  rcases lzwInsert_cases guard cap dict t with ⟨-, -, e⟩ | ⟨-, -, e⟩ | ⟨-, hne, e⟩
  · rw [e] at h
    cases h
  · rw [e] at h
    cases h
  · rw [e] at h
    cases h
    simp only [List.length_append, List.length_singleton]
    omega

theorem lzwCodes_dict_length_le (guard : Bool) (cap : Nat) (w : List Byte) (dict : List (List Byte)) (xs : List Byte)
    (hd : dict.length ≤ cap) : (lzwCodes guard cap w dict xs).dict.length ≤ cap := by
  fun_induction lzwCodes guard cap w dict xs with
  | case1 => exact hd
  | case2 w dict c xs hmem ih => exact ih hd
  | case3 => exact hd
  | case4 w dict c xs hmem dict' hins ih => exact ih (lzwInsert_length_le hins hd)

theorem lzwExpand_dict_length_le (guard : Bool) (cap : Nat) (w : List Byte) (dict : List (List Byte)) (ks : List Nat)
    (hd : dict.length ≤ cap) : (lzwExpand guard cap w dict ks).dict.length ≤ cap := by
  fun_induction lzwExpand guard cap w dict ks with
  | case1 => exact hd
  | case2 => exact hd
  | case3 => exact hd
  | case4 w dict k ks e he dict' hins ih => exact ih (lzwInsert_length_le hins hd)

theorem lzwDecodeCodes_dict_length_le (guard : Bool) (cap : Nat) (ks : List Nat) (hcap : 65536 ≤ cap) :
    (lzwDecodeCodes guard cap ks).dict.length ≤ cap := by
  have hinit : lzwInit.length ≤ cap := by
    rw [lzwInit_length]
    omega
  cases ks with
  | nil => exact hinit
  | cons k ks =>
    rw [lzwDecodeCodes_cons]
    split
    · exact hinit
    · exact lzwExpand_dict_length_le guard cap _ _ ks hinit

/-! ### The codec rules -/

theorem rleEnc_keepsRamSized (cap : Nat) : KeepsRamSized cap rleEnc := fun _ _ h => h

theorem rleDec_keepsRamSized (cap : Nat) : KeepsRamSized cap rleDec := by
  intro r xs h
  unfold rleDec
  split <;> exact h

theorem golEnc_keepsRamSized (cap : Nat) : KeepsRamSized cap golEnc := fun _ _ h => h

theorem golDec_keepsRamSized (cap : Nat) : KeepsRamSized cap golDec := fun _ _ h => h

/-- HUF_ENC's table has at most 256 symbols, so its tree fits the arena and its codes fit 8-bit lengths. -/
theorem hufEnc_keepsRamSized (cap : Nat) (guardTable guardCount : Bool) :
    KeepsRamSized cap (hufEnc guardTable guardCount) := by
  intro r xs h
  have hft : Ram.Sized { r with ft := buildFT xs } cap := { h with ft := buildFT_length xs }
  unfold hufEnc
  split
  · exact h
  · simp only
    split
    · exact hft
    · split
      · exact hft
      · rename_i root hroot
        have hsize : root.size ≤ 511 := by
          have h1 := buildTree_size _ _ hroot
          have h2 := ftTable_length (buildFT xs)
          omega
        exact { hft with
          arena := fun t ht => by cases ht; exact hsize
          codeTable := codeTableOf_length root
          codes := codeTableOf_codes_le_255 hsize }

theorem hufDec_keepsRamSized (cap : Nat) : KeepsRamSized cap hufDec := by
  intro r xs h
  unfold hufDec
  split
  · exact h
  · rename_i tab bits hparse
    split
    · exact h
    · rename_i root hroot
      have hsize : root.size ≤ 511 := by
        have h1 := buildTree_size _ _ hroot
        have h2 := hufParse_length hparse
        rw [sortTable_length] at h1
        omega
      rw [Trace.toRun_ram]
      exact { h with arena := fun t ht => by cases ht; exact hsize }

theorem lzwEnc_keepsRamSized {cap : Nat} (hcap : 65536 ≤ cap) (guard : Bool) : KeepsRamSized cap (lzwEnc guard cap) := by
  intro r xs h
  exact { h with dict := lzwCodes_dict_length_le guard cap [] lzwInit xs (by rw [lzwInit_length]; omega) }

theorem lzwDec_keepsRamSized {cap : Nat} (hcap : 65536 ≤ cap) (guard : Bool) : KeepsRamSized cap (lzwDec guard cap) := by
  intro r xs h
  unfold lzwDec
  split
  · exact h
  · split
    · exact h
    · exact { h with dict := lzwDecodeCodes_dict_length_le guard cap _ hcap }

/-- Every command's codec rule keeps the RAMs' sizes. -/
theorem codecRule_keepsRamSized {s : State} {codec : Ram → List Byte → CodecRun} (hcap : 65536 ≤ s.lzwDictCap) :
    ∀ {i : Instr}, codecRule s i = some codec → KeepsRamSized s.lzwDictCap codec
  | .rleEnc, rfl => rleEnc_keepsRamSized _
  | .rleDec, rfl => rleDec_keepsRamSized _
  | .hufEnc, rfl => hufEnc_keepsRamSized _ _ _
  | .hufDec, rfl => hufDec_keepsRamSized _
  | .golEnc, rfl => golEnc_keepsRamSized _
  | .golDec, rfl => golDec_keepsRamSized _
  | .lzwEnc, rfl => lzwEnc_keepsRamSized hcap _
  | .lzwDec, rfl => lzwDec_keepsRamSized hcap _

theorem Ram.reset_sized (cap : Nat) : Ram.reset.Sized cap where
  ft := List.length_replicate
  arena := fun t ht => by cases ht
  codeTable := List.length_replicate
  codes := fun c hc => by simp [List.eq_of_mem_replicate hc]
  dict := Nat.zero_le _

end Sys2Proof.Machine
end

section
/-! SUPPORT. Each operation of the core keeps its invariant: the completions, START, reset, and the host's
actions and statements. -/

namespace Sys2Proof.Machine

/-! ### What the invariant does not see -/

theorem StatusLegal.congr {s t : State} (h : StatusLegal s) (hp : t.phase = s.phase) (hs : t.status = s.status)
    (hl : t.outLen = s.outLen) (hm : t.outMem = s.outMem) : StatusLegal t := by
  cases h with
  | fresh p w l => exact .fresh (hp.trans p) (hs.trans w) (hl.trans l)
  | running p w l => exact .running (hp.trans p) (hs.trans w) (hl.trans l)
  | succeeded p w b => exact .succeeded (hp.trans p) (hs.trans w) (by rwa [hm, hl])
  | failed e p w l => exact .failed e (hp.trans p) (hs.trans w) (hl.trans l)

/-- The invariant does not see the registers the host writes, the snapshot, and what lies outside the
core. -/
theorem Inv.congr {s t : State} (h : Inv s)
    (ht : t = { s with
      cmd := t.cmd
      config := t.config
      inLen := t.inLen
      opS := t.opS
      cfgS := t.cfgS
      inLenS := t.inLenS
      host := t.host
      responses := t.responses
      delay := t.delay
      delays := t.delays
      draws := t.draws
      inEpoch := t.inEpoch }) : Inv t := by
  rw [ht]
  exact { h with status := h.status.congr rfl rfl rfl rfl }

/-! ### Completion (40_dispatch.md R107, R108) -/

theorem Inv.setRam {s : State} (h : Inv s) {r : Ram} (hr : r.Sized s.lzwDictCap) : Inv { s with ram := r } :=
  { h with ram := hr, status := h.status.congr rfl rfl rfl rfl }

theorem Inv.succeed {s : State} (h : Inv s) {out : List Byte} (hl : out.length ≤ s.outCap.toNat) :
    Inv (s.succeed out) := by
  have hlen : (s.succeed out).outLen.toNat = out.length := (succeeded_succeed s s.ram out hl).outLen
  exact { h with
    outMem := succeed_wf s out
    outMemBelow := Memory.below_writeAll [] _ 0 out (by simp) (by simpa using hl)
    outLen := hlen.trans_le hl
    status := .succeeded rfl rfl fun a => by rw [hlen]; simp }

theorem Inv.fail {s : State} (h : Inv s) (e : CmdError) : Inv (s.fail e) :=
  { h with outLen := Nat.zero_le _, status := .failed e rfl rfl rfl }

theorem Inv.failCodec {s : State} (h : Inv s) (e : CmdError) : Inv (s.failCodec e) :=
  { h with
    outMem := failCodec_wf s e
    outMemBelow := by simp
    outLen := Nat.zero_le _
    status := .failed e rfl rfl rfl }

theorem Inv.runCodec {s : State} (h : Inv s) {codec : Ram → List Byte → CodecRun}
    (hk : KeepsRamSized s.lzwDictCap codec) : Inv (s.runCodec codec) := by
  by_cases hfit : Claims.inputFits s
  · rw [runCodec_of_inputFits codec hfit]
    have hram := h.setRam (hk s.ram s.input h.ram)
    cases hf : (codec s.ram s.input).finish s.outCap.toNat with
    | error e => exact hram.failCodec e
    | ok out =>
      obtain ⟨rfl, -, hl⟩ := finish_ok hf
      exact hram.succeed hl
  · rw [runCodec_of_not_inputFits codec hfit]
    exact h.fail _

theorem Inv.exec {s t : State} {i : Instr} (h : Inv s) (ht : exec i s = .next t) : Inv t := by
  rw [exec_eq_codecRule] at ht
  cases ht
  cases hr : codecRule s i with
  | none => exact h.fail _
  | some codec => exact h.runCodec (codecRule_keepsRamSized h.lzwDictCap hr)

/-! ### START and reset -/

theorem Inv.latch {s : State} (h : Inv s) : Inv s.latch :=
  { h with outLen := Nat.zero_le _, status := .running rfl rfl rfl }

theorem Inv.acceptStart {s : State} (h : Inv s) : Inv s.acceptStart := by
  rw [acceptStart_eq]
  exact h.latch.congr rfl

theorem Inv.assertReset {s : State} (h : Inv s) : Inv s.assertReset :=
  { h with
    inMem := (assertReset_memories_wf s).1
    inMemBelow := by simp
    outMem := (assertReset_memories_wf s).2
    outMemBelow := by simp
    outLen := Nat.zero_le _
    status := .fresh rfl rfl rfl
    ram := Ram.reset_sized _ }

/-! ### Host actions (20_memory.md R60) -/

theorem Inv.respond {s : State} (h : Inv s) (r : Response) : Inv (s.respond r) := h.congr rfl

theorem Inv.regWrite {s : State} (h : Inv s) (off : Nat) (v : Word) : Inv (s.regWrite off v) := by
  rcases regWrite_cases s off v with e | ⟨-, ⟨-, e⟩ | ⟨-, -, e⟩ | ⟨-, e⟩ | ⟨-, e⟩⟩
  all_goals rw [e]
  exacts [h, h.congr rfl, h.acceptStart, h.congr rfl, h.congr rfl]

theorem Inv.inWrite {s : State} (h : Inv s) (a : Nat) (b : Byte) : Inv (s.inWrite a b) := by
  cases hp : s.phase with
  | busy =>
    rw [inWrite_busy s a b hp]
    exact h
  | idle =>
    rw [inWrite_idle s a b hp]
    split
    · rename_i ha
      exact { h with
        inMem := Memory.wf_write _ _ _ h.inMem
        inMemBelow := Memory.below_write _ _ _ _ h.inMemBelow ha
        status := h.status.congr rfl rfl rfl rfl }
    · exact h

theorem Inv.outRead {s : State} (h : Inv s) (a : Nat) : Inv (s.outRead a).2 := by
  rcases outRead_state s a with e | e
  · rw [e]
    exact h
  · rw [e]
    exact h.congr rfl

theorem Inv.act {s : State} (h : Inv s) (a : HostAction) : Inv (s.act a) := by
  cases a with
  | regRead off => exact h.respond _
  | regWrite off v => exact h.regWrite off v
  | inRead a => exact h.respond _
  | inWrite a b => exact h.inWrite a b
  | outRead a => exact (h.outRead a).respond _

/-! ### Host statements (30_encoding.md R89) -/

theorem Inv.popHost {s : State} (h : Inv s) (rest : List HostStmt) : Inv (s.popHost rest) := h.congr rfl

theorem Inv.poll {s : State} (h : Inv s) : Inv s.poll := by
  unfold State.poll
  dsimp only
  split
  · exact (h.act _).congr rfl
  · exact h.act _

theorem Inv.copyback {s : State} (h : Inv s) : Inv s.copyback := (h.act (.regRead HostScript.offOutLen)).congr rfl

theorem Inv.copyLoop {s : State} (h : Inv s) (i n : Nat) : Inv (s.copyLoop i n) := by
  unfold State.copyLoop
  split
  · exact (h.act (.outRead i)).congr rfl
  · exact h.act _

theorem Inv.hostStmt {s t : State} {st : HostStmt} (h : Inv s) (ht : s.hostStmt st = .next t) : Inv t := by
  cases st with
  | act a => cases ht; exact h.act a
  | raw x =>
    cases hx : x.decode with
    | some a =>
      simp only [State.hostStmt, hx] at ht
      cases ht
      exact h.act a
    | none =>
      simp only [State.hostStmt, hx] at ht
      cases ht
  | poll => cases ht; exact h.poll
  | copyback => cases ht; exact h.copyback
  | copyLoop i n => cases ht; exact h.copyLoop i n
  | reset => cases ht; exact h.assertReset

end Sys2Proof.Machine
end

section
/-! The obligation on the core's invariant. -/

open Sys2Proof Sys2Proof.Machine

/-- Settles O53, by what a step can do: the engine's completion step, nothing, or a host statement. -/
theorem stepKeepsTheInvariant : Obligations.StepKeepsTheInvariant := by
  intro s t h ht
  rcases step_cases s with ⟨-, e⟩ | ⟨-, -, e⟩ | ⟨-, st, rest, -, e⟩
  · exact h.exec (e.symm.trans ht)
  · cases e.symm.trans ht
    exact h
  · exact (h.popHost rest).hostStmt (e.symm.trans ht)
end

section
/-! SUPPORT. The host's turn, the register map offset by offset (10_state.md R21 to R30), and the flags of an
error completion's STATUS (10_state.md R24, 60_exceptions.md R250). -/

namespace Sys2Proof.Machine

/-! ### The host's turn -/

theorem engineTurn_of_hostsTurn {s : State} {st : HostStmt} {rest : List HostStmt} (h : Claims.hostsTurn s)
    (hh : s.host = st :: rest) : s.engineTurn = false := by
  rw [← Bool.not_eq_true, engineTurn_iff]
  rintro ⟨hbusy, hdelay | hempty⟩
  · rcases h with hidle | hne
    · cases hidle.symm.trans hbusy
    · exact hne hdelay
  · cases hh.symm.trans hempty

/-- In the host's turn a host action at the head of the list is taken. -/
theorem step_act {s : State} {a : HostAction} {rest : List HostStmt} (h : Claims.hostsTurn s)
    (hh : s.host = .act a :: rest) : step s = .next ((s.popHost rest).act a) :=
  step_host s _ rest (engineTurn_of_hostsTurn h hh) hh

/-! ### Register reads (10_state.md R21 to R30) -/

@[simp] theorem regRead_cmd (s : State) : s.regRead 0x00 = s.cmd.setWidth 32 := rfl
@[simp] theorem regRead_ctrl (s : State) : s.regRead 0x04 = 0#32 := rfl
@[simp] theorem regRead_status (s : State) : s.regRead 0x08 = s.status := rfl
@[simp] theorem regRead_config (s : State) : s.regRead 0x0C = s.config.setWidth 32 := rfl
@[simp] theorem regRead_inLen (s : State) : s.regRead 0x10 = s.inLen := rfl
@[simp] theorem regRead_outLen (s : State) : s.regRead 0x14 = s.outLen := rfl
@[simp] theorem regRead_inCap (s : State) : s.regRead 0x18 = s.inCap := rfl
@[simp] theorem regRead_outCap (s : State) : s.regRead 0x1C = s.outCap := rfl

theorem regRead_unmapped (s : State) {off : Nat} (h : off ∉ [0x00, 0x04, 0x08, 0x0C, 0x10, 0x14, 0x18, 0x1C]) :
    s.regRead off = 0#32 := by
  simp only [List.mem_cons, List.not_mem_nil, or_false, not_or] at h
  simp [State.regRead, h]

/-! ### Register writes while IDLE (10_state.md R22 to R30) -/

@[simp] theorem regWriteIdle_cmd (s : State) (v : Word) : s.regWriteIdle 0x00 v = { s with cmd := v.extractLsb' 0 4 } := rfl
@[simp] theorem regWriteIdle_config (s : State) (v : Word) :
    s.regWriteIdle 0x0C v = { s with config := v.extractLsb' 0 3 } := rfl
@[simp] theorem regWriteIdle_inLen (s : State) (v : Word) : s.regWriteIdle 0x10 v = { s with inLen := v } := rfl

/-- A write that is no START, to an offset that holds no writable register, is ignored. -/
theorem regWriteIdle_ignored (s : State) {off : Nat} {v : Word} (hstart : off ≠ 0x04 ∨ v.getLsbD 0 = false)
    (hoff : off ∉ [0x00, 0x0C, 0x10]) : s.regWriteIdle off v = s := by
  simp only [List.mem_cons, List.not_mem_nil, or_false, not_or] at hoff
  obtain ⟨hcmd, hconfig, hinLen⟩ := hoff
  rw [State.regWriteIdle, if_neg hcmd, if_neg hconfig, if_neg hinLen]
  split
  · next hctrl => rw [if_neg (by simpa [hctrl] using hstart)]
  · rfl

/-! ### The STATUS word of an error completion (40_dispatch.md R108) -/

@[simp] theorem statusBusy_statusFailed (e : CmdError) : statusBusy (statusFailed e) = false := by cases e <;> rfl
@[simp] theorem statusDone_statusFailed (e : CmdError) : statusDone (statusFailed e) = true := by cases e <;> rfl
@[simp] theorem statusErr_statusFailed (e : CmdError) : statusErr (statusFailed e) = true := by cases e <;> rfl
@[simp] theorem statusErrCode_statusFailed (e : CmdError) : statusErrCode (statusFailed e) = errorCode e := by
  cases e <;> rfl
@[simp] theorem statusReserved_statusFailed (e : CmdError) : statusReserved (statusFailed e) = 0#32 := by
  cases e <;> rfl

@[simp] theorem errorCode_ne_zero (e : CmdError) : errorCode e ≠ 0#4 := by cases e <;> decide

end Sys2Proof.Machine
end

section
/-! The obligations on the register map and on STATUS. -/

open Sys2Proof Sys2Proof.Machine

/-- Settles O8: the host's turn takes the read, and the register map gives its value offset by offset. -/
theorem registerReadsFollowTheMap : Obligations.RegisterReadsFollowTheMap := by
  intro s off rest hturn hhost
  refine ⟨s.regRead off, step_act hturn hhost, ?_, ?_, ?_, ?_, ?_, ?_, ?_, ?_, regRead_unmapped s⟩
  all_goals
    rintro rfl
    simp

/-- Settles O9: while IDLE the host has the turn, and the write takes effect at its offset or is ignored. -/
theorem registerWritesFollowTheMap : Obligations.RegisterWritesFollowTheMap := by
  intro s off v rest hidle hstart hhost
  have hstep : step s = .next ((s.popHost rest).regWriteIdle off v) := by
    rw [step_act (.inl hidle) hhost, State.act, regWrite_idle (s.popHost rest) off v hidle]
  refine ⟨_, hstep, ?_, ?_, ?_, regWriteIdle_ignored _ hstart⟩
  all_goals
    rintro rfl
    simp

/-- Settles O10: the first three legal words are constants; an error's word has BUSY 0, DONE and ERR 1, and a
code that is not 0. -/
theorem statusFlagsFitTogether : Obligations.StatusFlagsFitTogether := by
  intro s h
  cases h with
  | fresh hphase hstatus _ =>
    rw [hphase, hstatus]
    decide
  | running hphase hstatus _ =>
    rw [hphase, hstatus]
    decide
  | succeeded hphase hstatus _ =>
    rw [hphase, hstatus]
    decide
  | failed e hphase hstatus _ =>
    rw [hphase, hstatus]
    simp
end

section
/-! SUPPORT. What a completion step can do (40_dispatch.md R104, R107 to R109), the accesses to the two
buffers (20_memory.md R65, 70_reset_and_hazards.md R285), and which accesses are inside the interface
(20_memory.md R60, R61). -/

namespace Sys2Proof

/-! ### The accesses inside the interface -/

theorem HostAction.encode_wf (h : HostAction) : h.encode.wf = true := by
  cases h with
  | regWrite off v => simp [HostAction.encode, Access.wf, Space.width, v.isLt]
  | inWrite a b => simp [HostAction.encode, Access.wf, Space.width, b.isLt]
  | regRead | inRead | outRead => rfl

theorem HostAction.decode_encode (h : HostAction) : h.encode.decode = some h := by
  rw [Access.decode, if_pos h.encode_wf]
  cases h with
  | regWrite off v => simp [HostAction.encode]
  | inWrite a b => simp [HostAction.encode]
  | regRead | inRead | outRead => rfl

/-- Exactly the accesses that are not well formed stand for no host action. -/
theorem Access.decode_eq_none_iff (x : Access) : x.decode = none ↔ x.wf = false := by
  by_cases hwf : x.wf = true
  · have hnoWrite : ¬ (x.write = true ∧ x.space = .outBuf) := by
      rintro ⟨hw, hs⟩
      simp [Access.wf, hw, hs] at hwf
    rw [Access.decode, if_pos hwf]
    cases hs : x.space
    case reg | inBuf => cases x.write <;> simp [hwf]
    case outBuf =>
      cases hw : x.write with
      | false => simp [hwf]
      | true => exact absurd ⟨hw, hs⟩ hnoWrite
  · simp [Access.decode, hwf]

end Sys2Proof

namespace Sys2Proof.Machine

/-! ### Completion -/

/-- Every completion succeeds with an output that fits, fails in the codec, or fails before any buffer access. -/
theorem exec_completes {i : Instr} {s t : State} (ht : exec i s = .next t) :
    (∃ out, out.length ≤ s.outCap.toNat ∧ Succeeded s t out) ∨ (∃ e, FailedInCodec s t e) ∨
      ∃ e, FailedBeforeAccess s t e := by
  rcases exec_cases i s with ⟨-, he⟩ | ⟨-, codec, he⟩
  · cases he.symm.trans ht
    exact .inr (.inr ⟨_, runReserved_fails s⟩)
  · cases he.symm.trans ht
    rcases runCodec_cases s codec with ⟨-, hf⟩ | ⟨-, -, ⟨-, hfits, hs⟩ | ⟨e, hf, -⟩⟩
    · exact .inr (.inr ⟨_, hf⟩)
    · exact .inl ⟨_, hfits, hs⟩
    · exact .inr (.inl ⟨e, hf⟩)

/-- Every completion leaves the core IDLE and what is outside it alone, and writes the STATUS word of a success,
or that of an error with OUT_LEN 0. -/
theorem exec_frame_and_status {i : Instr} {s t : State} (ht : exec i s = .next t) :
    SameOutside s t ∧ t.phase = .idle ∧
      (t.status = statusSucceeded ∨ ∃ e, t.status = statusFailed e ∧ t.outLen = 0#32) := by
  rcases exec_completes ht with ⟨_, -, h⟩ | ⟨e, h⟩ | ⟨e, h⟩
  · exact ⟨h.same, h.phase, .inl h.status⟩
  · exact ⟨h.same, h.phase, .inr ⟨e, h.status, h.outLen⟩⟩
  · exact ⟨h.same, h.phase, .inr ⟨e, h.status, h.outLen⟩⟩

/-- A completion that succeeded has an output within OUT_CAP (40_dispatch.md R106). -/
theorem exec_succeeded_fits {i : Instr} {s t : State} {out : List Byte} (ht : exec i s = .next t)
    (hs : Succeeded s t out) : out.length ≤ s.outCap.toNat := by
  rcases exec_completes ht with ⟨out', hfits, hs'⟩ | ⟨e, hf⟩ | ⟨e, hf⟩
  · rwa [← hs.outLen, hs'.outLen]
  · exact absurd (hf.status.symm.trans hs.status) (statusFailed_ne_succeeded e)
  · exact absurd (hf.status.symm.trans hs.status) (statusFailed_ne_succeeded e)

theorem exec_ne_refused (i : Instr) (s : State) (r : Refusal) : exec i s ≠ .refused r := by
  rw [exec_eq_codecRule]
  exact nofun

/-! ### Buffer accesses -/

theorem inWrite_below (s : State) {a : Nat} (b : Byte) (hp : s.phase = .idle) (h : a < s.inCap.toNat) :
    s.inWrite a b = { s with inMem := s.inMem.write a b } := by
  rw [inWrite_idle s a b hp, if_pos h]

theorem inWrite_above (s : State) {a : Nat} (b : Byte) (h : s.inCap.toNat ≤ a) : s.inWrite a b = s := by
  cases hp : s.phase with
  | busy => exact inWrite_busy s a b hp
  | idle => rw [inWrite_idle s a b hp, if_neg (Nat.not_lt.2 h)]


theorem inRead_below (s : State) {a : Nat} (h : a < s.inCap.toNat) : s.inRead a = s.inByte a := if_pos h

theorem inRead_above (s : State) {a : Nat} (h : s.inCap.toNat ≤ a) : s.inRead a = 0x00#8 := if_neg (Nat.not_lt.2 h)

theorem outRead_above (s : State) {a : Nat} (h : s.outCap.toNat ≤ a) : s.outRead a = (0x00#8, s) :=
  if_neg (Nat.not_lt.2 h)

/-- While BUSY, or where no byte is specified, a read below OUT_CAP draws a free value. -/
theorem outRead_unspecified (s : State) {a : Nat} (ha : a < s.outCap.toNat)
    (h : s.phase = .busy ∨ s.outMem.get? a = none) : s.outRead a = s.drawOutByte := by
  rw [State.outRead, if_pos ha]
  cases hp : s.phase with
  | busy => rfl
  | idle =>
    have hnone : s.outMem.get? a = none := h.resolve_left (by simp [hp])
    rw [hnone]

/-- An OUT read changes the counter of free values at most. -/
theorem outRead_frame (s : State) (a : Nat) : (s.outRead a).2 = { s with draws := (s.outRead a).2.draws } := by
  rcases outRead_state s a with h | h
  · rw [h]
  · rw [h]
    rfl

/-! ### The host's turn -/

theorem hostsTurn_of_engineTurn {s : State} (h : s.engineTurn = false) : Claims.hostsTurn s := by
  cases hp : s.phase with
  | idle => exact .inl hp
  | busy =>
    refine .inr fun hdelay => ?_
    rw [(engineTurn_iff s).2 ⟨hp, .inl hdelay⟩] at h
    cases h

end Sys2Proof.Machine
end

section
/-! The obligations on the buffers, on a completion's frame and on the accesses outside the interface. -/

open Sys2Proof Sys2Proof.Machine Sys2Proof.Claims

/-- Settles O12: a success leaves its output specified and within OUT_CAP, and a read answers a specified byte
while IDLE, a free value elsewhere below OUT_CAP, and 0 at or above it. -/
theorem outBufferReads : Obligations.OutBufferReads := by
  refine ⟨?_, ?_⟩
  · intro i s t out a b rest ht hs hb hhost
    obtain ⟨ha, -⟩ := List.getElem?_eq_some_iff.1 hb
    have hfits := exec_succeeded_fits ht hs
    have hread : (t.popHost rest).outRead a = (b, t.popHost rest) :=
      outRead_specified _ a b hs.phase (by rw [State.popHost_outCap, hs.same.outCap]; omega) ((hs.outBytes a).trans hb)
    rw [step_act (.inl hs.phase) hhost, State.act, hread]
  · intro s a rest hturn hhost
    refine ⟨_, ((s.popHost rest).outRead a).1, step_act hturn hhost, ?_, ?_, ?_, ?_⟩
    · rw [State.act, outRead_frame]
      rfl
    · intro ha
      rw [State.act, outRead_above (s.popHost rest) ha]
      exact ⟨rfl, rfl⟩
    · intro ha hidle c hc
      rw [State.act, outRead_specified (s.popHost rest) a c hidle ha hc]
      exact ⟨rfl, rfl⟩
    · intro ha hfree
      rw [State.act, outRead_unspecified (s.popHost rest) ha hfree]
      exact ⟨rfl, rfl⟩

/-- Settles O16: every completion has the frame, and each of its STATUS words has DONE 1 and BUSY 0. -/
theorem completionFrame : Obligations.CompletionFrame := by
  intro i s t ht
  obtain ⟨hsame, hphase, hstatus | ⟨e, hstatus, hlen⟩⟩ := exec_frame_and_status ht
  · refine ⟨hsame, hphase, ?_⟩
    rw [hstatus]
    exact ⟨rfl, rfl, nofun⟩
  · refine ⟨hsame, hphase, ?_⟩
    rw [hstatus]
    exact ⟨statusDone_statusFailed e, statusBusy_statusFailed e, fun _ => hlen⟩

/-- Settles O58: no command is refused and of the host's statements only a raw access can be, exactly where it
stands for no host action. -/
theorem onlyForeignAccessesAreRefused : Obligations.OnlyForeignAccessesAreRefused := by
  refine ⟨fun h => ⟨h.encode_wf, h.decode_encode⟩, ?_, ?_⟩
  · intro s r hr
    rcases step_cases s with ⟨-, e⟩ | ⟨-, -, e⟩ | ⟨hturn, st, rest, hhost, e⟩
    · exact absurd (e.symm.trans hr) (exec_ne_refused _ s r)
    · cases e.symm.trans hr
    · rcases hostStmt_cases (s.popHost rest) st with ⟨t, ht⟩ | ⟨x, rfl, hx, href⟩
      · cases (e.trans ht).symm.trans hr
      · cases (e.trans href).symm.trans hr
        exact ⟨x, rest, rfl, x.decode_eq_none_iff.1 hx, hostsTurn_of_engineTurn hturn, hhost⟩
  · intro s x rest hturn hhost
    rw [step_host s _ rest (engineTurn_of_hostsTurn hturn hhost) hhost]
    refine ⟨fun hwf => ?_, fun hwf => ?_⟩
    · simp [State.hostStmt, x.decode_eq_none_iff.2 hwf]
    · cases hx : x.decode with
      | none => simp [x.decode_eq_none_iff.1 hx] at hwf
      | some h => exact ⟨h, rfl, by simp [State.hostStmt, hx]⟩

/-- Settles O11: the host's turn takes the access; a write below IN_CAP replaces the byte at its address alone. -/
theorem inBufferAccesses : Obligations.InBufferAccesses := by
  refine ⟨?_, ?_⟩
  · intro s a b rest hidle hhost
    refine ⟨_, step_act (.inl hidle) hhost, ?_⟩
    by_cases ha : a < s.inCap.toNat
    · rw [State.act, inWrite_below (s.popHost rest) b hidle ha]
      refine ⟨rfl, fun _ => ?_, fun hge => absurd ha (Nat.not_lt.2 hge), fun c hc => ?_⟩
      · rw [inByte_write, if_pos rfl]
      · rw [inByte_write, if_neg hc, State.popHost_inByte]
    · rw [State.act, inWrite_above (s.popHost rest) b (Nat.not_lt.1 ha)]
      exact ⟨rfl, fun hlt => absurd hlt ha, fun _ => rfl, fun _ _ => rfl⟩
  · intro s a rest hturn hhost
    exact ⟨_, step_act hturn hhost, inRead_below (s.popHost rest), inRead_above (s.popHost rest)⟩
end

section
/-! SUPPORT. The laws of the command encoding (30_encoding.md R80 to R83): the fields of OP, decoding and
encoding as inverses, and where a wider word holds OP. -/

namespace Sys2Proof

/-! ### The fields of OP -/

@[simp] theorem encodeCodec_decodeCodec (c : BitVec 3) : encodeCodec (decodeCodec c) = c := by
  revert c
  decide

@[simp] theorem encodeDir_decodeDir (d : Bool) : encodeDir (decodeDir d) = BitVec.ofBool d := by
  cases d <;> rfl

@[simp] theorem codec_instrOf (c : Codec) (d : Dir) : (instrOf c d).codec = c := by
  cases d <;> cases c <;> rfl

@[simp] theorem dir_instrOf (c : Codec) (d : Dir) : (instrOf c d).dir = d := by
  cases d <;> cases c <;> rfl

theorem encodeCodec_decodeOp (op : BitVec 4) : encodeCodec (decodeOp op).codec = op.extractLsb' 1 3 := by
  rw [decodeOp, codec_instrOf, encodeCodec_decodeCodec, opCodecField]

theorem encodeDir_decodeOp (op : BitVec 4) : encodeDir (decodeOp op).dir = op.extractLsb' 0 1 := by
  rw [decodeOp, dir_instrOf, encodeDir_decodeDir, opDirField, ← BitVec.setWidth_one,
    BitVec.setWidth_eq_extractLsb' (by decide)]

/-! ### Decoding and encoding -/

@[simp] theorem decodeOp_encode (i : Instr) : decodeOp (encode i) = i := by
  cases i <;> rfl

/-- OP is CODEC above DIR (R80), so its two fields are all of it. -/
@[simp] theorem encode_decodeOp (op : BitVec 4) : encode (decodeOp op) = op := by
  rw [encode, encodeCodec_decodeOp, encodeDir_decodeOp]
  exact (BitVec.extractLsb'_append_extractLsb'_eq_extractLsb' rfl).trans BitVec.extractLsb'_eq_self

/-! ### OP in a wider word -/

/-- The low four bits of a whole byte are OP. -/
theorem extractLsb'_ofNat_byte (w : Nat) : (BitVec.ofNat 8 w).extractLsb' 0 4 = BitVec.ofNat 4 w := by
  apply BitVec.eq_of_toNat_eq
  simp only [BitVec.extractLsb'_toNat, BitVec.toNat_ofNat, Nat.shiftRight_zero]
  omega

/-- The bits of a word above its fourth are no part of OP. -/
theorem ofNat_four_mod {nbits : Nat} (w : Nat) (h : 4 ≤ nbits) : BitVec.ofNat 4 (w % 2 ^ nbits) = BitVec.ofNat 4 w := by
  apply BitVec.eq_of_toNat_eq
  simp only [BitVec.toNat_ofNat]
  exact Nat.mod_mod_of_dvd w (Nat.pow_dvd_pow 2 h)

/-- The first byte of a word that is not empty is its low eight bits. -/
theorem tableBytes_of_pos {nbits : Nat} (w : Nat) (h : 0 < nbits) :
    ∃ rest, tableBytes nbits w = BitVec.ofNat 8 w :: rest := by
  obtain ⟨k, hk⟩ : ∃ k, (nbits + 7) / 8 = k + 1 := ⟨(nbits + 7) / 8 - 1, by omega⟩
  rw [tableBytes, hk, List.range_succ_eq_map, List.map_cons, Nat.mul_zero, Nat.pow_zero, Nat.div_one]
  exact ⟨_, rfl⟩

theorem decodeTableWord_of_pos {nbits : Nat} (w : Nat) (h : 0 < nbits) :
    decodeTableWord nbits w = some (decodeOp (BitVec.ofNat 4 w)) := by
  obtain ⟨rest, hbytes⟩ := tableBytes_of_pos w h
  rw [decodeTableWord, hbytes, decodeBytes, extractLsb'_ofNat_byte]

end Sys2Proof

namespace Sys2Proof.Machine

/-! ### The word placed for the engine -/

theorem withFetchWord_opS (s : State) {nbits : Nat} (w : Nat) (h : 4 ≤ nbits) :
    (s.withFetchWord nbits w).opS = BitVec.ofNat 4 w := ofNat_four_mod w h

theorem withFetchWord_engineTurn (s : State) (nbits w : Nat) : (s.withFetchWord nbits w).engineTurn = true :=
  (engineTurn_iff _).2 ⟨rfl, .inl rfl⟩

end Sys2Proof.Machine
end

section
/-! The obligations on decoding and encoding. -/

open Sys2Proof Sys2Proof.Machine

/-- Settles O1: the sixteen rows by evaluation, the two fields of every row by the fields' laws. -/
theorem opcodeMapIsTheTable : Obligations.OpcodeMapIsTheTable :=
  ⟨rfl, rfl, rfl, rfl, rfl, rfl, rfl, rfl, rfl, rfl, rfl, rfl, rfl, rfl, rfl, rfl,
    fun op => ⟨encodeCodec_decodeOp op, encodeDir_decodeOp op⟩⟩

/-- Settles O2: OP is the low four bits of the word, and on four bits decoding and encoding are inverses. -/
theorem decodeAndEncodeAgree : Obligations.DecodeAndEncodeAgree := by
  refine ⟨fun i upper _ => ?_, fun w => encode_decodeOp _⟩
  rw [decodeCmd, BitVec.extractLsb'_append_eq_right, decodeOp_encode]

/-- Settles O5: the word's low four bits stand in OP_S, and the completion step is due at once. -/
theorem fetchWordIsRunByTheNextStep : Obligations.FetchWordIsRunByTheNextStep := by
  intro s nbits w h
  refine ⟨decodeTableWord_of_pos w (by omega), ?_, rfl, rfl, rfl⟩
  rw [step_engine _ (withFetchWord_engineTurn s nbits w), withFetchWord_opS s w h]
end

section
/-! SUPPORT. What a command does with CFG_S: the completion step reads no guard beyond those its codec rule
is given, and leaves CFG_S as it is (30_encoding.md R86). -/

namespace Sys2Proof.Machine

theorem complete_setCfgS (s : State) (c : BitVec 3) (r : Except CmdError (List Byte)) :
    ({ s with cfgS := c } : State).complete r = { s.complete r with cfgS := c } := by
  cases r <;> rfl

/-- One codec rule does the same under any two CFG_S. -/
theorem runCodec_setCfgS (s : State) (c : BitVec 3) (codec : Ram → List Byte → CodecRun) :
    ({ s with cfgS := c } : State).runCodec codec = { s.runCodec codec with cfgS := c } := by
  by_cases h : Claims.inputFits s
  · rw [runCodec_of_inputFits codec h, runCodec_of_inputFits (s := { s with cfgS := c }) codec h]
    exact complete_setCfgS { s with ram := (codec s.ram s.input).ram } c _
  · rw [runCodec_of_not_inputFits codec h, runCodec_of_not_inputFits (s := { s with cfgS := c }) codec h]
    rfl

/-- The guards that a command reads: both Huffman guards for HUF_ENC, the LZW guard for LZW_ENC and LZW_DEC,
and none for any other (30_encoding.md R86). -/
theorem codecRule_setCfgS (s : State) (c : BitVec 3) {i : Instr}
    (hhuf : i = .hufEnc → c.getLsbD 0 = s.cfgS.getLsbD 0 ∧ c.getLsbD 1 = s.cfgS.getLsbD 1)
    (hlzw : i = .lzwEnc ∨ i = .lzwDec → c.getLsbD 2 = s.cfgS.getLsbD 2) :
    codecRule { s with cfgS := c } i = codecRule s i := by
  cases i
  case hufEnc =>
    obtain ⟨hcount, htable⟩ := hhuf rfl
    simp only [codecRule, State.guardHufTable, State.guardHufCount, hcount, htable]
  case lzwEnc => simp only [codecRule, State.guardLzwCode, hlzw (.inl rfl)]
  case lzwDec => simp only [codecRule, State.guardLzwCode, hlzw (.inr rfl)]
  all_goals rfl

end Sys2Proof.Machine
end

section
/-! The obligation on the guard bits a command does not read. -/

open Sys2Proof Sys2Proof.Machine

/-- Settles O18: under both CFG_S the command runs the same codec rule, and neither it nor a reserved command
does anything with CFG_S. -/
theorem unreadGuardBitsHaveNoEffect : Obligations.UnreadGuardBitsHaveNoEffect := by
  intro i s t c hhuf hlzw ht
  rw [exec_eq_codecRule] at ht
  cases ht
  rw [exec_eq_codecRule, codecRule_setCfgS s c hhuf hlzw]
  cases codecRule s i with
  | none => rfl
  | some codec => exact congrArg Host.Outcome.next (runCodec_setCfgS s c codec)
end

section
/-! SUPPORT. The script statements POLL and COPYBACK (30_encoding.md R89): what one step of each does, and the
whole of COPYBACK's loop. -/

namespace Sys2Proof.Machine

/-! ### POLL -/

theorem poll_of_not_busy {s : State} (h : statusBusy s.status = false) : s.poll = s.respond (.word s.status) := by
  have hread : statusBusy (s.regRead HostScript.offStatus) = false := h
  simp only [State.poll, hread]
  rfl

theorem poll_of_busy {s : State} (h : statusBusy s.status = true) :
    s.poll = { s.respond (.word s.status) with host := .poll :: s.host } := by
  have hread : statusBusy (s.regRead HostScript.offStatus) = true := h
  simp only [State.poll, hread]
  rfl

/-! ### COPYBACK, step by step -/

/-- The state after COPYBACK's first action has read OUT_LEN: its loop stands next. -/
def State.copybackRead (s : State) (rest : List HostStmt) : State :=
  { (s.popHost rest).respond (.word s.outLen) with host := .copyLoop 0 s.outLen.toNat :: rest }

theorem step_copyback {s : State} {rest : List HostStmt} (hp : s.phase = .idle) (hh : s.host = .copyback :: rest) :
    step s = .next (s.copybackRead rest) :=
  step_host s _ rest (engineTurn_idle s hp) hh

/-- The state after COPYBACK's loop has read byte `b` from address `i`: its write of that byte stands next. -/
def State.copyRead (s : State) (i n : Nat) (b : Byte) (rest : List HostStmt) : State :=
  { (s.popHost rest).respond (.byte b) with host := .act (.inWrite i b) :: .copyLoop (i + 1) n :: rest }

theorem step_copyLoop_read {s : State} {i n : Nat} {b : Byte} {rest : List HostStmt} (hp : s.phase = .idle)
    (hh : s.host = .copyLoop i n :: rest) (hi : i < n) (hout : i < s.outCap.toNat) (hb : s.outMem.get? i = some b) :
    step s = .next (s.copyRead i n b rest) := by
  have hread : (s.popHost rest).outRead i = (b, s.popHost rest) := outRead_specified _ i b hp hout hb
  rw [step_host s _ rest (engineTurn_idle s hp) hh, State.hostStmt, State.copyLoop, if_pos hi, State.act, hread]
  rfl

/-- The state after COPYBACK's loop has copied byte `b` at address `i`, in two host actions: the rest of the
loop stands next. -/
def State.copiedByte (s : State) (i n : Nat) (b : Byte) (rest : List HostStmt) : State :=
  { s with
    inMem := s.inMem.write i b
    host := .copyLoop (i + 1) n :: rest
    responses := s.responses ++ [.byte b]
    delay := s.delay - 2 }

theorem step_copyRead {s : State} {i n : Nat} {b : Byte} {rest : List HostStmt} (hp : s.phase = .idle)
    (hin : i < s.inCap.toNat) : step (s.copyRead i n b rest) = .next (s.copiedByte i n b rest) := by
  have hwrite := inWrite_below ((s.copyRead i n b rest).popHost (.copyLoop (i + 1) n :: rest)) b hp hin
  rw [step_act (s := s.copyRead i n b rest) (.inl hp) rfl, State.act, hwrite]
  rfl

/-- At the loop's end the length is written. -/
theorem step_copyLoop_end {s : State} {n : Nat} {rest : List HostStmt} (hp : s.phase = .idle)
    (hh : s.host = .copyLoop n n :: rest) :
    step s = .next { s.popHost rest with inLen := BitVec.ofNat 32 n } := by
  rw [step_host s _ rest (engineTurn_idle s hp) hh, State.hostStmt, State.copyLoop, if_neg (Nat.lt_irrefl n),
    State.act, regWrite_idle (s.popHost rest) _ _ hp]
  rfl

/-! ### COPYBACK's loop -/

/-- The state after COPYBACK's loop has copied the bytes `bs` from address `i` upward and written the length
`n`, with the statements `rest` left: two host actions per byte, and one. -/
def State.copiedBack (s : State) (i n : Nat) (bs : List Byte) (rest : List HostStmt) : State :=
  { s with
    inMem := s.inMem.writeAll i bs
    inLen := BitVec.ofNat 32 n
    host := rest
    responses := s.responses ++ bs.map Response.byte
    delay := s.delay - (2 * bs.length + 1) }

/-- Copying one byte and then the bytes after it is copying them all. -/
theorem copiedByte_copiedBack (s : State) (i n : Nat) (b : Byte) (bs : List Byte) (rest : List HostStmt) :
    (s.copiedByte i n b rest).copiedBack (i + 1) n bs rest = s.copiedBack i n (b :: bs) rest := by
  have hdelay : s.delay - 2 - (2 * bs.length + 1) = s.delay - (2 * (bs.length + 1) + 1) := by omega
  simp [State.copiedByte, State.copiedBack, hdelay]

/-- The loop copies the specified bytes from address `i` on, where both buffers have room for them. -/
theorem run_copyLoop {s : State} {i n : Nat} {bs : List Byte} {rest : List HostStmt} (hp : s.phase = .idle)
    (hh : s.host = .copyLoop i n :: rest) (hn : i + bs.length = n)
    (hbs : ∀ k b, bs[k]? = some b → s.outMem.get? (i + k) = some b)
    (hout : n ≤ s.outCap.toNat) (hin : n ≤ s.inCap.toNat) :
    Sys2Proof.core.run (2 * bs.length + 1) s = .next (s.copiedBack i n bs rest) := by
  induction bs generalizing s i with
  | nil =>
    obtain rfl : i = n := hn
    rw [core_run_next _ _ _ (step_copyLoop_end hp hh)]
    simp [Host.Core.run, State.copiedBack, State.popHost]
  | cons b bs ih =>
    rw [List.length_cons] at hn
    have hread : step s = .next (s.copyRead i n b rest) :=
      step_copyLoop_read hp hh (by omega) (by omega) (hbs 0 b rfl)
    have hwrite : step (s.copyRead i n b rest) = .next (s.copiedByte i n b rest) := step_copyRead hp (by omega)
    have hbs' : ∀ k c, bs[k]? = some c → s.outMem.get? (i + 1 + k) = some c := by
      intro k c hk
      rw [Nat.add_assoc, Nat.add_comm 1]
      exact hbs (k + 1) c hk
    rw [List.length_cons, Nat.mul_succ, core_run_next _ _ _ hread]
    refine (core_run_next _ _ _ hwrite).trans ?_
    rw [ih (s := s.copiedByte i n b rest) hp rfl (by omega) hbs' hout hin, copiedByte_copiedBack]

/-- IN_MEM after the loop from address 0, byte by byte. -/
theorem copiedBack_inByte (s : State) (n : Nat) (bs : List Byte) (rest : List HostStmt) (a : Nat) :
    (s.copiedBack 0 n bs rest).inByte a = bs[a]?.getD (s.inByte a) := by
  simp only [State.inByte, State.copiedBack, Memory.get?_writeAll]
  by_cases h : a < bs.length
  · simp [h]
  · simp [h]

end Sys2Proof.Machine
end

section
/-! The obligations on POLL and COPYBACK. -/

open Sys2Proof Sys2Proof.Machine

/-- Settles O59: the host's turn takes POLL, which stands again exactly where the STATUS it read has BUSY 1. -/
theorem pollRepeatsWhileBusy : Obligations.PollRepeatsWhileBusy := by
  intro s rest hturn hhost
  rw [step_host s _ rest (engineTurn_of_hostsTurn hturn hhost) hhost, State.hostStmt]
  refine ⟨fun h => ?_, fun h => ?_⟩
  · rw [poll_of_not_busy (s := s.popHost rest) h]
    rfl
  · rw [poll_of_busy (s := s.popHost rest) h]
    rfl

/-- Settles O60: one step reads OUT_LEN, and the loop that follows copies the whole output from address 0. -/
theorem copybackMovesTheOutputToTheInput : Obligations.CopybackMovesTheOutputToTheInput := by
  intro s out rest hidle hhost hlen hout houtCap hinCap
  have hloop := run_copyLoop (s := s.copybackRead rest) (bs := out) hidle (by rw [State.copybackRead, hlen])
    (Nat.zero_add _) (fun k b hk => by rw [Nat.zero_add, ← hk]; exact hout k) houtCap hinCap
  rw [core_run_next _ _ _ (step_copyback hidle hhost), hloop]
  refine ⟨_, rfl, hidle, rfl, ?_, ?_, ?_, rfl, rfl, rfl, rfl, rfl, ?_⟩
  · have := s.inCap.isLt
    exact Nat.mod_eq_of_lt (by omega)
  · intro a b hb
    rw [copiedBack_inByte, hb, Option.getD_some]
  · intro a ha
    rw [copiedBack_inByte, List.getElem?_eq_none ha]
    rfl
  · simp [State.copiedBack, State.copybackRead]
end

section
/-! SUPPORT. Which commands run a codec (30_encoding.md R84), and what an accepted START leaves
(40_dispatch.md R101). -/

namespace Sys2Proof.Machine

/-! ### The defined and the reserved commands -/

theorem reserved_of_mem_reservedCommands {i : Instr} (h : i ∈ Claims.reservedCommands) : i.reserved = true := by
  revert i
  decide

theorem reserved_of_mem_definedCommands {i : Instr} (h : i ∈ Claims.definedCommands) : i.reserved = false := by
  revert i
  decide

theorem exec_of_mem_reservedCommands {i : Instr} (h : i ∈ Claims.reservedCommands) (s : State) :
    exec i s = .next s.runReserved := by
  rcases exec_cases i s with ⟨-, he⟩ | ⟨hdefined, -⟩
  · exact he
  · cases hdefined.symm.trans (reserved_of_mem_reservedCommands h)

theorem exec_of_mem_definedCommands {i : Instr} (h : i ∈ Claims.definedCommands) (s : State) :
    ∃ codec, exec i s = .next (s.runCodec codec) := by
  rcases exec_cases i s with ⟨hreserved, -⟩ | ⟨-, he⟩
  · cases hreserved.symm.trans (reserved_of_mem_definedCommands h)
  · exact he

/-! ### START -/

/-- While IDLE a write to CTRL with bit 0 set is the accepted START (40_dispatch.md R100). -/
theorem regWrite_start {s : State} {v : Word} (hp : s.phase = .idle) (hv : v.getLsbD 0 = true) :
    s.regWrite 0x04 v = s.acceptStart := by
  rw [regWrite_idle s _ v hp, State.regWriteIdle, if_neg (by decide), if_pos rfl, if_pos hv]

end Sys2Proof.Machine
end

section
/-! The obligations on a step, on START, and on the two errors that come before any buffer access. -/

open Sys2Proof Sys2Proof.Machine Sys2Proof.Claims

/-- Settles O3: the engine's turn is BUSY with the delay over or an empty list. -/
theorem stepRunsTheCommandInOpS : Obligations.StepRunsTheCommandInOpS := by
  rintro s i hbusy hdue rfl
  exact step_engine s ((engineTurn_iff s).2 ⟨hbusy, hdue⟩)

/-- Settles O4: in the host's turn the engine has none, and an IDLE engine never has one. -/
theorem stepTakesTheHostsNextStatement : Obligations.StepTakesTheHostsNextStatement :=
  ⟨fun s st rest hturn hhost => step_host s st rest (engineTurn_of_hostsTurn hturn hhost) hhost,
    fun s hidle hhost => step_wait s (engineTurn_idle s hidle) hhost⟩

/-- Settles O6: the host's turn takes the write, which is the START, and that is the latch apart from the delay
and its draw. -/
theorem acceptedStartLatchesTheSnapshot : Obligations.AcceptedStartLatchesTheSnapshot := by
  intro s v rest hidle hv hhost
  refine ⟨_, step_act (.inl hidle) hhost, ?_⟩
  rw [State.act, regWrite_start (s := s.popHost rest) hidle hv, acceptStart_eq]
  exact ⟨rfl, rfl, rfl, rfl, rfl, rfl, rfl, fun _ => rfl, rfl, rfl, rfl, rfl, rfl, rfl, rfl, rfl, rfl, rfl⟩

/-- Settles O13: a reserved command fails before any buffer access, with error code 1 in STATUS. -/
theorem reservedCommandsComplete : Obligations.ReservedCommandsComplete := by
  intro i hi s
  have hfails := runReserved_fails s
  exact ⟨_, exec_of_mem_reservedCommands hi s, hfails, hfails.status.trans rfl⟩

/-- Settles O14: a defined command runs a codec, and too long an input is found before that, with error code 4. -/
theorem inputAboveCapacityIsRefusedFirst : Obligations.InputAboveCapacityIsRefusedFirst := by
  intro i hi s hlong
  obtain ⟨codec, he⟩ := exec_of_mem_definedCommands hi s
  have hfails := runCodec_tooLong s codec hlong
  exact ⟨_, he, hfails, hfails.status.trans rfl⟩
end

section
/-! SUPPORT. A running command and the host's actions (70_reset_and_hazards.md R286): while BUSY a statement that
is no reset and no access outside the interface changes nothing that the command is about, and a program with no
such statement stays one. -/

namespace Sys2Proof.Machine

/-- `t` runs the command of `s` on the same snapshot, STATUS, input and OUT_MEM. -/
structure SameCommand (s t : State) : Prop where
  phase : t.phase = s.phase
  status : t.status = s.status
  opS : t.opS = s.opS
  cfgS : t.cfgS = s.cfgS
  inLenS : t.inLenS = s.inLenS
  input : t.input = s.input
  outMem : t.outMem = s.outMem

theorem SameCommand.refl (s : State) : SameCommand s s := ⟨rfl, rfl, rfl, rfl, rfl, rfl, rfl⟩

theorem SameCommand.trans {s t u : State} (h : SameCommand s t) (h' : SameCommand t u) : SameCommand s u :=
  ⟨h'.phase.trans h.phase, h'.status.trans h.status, h'.opS.trans h.opS, h'.cfgS.trans h.cfgS,
    h'.inLenS.trans h.inLenS, h'.input.trans h.input, h'.outMem.trans h.outMem⟩

/-- The host's side of a state is no part of its command. -/
theorem sameCommand_hostSide (s : State) (host : List HostStmt) (responses : List Response) (delay draws : Nat) :
    SameCommand s { s with host := host, responses := responses, delay := delay, draws := draws } :=
  ⟨rfl, rfl, rfl, rfl, rfl, rfl, rfl⟩

/-- While BUSY a host action changes the host's responses and the counter of free values at most. -/
theorem act_busy (s : State) (a : HostAction) (h : s.phase = .busy) :
    s.act a = { s with responses := (s.act a).responses, draws := (s.act a).draws } := by
  cases a with
  | regRead off => rfl
  | regWrite off v =>
    rw [State.act, regWrite_busy s off v h]
  | inRead a => rfl
  | inWrite a b =>
    rw [State.act, inWrite_busy s a b h]
  | outRead a =>
    rw [State.act, outRead_frame]
    rfl

/-- Statements put in front of a quiet program, each quiet itself. -/
theorem quietProgram.append {p q : List HostStmt} (hp : quietProgram p) (hq : quietProgram q) : quietProgram (p ++ q) :=
  fun st hst => (List.mem_append.1 hst).elim (hp st) (hq st)

theorem quietProgram_nil : quietProgram [] := nofun

theorem quietProgram.cons {st : HostStmt} {p : List HostStmt} (hp : quietProgram p) (h : st.wf = true ∧ st ≠ .reset) :
    quietProgram (st :: p) := List.forall_mem_cons.2 ⟨h, hp⟩

/-- A well-formed raw access is performed as the host action it stands for. -/
theorem hostStmt_raw (s : State) {x : Access} (h : x.wf = true) : ∃ a, s.hostStmt (.raw x) = .next (s.act a) := by
  cases hx : x.decode with
  | none => cases (x.decode_eq_none_iff.1 hx).symm.trans h
  | some a => exact ⟨a, by rw [State.hostStmt, hx]⟩

/-- While BUSY a statement inside the interface that is no reset has a next state, which differs from the state
before it in the responses, the counter of free values, and quiet statements put in front of the host's list. -/
theorem hostStmt_busy {s : State} {st : HostStmt} (hp : s.phase = .busy) (hst : st.wf = true ∧ st ≠ .reset) :
    ∃ (new : List HostStmt) (responses : List Response) (draws : Nat), quietProgram new ∧
      s.hostStmt st = .next { s with host := new ++ s.host, responses := responses, draws := draws } := by
  have hact (a : HostAction) : ∃ (responses : List Response) (draws : Nat),
      s.act a = { s with responses := responses, draws := draws } := ⟨_, _, act_busy s a hp⟩
  have hquiet := quietProgram_nil.cons hst
  cases st with
  | act a =>
    obtain ⟨responses, draws, ha⟩ := hact a
    exact ⟨[], responses, draws, quietProgram_nil, congrArg Host.Outcome.next ha⟩
  | raw x =>
    obtain ⟨a, hraw⟩ := hostStmt_raw s hst.1
    obtain ⟨responses, draws, ha⟩ := hact a
    exact ⟨[], responses, draws, quietProgram_nil, hraw.trans (congrArg Host.Outcome.next ha)⟩
  | poll =>
    cases hb : statusBusy s.status with
    | true => exact ⟨[.poll], _, _, hquiet, congrArg Host.Outcome.next (poll_of_busy hb)⟩
    | false => exact ⟨[], _, _, quietProgram_nil, congrArg Host.Outcome.next (poll_of_not_busy hb)⟩
  | copyback => exact ⟨[.copyLoop 0 s.outLen.toNat], _, _, quietProgram_nil.cons ⟨rfl, nofun⟩, rfl⟩
  | copyLoop i n =>
    by_cases hi : i < n
    · obtain ⟨responses, draws, ha⟩ := hact (.outRead i)
      have hloop : quietProgram [.copyLoop (i + 1) n] := quietProgram_nil.cons ⟨rfl, nofun⟩
      refine ⟨.act (.inWrite i (s.outRead i).1) :: [.copyLoop (i + 1) n], responses, draws,
        hloop.cons ⟨rfl, nofun⟩, ?_⟩
      rw [State.hostStmt, State.copyLoop, if_pos hi, ha]
      rfl
    · obtain ⟨responses, draws, ha⟩ := hact (.regWrite HostScript.offInLen (BitVec.ofNat 32 n))
      refine ⟨[], responses, draws, quietProgram_nil, ?_⟩
      rw [State.hostStmt, State.copyLoop, if_neg hi, ha]
      rfl
  | reset => exact absurd rfl hst.2

/-- While BUSY, before the engine's turn, a quiet program takes a step that counts one host action off and leaves
the command and the program's quietness. -/
theorem step_busy {s : State} (hp : s.phase = .busy) (hq : quietProgram s.host) (hturn : s.engineTurn = false) :
    ∃ t, step s = .next t ∧ SameCommand s t ∧ t.delay = s.delay - 1 ∧ quietProgram t.host := by
  cases hh : s.host with
  | nil => cases ((engineTurn_iff s).2 ⟨hp, .inr hh⟩).symm.trans hturn
  | cons st rest =>
    rw [hh] at hq
    obtain ⟨new, responses, draws, hnew, hstmt⟩ :=
      hostStmt_busy (s := s.popHost rest) hp (hq st List.mem_cons_self)
    exact ⟨_, (step_host s st rest hturn hh).trans hstmt, sameCommand_hostSide s _ _ _ _, rfl,
      hnew.append fun x hx => hq x (List.mem_cons_of_mem st hx)⟩

/-- A quiet program lets the engine's turn come within the delay, on the command as it was started. -/
theorem run_to_engineTurn {s : State} (hp : s.phase = .busy) (hq : quietProgram s.host) :
    ∃ (k : Nat) (u : State), k ≤ s.delay ∧ Sys2Proof.core.run k s = .next u ∧ u.engineTurn = true ∧
      SameCommand s u := by
  induction hd : s.delay generalizing s with
  | zero => exact ⟨0, s, Nat.le_refl 0, rfl, (engineTurn_iff s).2 ⟨hp, .inl hd⟩, .refl s⟩
  | succ d ih =>
    cases hturn : s.engineTurn with
    | true => exact ⟨0, s, Nat.zero_le _, rfl, hturn, .refl s⟩
    | false =>
      obtain ⟨t, hstep, hsame, hdelay, hquiet⟩ := step_busy hp hq hturn
      obtain ⟨k, u, hk, hrun, hu, hsame'⟩ := ih (hsame.phase.trans hp) hquiet (by omega)
      exact ⟨k + 1, u, Nat.succ_le_succ hk, (core_run_next s t k hstep).trans hrun, hu, hsame.trans hsame'⟩

end Sys2Proof.Machine
end

section
/-! The obligation on a running command's completion. -/

open Sys2Proof Sys2Proof.Machine

/-- Settles O57, by induction on the delay: each host action counts one off and leaves the command alone. -/
theorem engineCompletesAfterFinitelyManyActions : Obligations.EngineCompletesAfterFinitelyManyActions := by
  intro s hbusy hquiet
  obtain ⟨k, u, hk, hrun, hturn, hsame⟩ := run_to_engineTurn hbusy hquiet
  have hstep := step_engine u hturn
  rw [hsame.opS] at hstep
  exact ⟨k, u, hk, hrun, hturn, hstep, hsame.opS, hsame.cfgS, hsame.inLenS, hsame.status, hsame.input, hsame.outMem⟩
end

section
/-! SUPPORT. What the run-length, Golomb and LZW rules emit, in the terms of the claims: pairs of value and count
(42_rle.md R140), codewords (44_golomb.md R201 to R203), and the codes of a stream (45_lzw.md R221). -/

namespace Sys2Proof.Machine

/-! ### Run lengths -/

theorem length_flatMap_pair (pairs : List (Byte × Byte)) :
    (pairs.flatMap (fun p => [p.1, p.2])).length = 2 * pairs.length := by
  simp [List.length_flatMap, Nat.mul_comm]

theorem rleExpand_pairs (pairs : List (Byte × Byte)) :
    rleExpand (pairs.flatMap (fun p => [p.1, p.2])) = pairs.flatMap (fun p => List.replicate p.2.toNat p.1) := by
  induction pairs with
  | nil => rfl
  | cons p pairs ih => exact congrArg (List.replicate p.2.toNat p.1 ++ ·) ih

/-- RLE_DEC on byte pairs emits each value as often as its count says. -/
theorem rleDec_pairs (ram : Ram) (pairs : List (Byte × Byte)) :
    rleDec ram (pairs.flatMap (fun p => [p.1, p.2])) =
      ⟨pairs.flatMap (fun p => List.replicate p.2.toNat p.1), none, ram⟩ := by
  rw [rleDec, if_neg (by rw [length_flatMap_pair]; omega), rleExpand_pairs]

/-- The bytes that pairs stand for are as many as their counts add up to. -/
theorem length_flatMap_replicate_count (pairs : List (Byte × Byte)) :
    (pairs.flatMap (fun p => List.replicate p.2.toNat p.1)).length = (pairs.map (fun p => p.2.toNat)).sum := by
  simp [List.length_flatMap]

/-! ### Golomb codewords -/

/-- The remainder's two bits are the byte's two low bits. -/
theorem bitsMSB_remainder (v : Byte) : bitsMSB (v.toNat % 4) 2 = [v.getLsbD 1, v.getLsbD 0] := by
  revert v
  decide

theorem remainder_bytes (v : Byte) :
    [BitVec.ofNat 8 (v.toNat % 4 / 2), BitVec.ofNat 8 (v.toNat % 2)] = [bitByte (v.getLsbD 1), bitByte (v.getLsbD 0)] := by
  revert v
  decide

theorem golWord_eq (v : Byte) :
    Claims.golWord v = List.replicate (v.toNat / 4) 0x01#8 ++ [0x00#8, bitByte (v.getLsbD 1), bitByte (v.getLsbD 0)] := by
  rw [Claims.golWord, remainder_bytes]

/-- A codeword's bits as bytes are the codeword. -/
theorem golCode_map_bitByte (v : Byte) : (golCode v).map bitByte = Claims.golWord v := by
  rw [golWord_eq, golCode, bitsMSB_remainder]
  simp [bitByte]

@[simp] theorem golBytes_eq (xs : List Byte) : golBytes xs = xs.flatMap Claims.golWord := by
  induction xs with
  | nil => rfl
  | cons v xs ih => rw [golBytes, ih, golCode_map_bitByte, List.flatMap_cons]

/-- `n` ones, a zero and two bit bytes end a codeword, where the quotient stays within 63 (44_golomb.md R203). -/
theorem golDecode_ones (q : Option Nat) (n : Nat) (x1 x0 : Bool) (rest : List Byte) (hn : q.getD 0 + n ≤ 63) :
    golDecode q (List.replicate n 0x01#8 ++ 0x00#8 :: bitByte x1 :: bitByte x0 :: rest) =
      (golDecode none rest).before (BitVec.ofNat 8 (4 * (q.getD 0 + n) + (2 * x1.toNat + x0.toNat))) := by
  induction n generalizing q with
  | zero => exact golDecode_zero q x1 x0 rest
  | succ n ih =>
    rw [List.replicate_succ, List.cons_append, golDecode_one, if_neg (by omega), ih _ (by simp; omega)]
    simp [Nat.add_assoc, Nat.add_comm 1]

/-- A byte is its quotient by four and its two low bits. -/
theorem ofNat_quotient_remainder (v : Byte) :
    BitVec.ofNat 8 (4 * (v.toNat / 4) + (2 * (v.getLsbD 1).toNat + (v.getLsbD 0).toNat)) = v := by
  revert v
  decide

/-- GOL_DEC reads a codeword as its byte. -/
theorem golDecode_golWord (v : Byte) (rest : List Byte) :
    golDecode none (Claims.golWord v ++ rest) = (golDecode none rest).before v := by
  have hq : (none : Option Nat).getD 0 + v.toNat / 4 ≤ 63 := by
    rw [Option.getD_none]
    have := v.isLt
    omega
  rw [golWord_eq, List.append_assoc]
  refine (golDecode_ones none _ _ _ rest hq).trans ?_
  rw [Option.getD_none, Nat.zero_add, ofNat_quotient_remainder]

theorem golDecode_golWords_out (xs rest : List Byte) :
    (golDecode none (xs.flatMap Claims.golWord ++ rest)).out = xs ++ (golDecode none rest).out := by
  induction xs with
  | nil => rfl
  | cons v xs ih => rw [List.flatMap_cons, List.append_assoc, golDecode_golWord, Trace.before_out, ih, List.cons_append]

/-! ### LZW codes -/

theorem unBE16_be16 {k : Nat} (hk : k < 65536) :
    unBE16 (BitVec.ofNat 8 (k / 256 % 256)) (BitVec.ofNat 8 (k % 256)) = k := by
  simp only [unBE16, BitVec.toNat_ofNat]
  omega

theorem lzwReadCodes_be16 {ks : List Nat} (hks : ∀ k ∈ ks, k < 65536) : lzwReadCodes (ks.flatMap be16) = ks := by
  induction ks with
  | nil => rfl
  | cons k ks ih =>
    obtain ⟨hk, hks⟩ := List.forall_mem_cons.1 hks
    exact congrArg₂ List.cons (unBE16_be16 hk) (ih hks)

theorem length_flatMap_be16 (ks : List Nat) : (ks.flatMap be16).length = 2 * ks.length := by
  simp [List.length_flatMap, Nat.mul_comm]

/-- LZW_ENC's output is two bytes for each code of its loop. -/
theorem lzwEnc_out_length (guard : Bool) (cap : Nat) (ram : Ram) (xs : List Byte) :
    (lzwEnc guard cap ram xs).out.length = 2 * (lzwCodes guard cap [] lzwInit xs).out.length := by
  rw [← length_flatMap_be16, ← lzwStream_eq]
  rfl

/-- LZW_DEC on a stream of 16-bit codes emits what its loop gives for them. -/
theorem lzwDec_be16_out (guard : Bool) (cap : Nat) (ram : Ram) {ks : List Nat} (hks : ∀ k ∈ ks, k < 65536) :
    (lzwDec guard cap ram (ks.flatMap be16)).out = (lzwDecodeCodes guard cap ks).out := by
  cases ks with
  | nil => rfl
  | cons k ks =>
    rw [lzwDec, if_neg (by rw [length_flatMap_be16]; omega), if_neg (by simp [be16]), lzwReadCodes_be16 hks]

end Sys2Proof.Machine
end

section
/-! SUPPORT. HUF_ENC before its output (43_huffman.md R160, R165, R167): the frequency table is the symbols'
counts, the guards read those counts, and the code table holds the codes of the tree. -/

namespace Sys2Proof.Machine

/-! ### The frequency table -/

/-- Counting one byte adds one to its own counter, modulo the counter's width, and to no other. -/
theorem ftGet_ftCount {ft : List (BitVec Config.countW)} (hft : ft.length = 256) (x b : Byte) :
    ftGet (ftCount ft x) b = (ftGet ft b + if x = b then 1 else 0) % 2 ^ 32 := by
  have hb : b.toNat < ft.length := hft ▸ b.isLt
  have hx : x.toNat = b.toNat ↔ x = b := BitVec.toNat_inj
  by_cases h : x = b
  · subst h
    simp [ftGet, ftCount, hb, Config.countW]
  · have hlt : ftGet ft b < 2 ^ 32 := (ft.getD b.toNat 0#32).isLt
    rw [if_neg h, Nat.add_zero, Nat.mod_eq_of_lt hlt]
    simp [ftGet, ftCount, mt hx.1 h]

/-- The loop of BuildFT adds each byte's count to its counter. -/
theorem ftGet_foldl (ft : List (BitVec Config.countW)) (hft : ft.length = 256) (xs : List Byte) (b : Byte) :
    ftGet (xs.foldl ftCount ft) b = (ftGet ft b + xs.count b) % 2 ^ 32 := by
  induction xs generalizing ft with
  | nil => exact (Nat.mod_eq_of_lt (ft.getD b.toNat 0#32).isLt).symm
  | cons x xs ih =>
    rw [List.foldl_cons, ih _ (by rw [ftCount_length, hft]), ftGet_ftCount hft, List.count_cons]
    simp only [beq_iff_eq]
    omega

/-- Every counter is the exact count where the input is shorter than a counter can count. -/
theorem ftGet_buildFT {xs : List Byte} (hxs : xs.length < 2 ^ 32) (b : Byte) : ftGet (buildFT xs) b = xs.count b := by
  have hclear : ftGet ftClear b = 0 := by simp [ftGet, ftClear]
  have hcount := List.count_le_length (a := b) (l := xs)
  rw [buildFT, ftGet_foldl _ (by simp [ftClear]), hclear, Nat.zero_add, Nat.mod_eq_of_lt (by omega)]

theorem ftSymbols_buildFT {xs : List Byte} (hxs : xs.length < 2 ^ 32) :
    ftSymbols (buildFT xs) = ((List.range 256).map (BitVec.ofNat 8)).filter (fun b => decide (b ∈ xs)) := by
  refine List.filter_congr fun b _ => ?_
  rw [ftGet_buildFT hxs, decide_eq_decide]
  exact List.count_pos_iff

theorem ftTable_buildFT {xs : List Byte} (hxs : xs.length < 2 ^ 32) : ftTable (buildFT xs) = Claims.symbolCounts xs := by
  rw [ftTable, ftSymbols_buildFT hxs]
  exact List.map_congr_left fun b _ => by rw [ftGet_buildFT hxs]

/-! ### The guards -/

/-- A counter stands at the place of its byte value. -/
theorem any_ft_iff {ft : List (BitVec Config.countW)} (hft : ft.length = 256) (p : Nat → Bool) :
    ft.any (fun c => p c.toNat) = true ↔ ∃ b : Byte, p (ftGet ft b) = true := by
  rw [List.any_eq_true]
  constructor
  · rintro ⟨c, hc, hp⟩
    obtain ⟨k, hk, rfl⟩ := List.getElem_of_mem hc
    have hb : (BitVec.ofNat 8 k).toNat = k := Nat.mod_eq_of_lt (by omega)
    refine ⟨BitVec.ofNat 8 k, ?_⟩
    rwa [ftGet, hb, List.getD_eq_getElem _ _ hk]
  · rintro ⟨b, hp⟩
    have hb : b.toNat < ft.length := hft ▸ b.isLt
    rw [ftGet, List.getD_eq_getElem _ _ hb] at hp
    exact ⟨_, List.getElem_mem hb, hp⟩

theorem hufGuards_eq_none_iff (guardTable guardCount : Bool) (ft : List (BitVec Config.countW)) :
    hufGuards guardTable guardCount ft = none ↔
      ¬ (guardTable = true ∧ (ftSymbols ft).length = 256) ∧
      ¬ (guardCount = true ∧ ft.any (fun c => decide (c.toNat > 255)) = true) := by
  rw [hufGuards]
  split_ifs with htable hcount
  · exact iff_of_false nofun fun h => h.1 htable
  · exact iff_of_false nofun fun h => h.2 hcount
  · exact iff_of_true rfl ⟨htable, hcount⟩

/-- No error is raised exactly where no guard that is set applies to the input (R167). -/
theorem hufGuards_buildFT_eq_none_iff (guardTable guardCount : Bool) {xs : List Byte} (hxs : xs.length < 2 ^ 32) :
    hufGuards guardTable guardCount (buildFT xs) = none ↔
      (guardTable = true → (Claims.symbolCounts xs).length ≠ 256) ∧ (guardCount = true → ∀ b, xs.count b ≤ 255) := by
  have hlen : (ftSymbols (buildFT xs)).length = (Claims.symbolCounts xs).length := by
    rw [← ftTable_buildFT hxs, ftTable, List.length_map]
  have hany : (buildFT xs).any (fun c => decide (c.toNat > 255)) = true ↔ ∃ b, xs.count b > 255 := by
    rw [any_ft_iff (buildFT_length xs) fun n => decide (n > 255)]
    simp only [ftGet_buildFT hxs, decide_eq_true_iff]
  rw [hufGuards_eq_none_iff, hlen, hany, not_and, not_and, not_exists]
  simp only [Nat.not_lt, gt_iff_lt]

/-! ### The code table -/

theorem codeGet_codeTableOf (root : HuffTree) (b : Byte) : codeGet (codeTableOf root) b = Claims.codeOf root b := by
  have hb : b.toNat < Config.alphabetSize := b.isLt
  simp [codeGet, codeTableOf, Claims.codeOf, List.getD_eq_getElem?_getD, hb]

theorem encodeBits_codeTableOf (root : HuffTree) (xs : List Byte) :
    encodeBits (codeTableOf root) xs = Claims.codeBits root xs := by
  induction xs with
  | nil => rfl
  | cons x xs ih => rw [encodeBits, ih, codeGet_codeTableOf, Claims.codeBits, Claims.codeBits, List.flatMap_cons]

/-- HUF_ENC on a non-empty input that no guard refuses: the stream of its table and its codes, and the RAMs that it
leaves. -/
theorem hufEnc_eq {guardTable guardCount : Bool} (ram : Ram) {xs : List Byte} {root : HuffTree} (hne : xs ≠ [])
    (hxs : xs.length < 2 ^ 32) (hguard : hufGuards guardTable guardCount (buildFT xs) = none)
    (hroot : buildTree (Claims.symbolCounts xs) = some root) :
    hufEnc guardTable guardCount ram xs =
      ⟨hufStream (Claims.symbolCounts xs) (Claims.codeBits root xs), none,
        { ram with ft := buildFT xs, arena := some root, codeTable := codeTableOf root }⟩ := by
  rw [hufEnc, if_neg hne]
  simp only [hguard, ftTable_buildFT hxs, hroot, encodeBits_codeTableOf]

theorem hufStream_length (t : List (Byte × Nat)) (bits : Bits) :
    (hufStream t bits).length = 2 + 2 * t.length + (bits.length + 7) / 8 := by
  have hpack := packMSB_length bits
  simp only [hufStream, List.length_cons, List.length_append, hufPairs_length, hpack]
  omega

end Sys2Proof.Machine
end

section
/-! SUPPORT. The tree of a table and its codes (43_huffman.md R164, R165): the tree's symbols are the table's, and
the walk of HufDecodeBits along the code of a symbol emits that symbol (R170). -/

namespace Sys2Proof.Machine

/-! ### The symbols of a tree -/

/-- The symbols at a tree's leaves, from left to right. -/
def HuffTree.symbols : HuffTree → List Byte
  | .leaf s _ _ => [s]
  | .node _ _ l r => l.symbols ++ r.symbols

@[simp] theorem symbols_leaf (s : Byte) (f k : Nat) : (HuffTree.leaf s f k).symbols = [s] := rfl
@[simp] theorem symbols_node (f k : Nat) (l r : HuffTree) : (HuffTree.node f k l r).symbols = l.symbols ++ r.symbols := rfl

theorem walkCodes_map_fst (t : HuffTree) (p : Bits) : (walkCodes t p).map Prod.fst = t.symbols := by
  induction t generalizing p with
  | leaf s f k => rfl
  | node f k l r hl hr => rw [walkCodes, List.map_append, hl, hr, symbols_node]

/-- The code table assigns a code to each leaf's symbol. -/
theorem codesOf_map_fst (t : HuffTree) : (codesOf t).map Prod.fst = t.symbols := by
  cases t with
  | leaf s f k => rfl
  | node f k l r => exact walkCodes_map_fst _ _

/-- A symbol of the tree stands with its code among the assignments. -/
theorem mem_codesOf_codeOf {root : HuffTree} {y : Byte} (hy : y ∈ root.symbols) :
    (y, Claims.codeOf root y) ∈ codesOf root := by
  rw [← codesOf_map_fst] at hy
  cases hlookup : (codesOf root).lookup y with
  | none =>
    obtain ⟨c, hc, rfl⟩ := List.mem_map.1 hy
    exact absurd (List.lookup_eq_none_iff.1 hlookup c hc) (by simp)
  | some p =>
    obtain ⟨l₁, l₂, hl, -⟩ := List.lookup_eq_some_iff.1 hlookup
    rw [Claims.codeOf, hlookup, hl]
    simp

/-! ### BuildTree keeps the symbols -/

/-- Removing the least element and putting it back gives the same set. -/
theorem popLeast_perm (a : HuffTree) (q : List HuffTree) : ((popLeast a q).1 :: (popLeast a q).2).Perm (a :: q) := by
  induction q generalizing a with
  | nil => rfl
  | cons b q ih =>
    rw [popLeast]
    split
    · exact (List.Perm.swap _ _ _).trans ((ih b).cons a)
    · exact (List.Perm.swap _ _ _).trans (((ih a).cons b).trans (List.Perm.swap _ _ _))

/-- The merge of the two least elements (R164): an iteration removes two elements and puts back their node. -/
theorem mergeLoop_succ (fuel next : Nat) (q0 q1 : HuffTree) (q : List HuffTree) :
    ∃ a b rest, (a :: b :: rest).Perm (q0 :: q1 :: q) ∧
      mergeLoop (fuel + 1) next (q0 :: q1 :: q) = mergeLoop fuel (next + 1) (.node (a.freq + b.freq) next a b :: rest) := by
  have hpop := popLeast_perm q0 (q1 :: q)
  have hlen := popLeast_length q0 (q1 :: q)
  rw [mergeLoop]
  cases hleast : popLeast q0 (q1 :: q) with
  | mk a others =>
    rw [hleast] at hpop hlen
    cases others with
    | nil => cases hlen
    | cons r0 r => exact ⟨a, _, _, ((popLeast_perm r0 r).cons a).trans hpop, rfl⟩

theorem mergeLoop_symbols {fuel next : Nat} {q : List HuffTree} {root : HuffTree}
    (h : mergeLoop fuel next q = some root) : root.symbols.Perm (q.flatMap HuffTree.symbols) := by
  induction fuel generalizing next q with
  | zero =>
    match q, h with
    | [t], h => cases h; simp
  | succ fuel ih =>
    match q, h with
    | [t], h => cases h; simp
    | q0 :: q1 :: q, h =>
      obtain ⟨a, b, rest, hperm, hmerge⟩ := mergeLoop_succ fuel next q0 q1 q
      refine (ih (hmerge.symm.trans h)).trans (List.Perm.trans ?_ (hperm.flatMap_right HuffTree.symbols))
      simp

theorem huffLeaves_symbols (k : Nat) (t : List (Byte × Nat)) :
    (huffLeaves k t).flatMap HuffTree.symbols = t.map Prod.fst := by
  induction t generalizing k with
  | nil => rfl
  | cons p t ih => simp [huffLeaves, ih]

/-- The leaves of BuildTree's tree are the table's symbols. -/
theorem buildTree_symbols {t : List (Byte × Nat)} {root : HuffTree} (h : buildTree t = some root) :
    root.symbols.Perm (t.map Prod.fst) :=
  (mergeLoop_symbols h).trans (by rw [huffLeaves_symbols])

/-! ### The decoder's walk -/

/-- A walk's paths continue the path it starts with. -/
theorem walkCodes_append (t : HuffTree) (p q : Bits) :
    walkCodes t (p ++ q) = (walkCodes t q).map (fun c => (c.1, p ++ c.2)) := by
  induction t generalizing q with
  | leaf s f k => rfl
  | node f k l r hl hr => simp only [walkCodes, List.append_assoc, hl, hr, List.map_append]

/-- The path to a leaf below a node begins with the bit of a child, and goes on with the path from there. -/
theorem mem_walkCodes_node {f k : Nat} {l r : HuffTree} {y : Byte} {p : Bits}
    (h : (y, p) ∈ walkCodes (.node f k l r) []) :
    ∃ x q, p = x :: q ∧ (y, q) ∈ walkCodes ((HuffTree.node f k l r).child x) [] := by
  rw [walkCodes, List.nil_append, List.nil_append, List.mem_append, ← List.append_nil [false], walkCodes_append,
    ← List.append_nil [true], walkCodes_append, List.mem_map, List.mem_map] at h
  rcases h with ⟨c, hc, he⟩ | ⟨c, hc, he⟩
  · cases he
    exact ⟨false, c.2, rfl, hc⟩
  · cases he
    exact ⟨true, c.2, rfl, hc⟩

/-- From a node the walk along the path to a leaf emits the leaf's symbol and starts again at the root. -/
theorem decodeWalk_path (root : HuffTree) {f k : Nat} {l r : HuffTree} {y : Byte} {p : Bits} (bits : Bits)
    (h : (y, p) ∈ walkCodes (.node f k l r) []) :
    decodeWalk root (.node f k l r) (p ++ bits) = (decodeWalk root root bits).before y := by
  induction p generalizing f k l r with
  | nil =>
    obtain ⟨x, q, hnil, -⟩ := mem_walkCodes_node h
    cases hnil
  | cons x p ih =>
    obtain ⟨x', q, hcons, hq⟩ := mem_walkCodes_node h
    cases hcons
    rw [List.cons_append, decodeWalk]
    cases hchild : (HuffTree.node f k l r).child x with
    | leaf s f' k' =>
      rw [hchild, walkCodes, List.mem_singleton] at hq
      cases hq
      rfl
    | node f' k' l' r' =>
      rw [hchild] at hq
      exact ih hq

/-- HufDecodeBits reads the code of a symbol as that symbol (R166, R170). -/
theorem hufDecodeBits_codeOf {root : HuffTree} {y : Byte} (hy : y ∈ root.symbols) (bits : Bits) :
    hufDecodeBits root (Claims.codeOf root y ++ bits) = (hufDecodeBits root bits).before y := by
  have hcode := mem_codesOf_codeOf hy
  cases root with
  | leaf s f k =>
    rw [codesOf, List.mem_singleton, Prod.mk.injEq] at hcode
    obtain ⟨rfl, hcode⟩ := hcode
    rw [hcode]
    rfl
  | node f k l r => exact decodeWalk_path _ bits hcode

/-- The codes of any symbols of the tree come first in the output, whatever bits follow them. -/
theorem hufDecodeBits_codeBits_out {root : HuffTree} {ys : List Byte} (hys : ∀ y ∈ ys, y ∈ root.symbols) (bits : Bits) :
    (hufDecodeBits root (Claims.codeBits root ys ++ bits)).out = ys ++ (hufDecodeBits root bits).out := by
  induction ys with
  | nil => rfl
  | cons y ys ih =>
    obtain ⟨hy, hys⟩ := List.forall_mem_cons.1 hys
    rw [Claims.codeBits, List.flatMap_cons, List.append_assoc, hufDecodeBits_codeOf hy, Trace.before_out]
    exact congrArg (y :: ·) (ih hys)

end Sys2Proof.Machine
end

section
/-! SUPPORT. HUF_DEC on a stream with a valid header and table (43_huffman.md R169 to R171). -/

namespace Sys2Proof.Machine

/-- HufParse's table loop reads distinct symbols, none of them seen before, with their counts. -/
theorem parseTable_tablePairs {tab : List (Byte × Byte)} {seen payload : List Byte} (hnodup : (tab.map Prod.fst).Nodup)
    (hseen : ∀ p ∈ tab, p.1 ∉ seen) :
    parseTable tab.length seen (Claims.tablePairs tab ++ payload) = some (Claims.tableCounts tab, payload) := by
  induction tab generalizing seen with
  | nil => rfl
  | cons p tab ih =>
    obtain ⟨hp, hseen⟩ := List.forall_mem_cons.1 hseen
    obtain ⟨hfresh, hnodup⟩ := List.nodup_cons.1 hnodup
    have hseen' : ∀ p' ∈ tab, p'.1 ∉ p.1 :: seen := by
      intro p' hp' hmem
      rcases List.mem_cons.1 hmem with heq | hmem
      · exact hfresh (heq ▸ List.mem_map_of_mem hp')
      · exact hseen p' hp' hmem
    have hpairs : Claims.tablePairs (p :: tab) ++ payload = p.1 :: p.2 :: (Claims.tablePairs tab ++ payload) := rfl
    rw [List.length_cons, hpairs, parseTable, if_neg hp, ih hnodup hseen']
    rfl

/-- HufParse gives the table and the bits of a valid stream. -/
theorem hufParse_of_valid {xs : List Byte} {tab : List (Byte × Byte)} {bits : Bits}
    (h : Claims.validHufStream xs tab bits) : hufParse xs = .ok (Claims.tableCounts tab, bits) := by
  obtain ⟨pad, size, payload, rfl, hsize, hnodup, hpad, hfill, rfl⟩ := h
  have hlen : ¬ (Claims.tablePairs tab ++ payload).length < 2 * size.toNat := by
    rw [List.length_append, Claims.tablePairs, length_flatMap_pair]
    omega
  have hparse := parseTable_tablePairs (payload := payload) hnodup fun _ _ => List.not_mem_nil
  rw [hufParse, if_neg (Nat.not_lt.2 hpad), if_neg hlen, ← hsize, hparse]
  simp only
  rw [if_neg (Nat.not_lt.2 hfill)]

/-- HUF_DEC on a valid stream whose table has a tree: the walk of HufDecodeBits over the stream's bits. -/
theorem hufDec_of_valid {xs : List Byte} {tab : List (Byte × Byte)} {bits : Bits} {root : HuffTree} (ram : Ram)
    (h : Claims.validHufStream xs tab bits) (hroot : buildTree (sortTable (Claims.tableCounts tab)) = some root) :
    hufDec ram xs = (hufDecodeBits root bits).toRun { ram with arena := some root } := by
  rw [hufDec, hufParse_of_valid h]
  simp only [hroot]

/-- The tree of a stream's sorted table has the table's symbols. -/
theorem mem_symbols_sortTable {tab : List (Byte × Byte)} {root : HuffTree}
    (hroot : buildTree (sortTable (Claims.tableCounts tab)) = some root) (y : Byte) :
    y ∈ root.symbols ↔ y ∈ tab.map Prod.fst := by
  have hsorted : (sortTable (Claims.tableCounts tab)).Perm (Claims.tableCounts tab) := List.perm_insertionSort _ _
  rw [((buildTree_symbols hroot).trans (hsorted.map Prod.fst)).mem_iff, Claims.tableCounts, List.map_map]
  rfl

end Sys2Proof.Machine
end

section
/-! The obligation on an output that does not fit. -/

open Sys2Proof Sys2Proof.Machine Sys2Proof.Claims

/-- Settles O15: in each case the codec rule emits at least the bytes counted, whatever error it raises after them,
and an output above OUT_CAP is found by Emit first. -/
theorem outputAboveCapacityFails : Obligations.OutputAboveCapacityFails := by
  intro s hfits
  have hoverflow {codec : Ram → List Byte → CodecRun} {n : Nat} (hn : s.outCap.toNat < n)
      (hout : n ≤ (codec s.ram s.input).out.length) : FailedInCodec s (s.runCodec codec) .capacityExceeded :=
    runCodec_overflows s codec hfits (Nat.lt_of_lt_of_le hn hout)
  have hshort : s.input.length < 2 ^ 32 := by
    rw [input_length]
    exact s.inLenS.isLt
  refine ⟨fun hlong => ⟨_, rfl, hoverflow hlong ?rleEnc⟩, fun pairs hinput hlong => ⟨_, rfl, hoverflow hlong ?rleDec⟩,
    fun hlong => ⟨_, rfl, hoverflow hlong ?golEnc⟩, fun xs rest hinput hlong => ⟨_, rfl, hoverflow hlong ?golDec⟩,
    fun hlong => ⟨_, rfl, hoverflow hlong ?lzwEnc⟩, fun ks hinput hks hlong => ⟨_, rfl, hoverflow hlong ?lzwDec⟩,
    fun hempty hlong => ⟨_, rfl, hoverflow hlong ?hufEncEmpty⟩,
    fun root hne hunguarded hroot hlong => ⟨_, rfl, hoverflow hlong ?hufEnc⟩,
    fun tab root ys rest hroot hys hvalid hlong => ⟨_, rfl, hoverflow hlong ?hufDec⟩⟩
  case rleEnc => exact Nat.le_refl _
  case rleDec => rw [hinput, rleDec_pairs, length_flatMap_replicate_count]
  case golEnc => rw [golEnc, golBytes_eq]
  case golDec =>
    rw [hinput, golDec, Trace.toRun_out, golDecode_golWords_out, List.length_append]
    exact Nat.le_add_right _ _
  case lzwEnc => rw [lzwEnc_out_length, lzwEncEnd]
  case lzwDec => rw [hinput, lzwDec_be16_out _ _ _ hks]
  case hufEncEmpty =>
    rw [hempty]
    exact Nat.le_refl 2
  case hufEnc =>
    have hguard := (hufGuards_buildFT_eq_none_iff s.guardHufTable s.guardHufCount hshort).2 hunguarded
    rw [hufEnc_eq s.ram hne hshort hguard hroot, hufStream_length, hufEncLength]
  case hufDec =>
    have hsymbols : ∀ y ∈ ys, y ∈ root.symbols := fun y hy => (mem_symbols_sortTable hroot y).2 (hys y hy)
    rw [hufDec_of_valid s.ram hvalid hroot, Trace.toRun_out, hufDecodeBits_codeBits_out hsymbols, List.length_append]
    exact Nat.le_add_right _ _
end

section
/-! SUPPORT. Packing and unpacking bit strings, and two-byte codes (41_bitstream.md R120 to R125). -/

namespace Sys2Proof.Machine

/-! ### Bits of a number and of a byte sequence -/

/-- Bit `j` of `w` bits, most significant first, is bit `w - 1 - j` of the number. -/
theorem bitsMSB_getElem? (v : Nat) {w j : Nat} (hj : j < w) : (bitsMSB v w)[j]? = some (v.testBit (w - 1 - j)) := by
  induction w generalizing j with
  | zero => exact absurd hj (Nat.not_lt_zero j)
  | succ w ih =>
    rw [bitsMSB]
    cases j with
    | zero => rw [List.getElem?_cons_zero, Nat.testBit_eq_decide_div_mod_eq, Nat.add_sub_cancel, Nat.sub_zero]
    | succ j => rw [List.getElem?_cons_succ, ih (Nat.lt_of_succ_lt_succ hj), show w + 1 - 1 - (j + 1) = w - 1 - j by omega]

theorem unpackMSB_length (p : List Byte) : (unpackMSB p).length = 8 * p.length := by
  induction p with
  | nil => rfl
  | cons b p ih =>
    rw [unpackMSB_cons, List.length_append, bitsMSB_length, ih, List.length_cons]
    omega

theorem unpackMSB_getElem? {p : List Byte} {i j : Nat} {b : Byte} (hj : j < 8) (hb : p[i]? = some b) :
    (unpackMSB p)[8 * i + j]? = some (b.getLsbD (7 - j)) := by
  induction p generalizing i with
  | nil => cases hb
  | cons c p ih =>
    rw [unpackMSB_cons]
    cases i with
    | zero =>
      cases hb
      rw [Nat.mul_zero, Nat.zero_add, List.getElem?_append_left (by rwa [bitsMSB_length]), bitsMSB_getElem? _ hj]
      rfl
    | succ i =>
      rw [List.getElem?_append_right (by rw [bitsMSB_length]; omega), bitsMSB_length,
        show 8 * (i + 1) + j - 8 = 8 * i + j by omega]
      exact ih hb

/-! ### Padding to whole bytes -/

theorem padLen_le (len : Nat) : padLen len ≤ 7 := by
  rw [padLen]
  omega

theorem padLen_eq_zero_iff (len : Nat) : padLen len = 0 ↔ len % 8 = 0 := by
  rw [padLen]
  omega

theorem add_padLen (len : Nat) : len + padLen len = 8 * ((len + 7) / 8) := by
  rw [padLen]
  omega

/-- A bit string of whole bytes comes back from its packing. -/
theorem unpackMSB_packBytes {n : Nat} {s : Bits} (h : s.length = 8 * n) : unpackMSB (packBytes s) = s := by
  induction n generalizing s with
  | zero =>
    rw [List.eq_nil_of_length_eq_zero h]
    rfl
  | succ n ih =>
    match s, h with
    | b7 :: b6 :: b5 :: b4 :: b3 :: b2 :: b1 :: b0 :: s, h =>
      have hs : s.length = 8 * n := Nat.add_right_cancel (m := 8) h
      rw [packBytes_cons, unpackMSB_cons, bitsMSB_packed, ih hs]
      rfl

theorem unpackMSB_packMSB (s : Bits) :
    unpackMSB (packMSB s).1 = s ++ List.replicate (packMSB s).2 false := by
  have hlen : (s ++ List.replicate (padLen s.length) false).length = 8 * ((s.length + 7) / 8) := by
    rw [List.length_append, List.length_replicate, add_padLen]
  exact unpackMSB_packBytes hlen

/-! ### Two-byte codes -/

theorem unBE16_le (h l : Byte) : unBE16 h l ≤ 65535 := by
  have hh := h.isLt
  have hl := l.isLt
  rw [unBE16]
  omega

/-- A code keeps its low 16 bits only. -/
theorem be16_mod (c : Nat) : be16 (c % 65536) = be16 c := by
  have hhigh : c % 65536 / 256 % 256 = c / 256 % 256 := by omega
  have hlow : c % 65536 % 256 = c % 256 := by omega
  rw [be16, be16, hhigh, hlow]

end Sys2Proof.Machine
end

section
/-! The obligations on the bitstream primitives. -/

open Sys2Proof Sys2Proof.Machine

/-- Settles O20: padding makes whole bytes, each of which unpacks to the eight bits packed into it. -/
theorem unpackInvertsPack : Obligations.UnpackInvertsPack :=
  ⟨fun len => ⟨rfl, padLen_le len, padLen_eq_zero_iff len⟩, fun s => ⟨unpackMSB_packMSB s, rfl⟩, unpackMSB_length,
    fun _ _ _ _ hj hb => unpackMSB_getElem? hj hb⟩

/-- Settles O21: a code and its low 16 bits have the same two bytes, and those read back to a 16-bit code. -/
theorem bigEndianCodes : Obligations.BigEndianCodes := by
  refine ⟨fun h l => ⟨rfl, unBE16_le h l⟩, fun c => ⟨rfl, (be16_mod c).symm, ?_⟩⟩
  rw [← be16_mod c]
  exact ⟨_, _, rfl, unBE16_be16 (Nat.mod_lt c (by decide))⟩
end

section
/-! SUPPORT. A run without error of its own completes with its output unless CapacityExceeded is raised
(40_dispatch.md R104, R106, R107), and the runs of RLE_ENC (42_rle.md R140, R141). -/

namespace Sys2Proof.Machine

/-- The one error a run without an error of its own can complete with is CapacityExceeded. -/
theorem runCodec_succeeds_of_status_ne {s : State} {codec : Ram → List Byte → CodecRun}
    (herr : (codec s.ram s.input).err = none) (hstatus : (s.runCodec codec).status ≠ statusFailed .capacityExceeded) :
    Succeeded s (s.runCodec codec) (codec s.ram s.input).out := by
  rcases runCodec_cases s codec with ⟨-, hlong⟩ | ⟨-, -, ⟨-, -, hsucc⟩ | ⟨e, hfail, ⟨rfl, -⟩ | ⟨he, -⟩⟩⟩
  · exact absurd hlong.status hstatus
  · exact hsucc
  · exact absurd hfail.status hstatus
  · cases herr.symm.trans he

/-- A run takes equal bytes while it is not longer than 255. -/
theorem rleRun_replicate (v : Byte) (r n : Nat) (rest : List Byte) (h : r + n ≤ 255) :
    rleRun v r (List.replicate n v ++ rest) = rleRun v (r + n) rest := by
  induction n generalizing r with
  | zero => rfl
  | succ n ih =>
    rw [List.replicate_succ, List.cons_append, rleRun_same v r _ (by omega), ih (r + 1) (by omega), Nat.add_assoc,
      Nat.add_comm 1 n]

/-- A run that cannot go on is one pair, and the encoder starts again after it. -/
theorem rleRun_stop (v : Byte) (r : Nat) (rest : List Byte) (h : r = 255 ∨ rest.head? ≠ some v) :
    rleRun v r rest = v :: BitVec.ofNat 8 r :: rleBytes rest := by
  cases rest with
  | nil => rfl
  | cons x xs => exact rleRun_end v x r xs (h.imp_right (mt (congrArg some)))

/-- The pairs emitted from inside a run of `r` bytes `v` stand for those bytes and the ones that follow. -/
theorem rleRun_runs (v : Byte) (r : Nat) (xs : List Byte) (hpos : 1 ≤ r) (hmax : r ≤ 255) :
    ∃ runs : List (Byte × Nat),
      rleRun v r xs = runs.flatMap (fun p => [p.1, BitVec.ofNat 8 p.2]) ∧
      (∀ p ∈ runs, 1 ≤ p.2 ∧ p.2 ≤ 255) ∧
      runs.flatMap (fun p => List.replicate p.2 p.1) = List.replicate r v ++ xs := by
  induction xs generalizing v r with
  | nil => exact ⟨[(v, r)], rfl, List.forall_mem_singleton.2 ⟨hpos, hmax⟩, rfl⟩
  | cons x xs ih =>
    by_cases hend : r = 255 ∨ x ≠ v
    · obtain ⟨runs, hbytes, hcounts, hexpand⟩ := ih x 1 (Nat.le_refl 1) (by decide)
      refine ⟨(v, r) :: runs, ?_, List.forall_mem_cons.2 ⟨⟨hpos, hmax⟩, hcounts⟩, ?_⟩
      · rw [rleRun_end v x r xs hend, hbytes]
        rfl
      · exact congrArg (List.replicate r v ++ ·) hexpand
    · obtain ⟨hne, hx⟩ := not_or.1 hend
      obtain rfl := not_not.1 hx
      have hlt : r < 255 := Nat.lt_of_le_of_ne hmax hne
      obtain ⟨runs, hbytes, hcounts, hexpand⟩ := ih x (r + 1) (Nat.le_add_left 1 r) hlt
      refine ⟨runs, (rleRun_same x r xs hlt).trans hbytes, hcounts, hexpand.trans ?_⟩
      rw [List.replicate_succ', List.append_assoc, List.singleton_append]

/-- RLE_DEC on pairs whose counts fit a byte emits the runs they stand for. -/
theorem rleDec_runs (ram : Ram) {runs : List (Byte × Nat)} (hcounts : ∀ p ∈ runs, p.2 ≤ 255) :
    rleDec ram (runs.flatMap (fun p => [p.1, BitVec.ofNat 8 p.2])) =
      ⟨runs.flatMap (fun p => List.replicate p.2 p.1), none, ram⟩ := by
  have hpairs := rleDec_pairs ram (runs.map fun p => (p.1, BitVec.ofNat 8 p.2))
  have hexpand : runs.flatMap (fun p => List.replicate (BitVec.ofNat 8 p.2).toNat p.1) =
      runs.flatMap (fun p => List.replicate p.2 p.1) :=
    List.flatMap_congr fun p hp => by
      have := hcounts p hp
      rw [BitVec.toNat_ofNat, Nat.mod_eq_of_lt (by omega)]
  rwa [List.flatMap_map, List.flatMap_map, hexpand] at hpairs

end Sys2Proof.Machine
end

section
/-! The obligations on the run-length codec. -/

open Sys2Proof Sys2Proof.Machine Sys2Proof.Claims

/-- Settles O22: RLE_ENC raises no error of its own. -/
theorem rleEncCompletes : Obligations.RleEncCompletes := by
  intro s hfits hout
  obtain ⟨hsucc, hram⟩ := runCodec_succeeds s rleEnc hfits rfl hout
  exact ⟨_, rfl, hsucc, hram⟩

/-- Settles O23: the run takes its `r` bytes, and then stops. -/
theorem rleEncEmitsGreedyRuns : Obligations.RleEncEmitsGreedyRuns := by
  refine ⟨rfl, fun v r rest hpos hmax hstop => ?_⟩
  obtain ⟨n, rfl⟩ := Nat.exists_eq_add_of_le hpos
  calc rleBytes (List.replicate (1 + n) v ++ rest)
      = rleRun v 1 (List.replicate n v ++ rest) := by rw [Nat.add_comm 1 n]; rfl
    _ = rleRun v (1 + n) rest := rleRun_replicate v 1 n rest hmax
    _ = v :: BitVec.ofNat 8 (1 + n) :: rleBytes rest := rleRun_stop v (1 + n) rest hstop

/-- Settles O24: a non-empty input is a run of one byte and the bytes that follow it. -/
theorem rleEncOutputStandsForTheInput : Obligations.RleEncOutputStandsForTheInput
  | [] => ⟨[], rfl, List.forall_mem_nil _, rfl⟩
  | v :: xs => rleRun_runs v 1 xs (Nat.le_refl 1) (by decide)

/-- Settles O25: an input of pairs has an even length, so RLE_DEC emits what the pairs stand for. -/
theorem rleDecCompletes : Obligations.RleDecCompletes := by
  intro s pairs hfits hinput hcap
  have hrun : rleDec s.ram s.input = ⟨pairs.flatMap (fun p => List.replicate p.2.toNat p.1), none, s.ram⟩ := by
    rw [hinput, rleDec_pairs]
  have hres := runCodec_succeeds s rleDec hfits (by rw [hrun]) (by rwa [hrun, length_flatMap_replicate_count])
  rw [hrun] at hres
  exact ⟨_, rfl, hres⟩

/-- Settles O26: the odd length is found before any byte is emitted. -/
theorem rleDecRefusesOddLength : Obligations.RleDecRefusesOddLength := by
  intro s hfits hodd
  have hrun : rleDec s.ram s.input = ⟨[], some .malformedData, s.ram⟩ := by
    rw [rleDec, input_length, if_pos hodd]
  exact ⟨_, rfl, runCodec_fails s rleDec .malformedData hfits (by rw [hrun]) (by rw [hrun]; exact Nat.zero_le _)⟩

/-- RLE_DEC gives back the input of RLE_ENC from its output. -/
theorem rleDec_rleBytes (ram : Ram) (xs : List Byte) : rleDec ram (rleBytes xs) = ⟨xs, none, ram⟩ := by
  obtain ⟨runs, hbytes, hcounts, hexpand⟩ := rleEncOutputStandsForTheInput xs
  rw [hbytes, rleDec_runs ram fun p hp => (hcounts p hp).2, hexpand]

/-- Settles O27: neither codec raises an error on its input here, so each completes with what it emits. -/
theorem rleRoundTrip : Obligations.RleRoundTrip := by
  intro s t _ ht hstatus
  cases ht
  refine ⟨rleBytes s.input, runCodec_succeeds_of_status_ne rfl hstatus, fun u v hinput hv hstatus' => ?_⟩
  cases hv
  have hrun : rleDec u.ram u.input = ⟨s.input, none, u.ram⟩ := by rw [hinput, rleDec_rleBytes]
  have hsucc := runCodec_succeeds_of_status_ne (s := u) (codec := rleDec) (by rw [hrun]) hstatus'
  rwa [hrun] at hsucc
end

section
/-! SUPPORT. BuildTree's loop as a function and as a relation (43_huffman.md R164): popLeast removes a least key, the
loop ends and merges as the relation says, and on elements of distinct creation indices the relation gives one tree. -/

namespace Sys2Proof.Machine

/-! ### The order of the keys -/

theorem keyAtMost.refl (a : HuffTree) : keyAtMost a a := (keyLess_eq_false_iff a a).1 (keyLess_irrefl a)

theorem keyAtMost.trans {a b c : HuffTree} (hab : keyAtMost a b) (hbc : keyAtMost b c) : keyAtMost a c := by
  rw [← keyLess_eq_false_iff] at hab hbc ⊢
  exact keyLess_trans_false c b a hbc hab

theorem keyAtMost.seq_eq {a b : HuffTree} (hab : keyAtMost a b) (hba : keyAtMost b a) : a.seq = b.seq := by
  simp only [keyAtMost] at hab hba
  omega

theorem keyAtMost_of_keyLess {a b : HuffTree} (h : keyLess a b = true) : keyAtMost a b :=
  (keyLess_eq_false_iff b a).1 (keyLess_asymm a b h)

/-! ### The loop removes two least elements -/

/-- The element removed has a least key. -/
theorem popLeast_least (a : HuffTree) (q : List HuffTree) : ∀ x ∈ a :: q, keyAtMost (popLeast a q).1 x := by
  induction q generalizing a with
  | nil => exact List.forall_mem_singleton.2 (.refl a)
  | cons b q ih =>
    rw [popLeast]
    split
    next hless =>
      obtain ⟨hb, hq⟩ := List.forall_mem_cons.1 (ih b)
      exact List.forall_mem_cons.2 ⟨hb.trans (keyAtMost_of_keyLess hless), List.forall_mem_cons.2 ⟨hb, hq⟩⟩
    next hnot =>
      obtain ⟨ha, hq⟩ := List.forall_mem_cons.1 (ih a)
      have hab : keyAtMost a b := (keyLess_eq_false_iff b a).1 (Bool.eq_false_iff.2 hnot)
      exact List.forall_mem_cons.2 ⟨ha, List.forall_mem_cons.2 ⟨ha.trans hab, hq⟩⟩

/-- An iteration removes a least element, then a least of the rest, and puts back their node. -/
theorem mergeLoop_merges_least (fuel next : Nat) (q0 q1 : HuffTree) (q : List HuffTree) :
    ∃ a b rest, (a :: b :: rest).Perm (q0 :: q1 :: q) ∧ (∀ x ∈ q0 :: q1 :: q, keyAtMost a x) ∧
      (∀ x ∈ b :: rest, keyAtMost b x) ∧
      mergeLoop (fuel + 1) next (q0 :: q1 :: q) =
        mergeLoop fuel (next + 1) (.node (a.freq + b.freq) next a b :: rest) := by
  have hperm := popLeast_perm q0 (q1 :: q)
  have hleast := popLeast_least q0 (q1 :: q)
  have hlen := popLeast_length q0 (q1 :: q)
  rw [mergeLoop]
  cases hpop : popLeast q0 (q1 :: q) with
  | mk a others =>
    rw [hpop] at hperm hleast hlen
    cases others with
    | nil => cases hlen
    | cons r0 r =>
      have hrest := popLeast_perm r0 r
      exact ⟨a, _, _, (hrest.cons a).trans hperm, hleast,
        fun x hx => popLeast_least r0 r x (hrest.mem_iff.1 hx), rfl⟩

/-- With fuel for every merge the loop gives a root, as the relation says. -/
theorem mergeLoop_mergesTo {fuel next : Nat} {q : List HuffTree} (hne : q ≠ []) (hfuel : q.length ≤ fuel + 1) :
    ∃ root, mergeLoop fuel next q = some root ∧ MergesTo next q root := by
  induction fuel generalizing next q with
  | zero =>
    match q, hne, hfuel with
    | [t], _, _ => exact ⟨t, rfl, .root next t⟩
  | succ fuel ih =>
    match q, hne, hfuel with
    | [t], _, _ => exact ⟨t, rfl, .root next t⟩
    | q0 :: q1 :: q, _, hfuel =>
      obtain ⟨a, b, rest, hperm, ha, hb, hmerge⟩ := mergeLoop_merges_least fuel next q0 q1 q
      have hlen := hperm.length_eq
      simp only [List.length_cons] at hlen hfuel
      obtain ⟨root, hroot, hto⟩ := ih (next := next + 1) (q := .node (a.freq + b.freq) next a b :: rest)
        (List.cons_ne_nil _ _) (by rw [List.length_cons]; omega)
      exact ⟨root, hmerge.trans hroot, .merge hperm.symm ha hb hto⟩

/-! ### The relation gives one tree -/

/-- The creation indices of Q are distinct, and those of new nodes, from `next` upward, are not among them. -/
def DistinctSeqs (next : Nat) (q : List HuffTree) : Prop := (q.map HuffTree.seq).Nodup ∧ ∀ x ∈ q, x.seq < next

theorem DistinctSeqs.perm {next : Nat} {q q' : List HuffTree} (h : DistinctSeqs next q) (hp : q.Perm q') :
    DistinctSeqs next q' :=
  ⟨(hp.map HuffTree.seq).nodup_iff.1 h.1, fun x hx => h.2 x (hp.mem_iff.2 hx)⟩

theorem DistinctSeqs.tail {next : Nat} {a : HuffTree} {q : List HuffTree} (h : DistinctSeqs next (a :: q)) :
    DistinctSeqs next q :=
  ⟨(List.nodup_cons.1 h.1).2, fun x hx => h.2 x (List.mem_cons_of_mem a hx)⟩

/-- A node numbered `next` put into Q keeps the indices distinct. -/
theorem DistinctSeqs.cons_node {next f : Nat} {a b : HuffTree} {q : List HuffTree} (h : DistinctSeqs next q) :
    DistinctSeqs (next + 1) (.node f next a b :: q) := by
  refine ⟨List.nodup_cons.2 ⟨fun hmem => ?_, h.1⟩,
    List.forall_mem_cons.2 ⟨Nat.lt_succ_self next, fun x hx => Nat.lt_succ_of_lt (h.2 x hx)⟩⟩
  obtain ⟨x, hx, hseq⟩ := List.mem_map.1 hmem
  exact absurd hseq (Nat.ne_of_lt (h.2 x hx))

/-- Two elements with a least key are the same. -/
theorem DistinctSeqs.least_unique {next : Nat} {q : List HuffTree} {a a' : HuffTree} (h : DistinctSeqs next q)
    (ha : a ∈ q) (ha' : a' ∈ q) (hleast : ∀ x ∈ q, keyAtMost a x) (hleast' : ∀ x ∈ q, keyAtMost a' x) : a = a' :=
  List.inj_on_of_nodup_map h.1 ha ha' ((hleast a' ha').seq_eq (hleast' a ha))

/-- Removing the least element of one set gives the same element and the same rest, whatever the order. -/
theorem DistinctSeqs.remove_least {next : Nat} {a a' : HuffTree} {q q' : List HuffTree}
    (h : DistinctSeqs next (a :: q)) (hp : (a :: q).Perm (a' :: q')) (hleast : ∀ x ∈ a :: q, keyAtMost a x)
    (hleast' : ∀ x ∈ a' :: q', keyAtMost a' x) : a = a' ∧ q.Perm q' := by
  obtain rfl := h.least_unique List.mem_cons_self (hp.mem_iff.2 List.mem_cons_self) hleast
    fun x hx => hleast' x (hp.mem_iff.1 hx)
  exact ⟨rfl, hp.cons_inv⟩

theorem MergesTo.unique {next : Nat} {q : List HuffTree} {t t' : HuffTree} (hq : DistinctSeqs next q)
    (h : MergesTo next q t) (h' : MergesTo next q t') : t = t' := by
  induction h with
  | root next t =>
    cases h' with
    | root => rfl
    | merge hperm => cases hperm.length_eq
  | @merge next q rest a b t hperm ha hb _ ih =>
    cases h' with
    | root => cases hperm.length_eq
    | @merge _ _ rest' a' b' _ hperm' ha' hb' hto' =>
      have hseqs := hq.perm hperm
      obtain ⟨rfl, hothers⟩ := hseqs.remove_least (hperm.symm.trans hperm')
        (fun x hx => ha x (hperm.mem_iff.2 hx)) (fun x hx => ha' x (hperm'.mem_iff.2 hx))
      obtain ⟨rfl, hrest⟩ := hseqs.tail.remove_least hothers hb hb'
      exact ih hseqs.tail.tail.cons_node (hto'.perm (hrest.symm.cons _))

/-- What a merge adds up, the root of the tree has from all the elements of Q. -/
theorem MergesTo.sum_eq {next : Nat} {q : List HuffTree} {t : HuffTree} {measure : HuffTree → Nat}
    (hnode : ∀ next a b, measure (.node (a.freq + b.freq) next a b) = measure a + measure b)
    (h : MergesTo next q t) : measure t = (q.map measure).sum := by
  induction h with
  | root => exact (List.sum_singleton).symm
  | merge hperm _ _ _ ih =>
    rw [ih, (hperm.map measure).sum_eq]
    simp only [List.map_cons, List.sum_cons, hnode, Nat.add_assoc]

/-! ### The leaves of a table -/

theorem huffLeaves_eq (k : Nat) (t : List (Byte × Nat)) :
    huffLeaves k t = (t.zipIdx k).map (fun p => .leaf p.1.1 p.1.2 p.2) := by
  induction t generalizing k with
  | nil => rfl
  | cons p t ih => rw [huffLeaves, ih, List.zipIdx_cons, List.map_cons]

theorem tableLeaves_eq (t : List (Byte × Nat)) : Claims.tableLeaves t = huffLeaves 0 t := (huffLeaves_eq 0 t).symm

theorem huffLeaves_map_seq (k : Nat) (t : List (Byte × Nat)) :
    (huffLeaves k t).map HuffTree.seq = List.range' k t.length := by
  induction t generalizing k with
  | nil => rfl
  | cons p t ih => rw [huffLeaves, List.map_cons, ih, List.length_cons, List.range'_succ, HuffTree.seq]

theorem huffLeaves_map_freq (k : Nat) (t : List (Byte × Nat)) :
    (huffLeaves k t).map HuffTree.freq = t.map Prod.snd := by
  induction t generalizing k with
  | nil => rfl
  | cons p t ih => rw [huffLeaves, List.map_cons, ih, List.map_cons, HuffTree.freq]

theorem huffLeaves_sum_size (k : Nat) (t : List (Byte × Nat)) :
    ((huffLeaves k t).map (fun x => x.size + 1)).sum = 2 * t.length := by
  induction t generalizing k with
  | nil => rfl
  | cons p t ih =>
    rw [huffLeaves, List.map_cons, List.sum_cons, ih, HuffTree.size, List.length_cons]
    omega

theorem distinctSeqs_huffLeaves (t : List (Byte × Nat)) : DistinctSeqs t.length (huffLeaves 0 t) := by
  refine ⟨by rw [huffLeaves_map_seq]; exact List.nodup_range', fun x hx => ?_⟩
  have hseq := List.mem_map_of_mem (f := HuffTree.seq) hx
  rw [huffLeaves_map_seq, List.mem_range'_1] at hseq
  omega

/-- BuildTree on a non-empty table gives a root, as the relation says. -/
theorem buildTree_mergesTo {t : List (Byte × Nat)} (ht : t ≠ []) :
    ∃ root, buildTree t = some root ∧ MergesTo t.length (huffLeaves 0 t) root := by
  have hlen := huffLeaves_length 0 t
  exact mergeLoop_mergesTo (List.length_pos_iff.1 (hlen ▸ List.length_pos_iff.2 ht)) (hlen.le.trans (Nat.le_succ _))

/-! ### The codes of a tree -/

theorem walkCodes_prefix {t : HuffTree} {p : Bits} : ∀ c ∈ (walkCodes t p).map Prod.snd, p <+: c := by
  intro c hc
  rw [← List.append_nil p, walkCodes_append, List.map_map] at hc
  obtain ⟨d, -, rfl⟩ := List.mem_map.1 hc
  exact List.prefix_append p d.2

/-- Paths that continue a path with different bits part there. -/
theorem not_prefix_of_parted {p c d : Bits} {x : Bool} (hc : p ++ [x] <+: c) (hd : p ++ [!x] <+: d) : ¬ c <+: d := by
  intro hcd
  have hprefix := List.prefix_of_prefix_length_le (hc.trans hcd) hd (by simp)
  cases x <;> simp at hprefix

theorem walkCodes_prefixFree (t : HuffTree) (p : Bits) :
    ((walkCodes t p).map Prod.snd).Pairwise (fun c d => ¬ c <+: d ∧ ¬ d <+: c) := by
  induction t generalizing p with
  | leaf s f k => exact List.pairwise_singleton _ _
  | node f k l r hl hr =>
    rw [walkCodes, List.map_append, List.pairwise_append]
    refine ⟨hl _, hr _, fun c hc d hd => ?_⟩
    have hc := walkCodes_prefix c hc
    have hd := walkCodes_prefix d hd
    exact ⟨not_prefix_of_parted hc hd, not_prefix_of_parted hd hc⟩

/-- A tree of `2 m - 1` nodes has codes of at most `m - 1` bits, or of the one bit of a single leaf. -/
theorem codesOf_length_le_max {t : HuffTree} {m : Nat} (ht : t.size + 1 = 2 * m) :
    ∀ c ∈ codesOf t, c.2.length ≤ max 1 (m - 1) := by
  intro c hc
  cases t with
  | leaf s f k =>
    rw [List.mem_singleton.1 hc]
    exact Nat.le_max_left _ _
  | node f k l r =>
    have hlen := walkCodes_length_le_half _ _ c hc
    rw [List.length_nil] at hlen
    omega

end Sys2Proof.Machine
end

section
/-! The obligations on the frequency table, the queue, the tree and its codes. -/

open Sys2Proof Sys2Proof.Machine Sys2Proof.Claims

/-- Settles O42: no counter wraps on an input shorter than 2^32 bytes. -/
theorem frequencyTableCountsTheInput : Obligations.FrequencyTableCountsTheInput :=
  fun _ hxs => ⟨ftTable_buildFT hxs, ftGet_buildFT hxs⟩

/-- Settles O43: popLeast keeps the element whose key is not above the next one's, down to the list's end. -/
theorem popLeastRemovesALeastKey : Obligations.PopLeastRemovesALeastKey :=
  ⟨fun a q => ⟨popLeast_perm a q, popLeast_least a q⟩, mergeLoop_merges_least⟩

/-- Settles O44: the loop follows the relation, which gives one tree as the creation indices are distinct; size and
frequency are what the merges add up. -/
theorem treeIsBuiltOverTheTable : Obligations.TreeIsBuiltOverTheTable := by
  intro t ht
  obtain ⟨root, hroot, hto⟩ := buildTree_mergesTo ht
  have hsize : root.size + 1 = 2 * t.length := by
    rw [← huffLeaves_sum_size 0 t]
    exact hto.sum_eq (measure := fun x => x.size + 1) fun next a b => by simp only [HuffTree.size]; omega
  have hfreq : root.freq = (t.map Prod.snd).sum := by
    rw [← huffLeaves_map_freq 0 t]
    exact hto.sum_eq fun next a b => rfl
  refine ⟨root, hroot, fun r => ⟨fun hr => ?_, fun hr => ?_⟩, by omega, hfreq, ?_, codesOf_length_le_max hsize⟩
  · rw [tableLeaves_eq] at hr
    exact hr.unique (distinctSeqs_huffLeaves t) hto
  · rw [tableLeaves_eq, hr]
    exact hto
  · rw [codesOf_map_fst]
    exact buildTree_symbols hroot

/-- Settles O45: the paths to two leaves part at a node above both. -/
theorem codesArePrefixFree : Obligations.CodesArePrefixFree
  | .leaf _ _ _ => List.pairwise_singleton _ _
  | .node f k l r => walkCodes_prefixFree (.node f k l r) []
end

section
/-! SUPPORT. What HUF_ENC emits, in the terms of the claims (43_huffman.md R160 to R168): the symbols of an input, the
stream of a table and its bits, and the run with and without a guard that applies. -/

namespace Sys2Proof.Machine

/-! ### The symbols of an input -/

theorem mem_byteValues (b : Byte) : b ∈ (List.range 256).map (BitVec.ofNat 8) :=
  List.mem_map.2 ⟨b.toNat, List.mem_range.2 b.isLt, BitVec.eq_of_toNat_eq (Nat.mod_eq_of_lt b.isLt)⟩

theorem byteValues_ascending : ((List.range 256).map (BitVec.ofNat 8)).Pairwise (fun x y => x.toNat < y.toNat) := by
  rw [List.pairwise_map]
  refine List.pairwise_lt_range.imp_of_mem fun hx hy hlt => ?_
  rw [List.mem_range] at hx hy
  rwa [BitVec.toNat_ofNat, BitVec.toNat_ofNat, Nat.mod_eq_of_lt hx, Nat.mod_eq_of_lt hy]

theorem symbolCounts_map_fst (xs : List Byte) :
    (Claims.symbolCounts xs).map Prod.fst = ((List.range 256).map (BitVec.ofNat 8)).filter (fun b => decide (b ∈ xs)) := by
  rw [Claims.symbolCounts, List.map_map]
  exact List.map_id _

theorem mem_symbolCounts {xs : List Byte} {b : Byte} : b ∈ (Claims.symbolCounts xs).map Prod.fst ↔ b ∈ xs := by
  rw [symbolCounts_map_fst, List.mem_filter, decide_eq_true_iff]
  exact and_iff_right (mem_byteValues b)

theorem symbolCounts_count {xs : List Byte} {p : Byte × Nat} (hp : p ∈ Claims.symbolCounts xs) : p.2 = xs.count p.1 := by
  obtain ⟨b, -, rfl⟩ := List.mem_map.1 hp
  rfl

theorem symbolCounts_ascending (xs : List Byte) :
    (Claims.symbolCounts xs).Pairwise (fun x y => x.1.toNat < y.1.toNat) := by
  have hasc := byteValues_ascending.filter (fun b => decide (b ∈ xs))
  rw [← symbolCounts_map_fst, List.pairwise_map] at hasc
  exact hasc

theorem symbolCounts_nodup (xs : List Byte) : ((Claims.symbolCounts xs).map Prod.fst).Nodup := by
  rw [List.Nodup, List.pairwise_map]
  exact (symbolCounts_ascending xs).imp fun hlt heq => absurd (congrArg BitVec.toNat heq) (Nat.ne_of_lt hlt)

theorem sortTable_symbolCounts (xs : List Byte) : sortTable (Claims.symbolCounts xs) = Claims.symbolCounts xs :=
  ((symbolCounts_ascending xs).imp fun hlt => Nat.le_of_lt hlt).insertionSort_eq

theorem symbolCounts_ne_nil {xs : List Byte} (hne : xs ≠ []) : Claims.symbolCounts xs ≠ [] := by
  obtain ⟨b, hb⟩ := List.exists_mem_of_ne_nil xs hne
  intro hnil
  have hmem := mem_symbolCounts.2 hb
  rw [hnil] at hmem
  cases hmem

/-- The table has 256 entries exactly where every byte value occurs. -/
theorem symbolCounts_length_eq_256_iff (xs : List Byte) :
    (Claims.symbolCounts xs).length = 256 ↔ ∀ b : Byte, b ∈ xs := by
  have hall : ((List.range 256).map (BitVec.ofNat 8)).length = 256 := by rw [List.length_map, List.length_range]
  have hiff := List.length_filter_eq_length_iff (p := fun b => decide (b ∈ xs)) (l := (List.range 256).map (BitVec.ofNat 8))
  rw [← symbolCounts_map_fst, List.length_map, hall] at hiff
  rw [hiff]
  exact ⟨fun h b => of_decide_eq_true (h b (mem_byteValues b)), fun h b _ => decide_eq_true (h b)⟩

theorem symbolCounts_replicate {n : Nat} (hn : 1 ≤ n) (b : Byte) : Claims.symbolCounts (List.replicate n b) = [(b, n)] := by
  have hmem (c : Byte) : decide (c ∈ List.replicate n b) = decide (c = b) := by
    rw [decide_eq_decide, List.mem_replicate]
    exact and_iff_right (by omega)
  have hone : ((List.range 256).map (BitVec.ofNat 8)).count b = 1 :=
    List.count_eq_one_of_mem (byteValues_ascending.imp fun hlt heq => by rw [heq] at hlt; exact absurd hlt (Nat.lt_irrefl _))
      (mem_byteValues b)
  simp only [Claims.symbolCounts, hmem, List.filter_eq, hone, List.replicate_one, List.map_cons, List.map_nil,
    List.count_replicate_self]

/-! ### The stream of a table and its bits -/

theorem trunc8_eq (v : Nat) : trunc8 v = BitVec.ofNat 8 v := by
  apply BitVec.eq_of_toNat_eq
  rw [trunc8, BitVec.toNat_ofNat, BitVec.toNat_ofNat, Nat.mod_mod]

theorem hufPairs_eq (t : List (Byte × Nat)) : hufPairs t = t.flatMap (fun p => [p.1, BitVec.ofNat 8 p.2]) := by
  induction t with
  | nil => rfl
  | cons p t ih => rw [hufPairs, ih, trunc8_eq, List.flatMap_cons, List.cons_append, List.singleton_append]

theorem hufStream_eq (t : List (Byte × Nat)) (bits : Bits) :
    hufStream t bits = BitVec.ofNat 8 (padLen bits.length) :: BitVec.ofNat 8 t.length ::
      (t.flatMap (fun p => [p.1, BitVec.ofNat 8 p.2]) ++ (packMSB bits).1) := by
  rw [← hufPairs_eq, ← trunc8_eq t.length]
  rfl

theorem packBytes_replicate_false (n : Nat) : packBytes (List.replicate (8 * n) false) = List.replicate n 0x00#8 := by
  induction n with
  | zero => rfl
  | succ n ih =>
    rw [List.replicate_succ, ← ih]
    rfl

/-- Bits 0 are packed into bytes 00, fill bits included. -/
theorem packMSB_replicate_false (n : Nat) :
    (packMSB (List.replicate n false)).1 = List.replicate ((n + 7) / 8) 0x00#8 := by
  rw [← packBytes_replicate_false, ← add_padLen, List.replicate_add, packMSB, List.length_replicate]

/-- Every byte of a single-symbol input has the code 0, whatever the leaf's frequency and index (R166). -/
theorem codeBits_leaf_replicate (b : Byte) (f k n : Nat) :
    Claims.codeBits (.leaf b f k) (List.replicate n b) = List.replicate n false := by
  have hcode : Claims.codeOf (.leaf b f k) b = [false] := by simp [Claims.codeOf, codesOf]
  induction n with
  | zero => rfl
  | succ n ih =>
    rw [List.replicate_succ, Claims.codeBits, List.flatMap_cons, hcode]
    exact congrArg (false :: ·) ih

/-! ### The run -/

/-- The input is never too long for the counters of FT. -/
theorem input_length_lt (s : State) : s.input.length < 2 ^ 32 := by
  rw [input_length]
  exact s.inLenS.isLt

/-- The inputs that a set guard refuses (R167). -/
theorem not_hufUnguarded_iff (s : State) :
    ¬ Claims.hufUnguarded s ↔
      (s.guardHufTable = true ∧ ∀ b : Byte, b ∈ s.input) ∨ (s.guardHufCount = true ∧ ∃ b, s.input.count b > 255) := by
  rw [Claims.hufUnguarded, not_and_or, Classical.not_imp, not_ne_iff, symbolCounts_length_eq_256_iff,
    Classical.not_imp]
  simp only [not_forall, Nat.not_le, gt_iff_lt]

theorem hufUnguarded_of_input_nil {s : State} (h : s.input = []) : Claims.hufUnguarded s := by
  by_contra hguarded
  rw [not_hufUnguarded_iff, h] at hguarded
  rcases hguarded with ⟨-, hall⟩ | ⟨-, b, hb⟩
  · exact List.not_mem_nil (hall 0)
  · exact Nat.not_lt_zero _ hb

theorem hufGuards_eq_some {guardTable guardCount : Bool} {ft : List (BitVec Config.countW)} {e : CmdError}
    (h : hufGuards guardTable guardCount ft = some e) : e = .unsupportedInput := by
  rw [hufGuards] at h
  split_ifs at h <;> exact (Option.some.inj h).symm

/-- Where a guard applies nothing is emitted before the error. -/
theorem hufEnc_of_guarded {s : State} (hne : s.input ≠ []) (hguarded : ¬ Claims.hufUnguarded s) (ram : Ram) :
    (hufEnc s.guardHufTable s.guardHufCount ram s.input).out = [] ∧
      (hufEnc s.guardHufTable s.guardHufCount ram s.input).err = some .unsupportedInput := by
  rw [Claims.hufUnguarded, ← hufGuards_buildFT_eq_none_iff _ _ (input_length_lt s)] at hguarded
  obtain ⟨e, he⟩ := Option.ne_none_iff_exists'.1 hguarded
  obtain rfl := hufGuards_eq_some he
  rw [hufEnc, if_neg hne]
  simp only [he, and_self]

/-- Where no guard applies there is a tree, and the run emits the stream of its codes. -/
theorem hufEnc_of_unguarded {s : State} (hne : s.input ≠ []) (hunguarded : Claims.hufUnguarded s) (ram : Ram) :
    ∃ root, buildTree (Claims.symbolCounts s.input) = some root ∧
      hufEnc s.guardHufTable s.guardHufCount ram s.input =
        ⟨hufStream (Claims.symbolCounts s.input) (Claims.codeBits root s.input), none,
          { ram with ft := buildFT s.input, arena := some root, codeTable := codeTableOf root }⟩ := by
  have hguard := (hufGuards_buildFT_eq_none_iff s.guardHufTable s.guardHufCount (input_length_lt s)).2 hunguarded
  obtain ⟨root, hroot, -⟩ := buildTree_mergesTo (symbolCounts_ne_nil hne)
  exact ⟨root, hroot, hufEnc_eq ram hne (input_length_lt s) hguard hroot⟩

theorem hufEnc_nil (guardTable guardCount : Bool) (ram : Ram) :
    hufEnc guardTable guardCount ram [] = ⟨[0x00#8, 0x00#8], none, ram⟩ := rfl

theorem hufStream_codeBits_length (root : HuffTree) (xs : List Byte) :
    (hufStream (Claims.symbolCounts xs) (Claims.codeBits root xs)).length = Claims.hufEncLength root xs :=
  hufStream_length _ _

/-- A completion with the STATUS of success is one of a run without error of its own. -/
theorem runCodec_of_status_succeeded {s : State} {codec : Ram → List Byte → CodecRun}
    (hstatus : (s.runCodec codec).status = statusSucceeded) :
    (codec s.ram s.input).err = none ∧ Succeeded s (s.runCodec codec) (codec s.ram s.input).out := by
  rcases runCodec_cases s codec with ⟨-, hlong⟩ | ⟨-, -, ⟨herr, -, hsucc⟩ | ⟨e, hfail, -⟩⟩
  · exact absurd (hlong.status.symm.trans hstatus) (statusFailed_ne_succeeded _)
  · exact ⟨herr, hsucc⟩
  · exact absurd (hfail.status.symm.trans hstatus) (statusFailed_ne_succeeded _)

/-- A success of HUF_ENC on a non-empty input has the stream of the input's tree as its output. -/
theorem hufEnc_succeeded {s : State} (hne : s.input ≠ [])
    (hstatus : (s.runCodec (hufEnc s.guardHufTable s.guardHufCount)).status = statusSucceeded) :
    ∃ root, buildTree (Claims.symbolCounts s.input) = some root ∧
      Succeeded s (s.runCodec (hufEnc s.guardHufTable s.guardHufCount))
        (hufStream (Claims.symbolCounts s.input) (Claims.codeBits root s.input)) := by
  obtain ⟨herr, hsucc⟩ := runCodec_of_status_succeeded hstatus
  by_cases hunguarded : Claims.hufUnguarded s
  · obtain ⟨root, hroot, hrun⟩ := hufEnc_of_unguarded hne hunguarded s.ram
    rw [hrun] at hsucc
    exact ⟨root, hroot, hsucc⟩
  · cases herr.symm.trans (hufEnc_of_guarded hne hunguarded s.ram).2

end Sys2Proof.Machine
end

section
/-! The obligations on HUF_ENC. -/

open Sys2Proof Sys2Proof.Machine Sys2Proof.Claims

/-- Settles O46: without a guard that applies the run raises no error, so its length against OUT_CAP decides. -/
theorem hufEncCompletes : Obligations.HufEncCompletes := by
  refine ⟨fun s hfits hne hunguarded => ?_, fun s hfits hzero => ?_⟩
  · obtain ⟨root, hroot, hrun⟩ := hufEnc_of_unguarded hne hunguarded s.ram
    have hlen := hufStream_codeBits_length root s.input
    refine ⟨root, hroot, fun hcap => ?_, fun hcap => ⟨_, rfl, runCodec_overflows s _ hfits (by rwa [hrun, hlen])⟩⟩
    obtain ⟨hsucc, hram⟩ := runCodec_succeeds s (hufEnc s.guardHufTable s.guardHufCount) hfits (by rw [hrun])
      (by rwa [hrun, hlen])
    rw [hrun] at hsucc hram
    refine ⟨_, rfl, ?_, hsucc.outLen.trans hlen, (congrArg Ram.dict hram).trans rfl⟩
    rwa [hufStream_eq] at hsucc
  · have hempty : s.input = [] := List.eq_nil_of_length_eq_zero (by rw [input_length, hzero]; rfl)
    have hrun : hufEnc s.guardHufTable s.guardHufCount s.ram s.input = ⟨[0x00#8, 0x00#8], none, s.ram⟩ := by
      rw [hempty, hufEnc_nil]
    refine ⟨fun hcap => ?_, fun hcap => ⟨_, rfl, runCodec_overflows s _ hfits (by rwa [hrun])⟩⟩
    have hres := runCodec_succeeds s (hufEnc s.guardHufTable s.guardHufCount) hfits (by rw [hrun]) (by rwa [hrun])
    rw [hrun] at hres
    exact ⟨_, rfl, hres⟩

/-- Settles O47: a guard that applies is found before any byte is emitted; any other run raises no error of its own. -/
theorem hufEncGuards : Obligations.HufEncGuards := by
  intro s t hfits ht
  cases ht
  rw [← not_hufUnguarded_iff]
  have hno_error (herr : (hufEnc s.guardHufTable s.guardHufCount s.ram s.input).err = none) :
      (s.runCodec (hufEnc s.guardHufTable s.guardHufCount)).status ≠ statusFailed .unsupportedInput := by
    intro hstatus
    have hsucc := runCodec_succeeds_of_status_ne herr fun hcap => by cases statusFailed_injective _ _ (hstatus.symm.trans hcap)
    exact statusFailed_ne_succeeded _ (hstatus.symm.trans hsucc.status)
  by_cases hne : s.input = []
  · refine iff_of_false (hno_error (by rw [hne, hufEnc_nil])) (not_not.2 (hufUnguarded_of_input_nil hne))
  by_cases hunguarded : hufUnguarded s
  · obtain ⟨root, -, hrun⟩ := hufEnc_of_unguarded hne hunguarded s.ram
    exact iff_of_false (hno_error (by rw [hrun])) (not_not.2 hunguarded)
  · obtain ⟨hout, herr⟩ := hufEnc_of_guarded hne hunguarded s.ram
    have hfail := runCodec_fails s _ _ hfits herr (by rw [hout]; exact Nat.zero_le _)
    exact iff_of_true hfail.status hunguarded

/-- Settles O48: the table has one entry, so the tree is a leaf and the payload is bits 0. -/
theorem hufEncSingleSymbol : Obligations.HufEncSingleSymbol := by
  intro s b n hfits hn hinput hcount hcap
  have hcounts : symbolCounts s.input = [(b, n)] := by rw [hinput, symbolCounts_replicate hn]
  have hne : s.input ≠ [] := by
    rw [hinput, Ne, List.replicate_eq_nil_iff]
    omega
  have hunguarded : hufUnguarded s := by
    refine ⟨fun _ => by rw [hcounts, List.length_singleton]; decide, fun hguard c => ?_⟩
    have hle := hcount hguard
    have hc := List.count_le_length (a := c) (l := s.input)
    rw [hinput, List.length_replicate] at hc
    rw [hinput]
    omega
  obtain ⟨root, hroot, hrun⟩ := hufEnc_of_unguarded hne hunguarded s.ram
  rw [hcounts] at hroot hrun
  cases hroot
  rw [hinput, codeBits_leaf_replicate, ← hinput] at hrun
  have hsucc := (runCodec_succeeds s (hufEnc s.guardHufTable s.guardHufCount) hfits (by rw [hrun])
    (by rw [hrun, hufStream_length, List.length_replicate, List.length_singleton]; exact hcap)).1
  rw [hrun, hufStream_eq, packMSB_replicate_false, List.length_replicate] at hsucc
  exact ⟨_, rfl, hsucc⟩
end

section
/-! SUPPORT. HufDecodeBits on any bits (43_huffman.md R166, R170): codewords are read as their symbols, non-empty bits
that no codeword begins are malformed, and any bits are codewords followed by bits that no codeword begins. -/

namespace Sys2Proof.Machine

/-! ### The codes of a tree -/

theorem cons_mem_walkCodes_node {f k : Nat} {l r : HuffTree} {x : Bool} {c : Byte × Bits}
    (h : c ∈ walkCodes ((HuffTree.node f k l r).child x) []) : (c.1, x :: c.2) ∈ walkCodes (.node f k l r) [] := by
  rw [walkCodes, List.nil_append, List.nil_append, List.mem_append, ← List.append_nil [false], walkCodes_append,
    ← List.append_nil [true], walkCodes_append]
  cases x with
  | false => exact .inl (List.mem_map_of_mem (f := fun c => (c.1, [false] ++ c.2)) h)
  | true => exact .inr (List.mem_map_of_mem (f := fun c => (c.1, [true] ++ c.2)) h)

theorem codesOf_ne_nil {root : HuffTree} {c : Byte × Bits} (hc : c ∈ codesOf root) : c.2 ≠ [] := by
  cases root with
  | leaf s f k =>
    rw [List.mem_singleton.1 hc]
    exact List.cons_ne_nil _ _
  | node f k l r =>
    obtain ⟨x, q, hcons, -⟩ := mem_walkCodes_node (f := f) (k := k) hc
    rw [hcons]
    exact List.cons_ne_nil x q

theorem codeOf_ne_nil {root : HuffTree} {y : Byte} (hy : y ∈ root.symbols) : Claims.codeOf root y ≠ [] :=
  codesOf_ne_nil (mem_codesOf_codeOf hy)

/-- In a tree of distinct symbols each assignment is its symbol's code. -/
theorem codeOf_of_mem_codesOf {root : HuffTree} (hnodup : root.symbols.Nodup) {c : Byte × Bits} (hc : c ∈ codesOf root) :
    c.1 ∈ root.symbols ∧ Claims.codeOf root c.1 = c.2 := by
  have hmem : c.1 ∈ root.symbols := codesOf_map_fst root ▸ List.mem_map_of_mem hc
  rw [← codesOf_map_fst] at hnodup
  exact ⟨hmem, congrArg Prod.snd (List.inj_on_of_nodup_map hnodup (mem_codesOf_codeOf hmem) hc rfl)⟩

/-- Codewords have at least a bit each. -/
theorem length_le_codeBits_length {root : HuffTree} {ys : List Byte} (hys : ∀ y ∈ ys, y ∈ root.symbols) :
    ys.length ≤ (Claims.codeBits root ys).length := by
  induction ys with
  | nil => exact Nat.zero_le _
  | cons y ys ih =>
    obtain ⟨hy, hys⟩ := List.forall_mem_cons.1 hys
    have hpos := List.length_pos_iff.2 (codeOf_ne_nil hy)
    have hlen := ih hys
    rw [Claims.codeBits] at hlen
    rw [Claims.codeBits, List.flatMap_cons, List.length_append, List.length_cons]
    omega

/-- Any bits are the codewords of some symbols and then bits that no codeword begins. -/
theorem exists_codeBits_append (root : HuffTree) (bits : Bits) :
    ∃ ys rest, (∀ y ∈ ys, y ∈ root.symbols) ∧ bits = Claims.codeBits root ys ++ rest ∧
      ∀ y ∈ root.symbols, ¬ Claims.codeOf root y <+: rest := by
  induction hn : bits.length using Nat.strong_induction_on generalizing bits with
  | _ n ih =>
    by_cases hstop : ∀ y ∈ root.symbols, ¬ Claims.codeOf root y <+: bits
    · exact ⟨[], bits, List.forall_mem_nil _, rfl, hstop⟩
    · push Not at hstop
      obtain ⟨y, hy, tail, rfl⟩ := hstop
      have hpos := List.length_pos_iff.2 (codeOf_ne_nil hy)
      rw [List.length_append] at hn
      obtain ⟨ys, rest, hys, rfl, hrest⟩ := ih tail.length (by omega) tail rfl
      refine ⟨y :: ys, rest, List.forall_mem_cons.2 ⟨hy, hys⟩, ?_, hrest⟩
      rw [Claims.codeBits, Claims.codeBits, List.flatMap_cons, List.append_assoc]

/-! ### The decoder on codewords -/

theorem hufDecodeBits_nil (root : HuffTree) : hufDecodeBits root [] = .done := by
  cases root with
  | leaf s f k => rfl
  | node f k l r => exact if_pos rfl

/-- After codewords the decoder ends as it does on the bits that follow them. -/
theorem hufDecodeBits_codeBits_err {root : HuffTree} {ys : List Byte} (hys : ∀ y ∈ ys, y ∈ root.symbols) (bits : Bits) :
    (hufDecodeBits root (Claims.codeBits root ys ++ bits)).err = (hufDecodeBits root bits).err := by
  induction ys with
  | nil => rfl
  | cons y ys ih =>
    obtain ⟨hy, hys⟩ := List.forall_mem_cons.1 hys
    rw [Claims.codeBits, List.flatMap_cons, List.append_assoc, hufDecodeBits_codeOf hy, Trace.before_err]
    exact ih hys

theorem hufDecodeBits_codeBits_append {root : HuffTree} {ys : List Byte} (hys : ∀ y ∈ ys, y ∈ root.symbols) (bits : Bits) :
    hufDecodeBits root (Claims.codeBits root ys ++ bits) =
      ⟨ys ++ (hufDecodeBits root bits).out, (hufDecodeBits root bits).err⟩ := by
  rw [← hufDecodeBits_codeBits_out hys, ← hufDecodeBits_codeBits_err hys]

/-! ### The decoder on bits that no codeword begins -/

theorem child_size_lt (f k : Nat) (l r : HuffTree) (x : Bool) :
    ((HuffTree.node f k l r).child x).size < (HuffTree.node f k l r).size := by
  cases x <;> simp only [HuffTree.child, HuffTree.size] <;> omega

/-- A walk that meets no leaf ends below the root. -/
theorem decodeWalk_malformed {root : HuffTree} {f k : Nat} {l r : HuffTree} {bits : Bits}
    (hbelow : (HuffTree.node f k l r).size < root.size ∨ (HuffTree.node f k l r = root ∧ bits ≠ []))
    (hno : ∀ c ∈ walkCodes (.node f k l r) [], ¬ c.2 <+: bits) :
    decodeWalk root (.node f k l r) bits = .malformed := by
  induction bits generalizing f k l r with
  | nil =>
    have hne : HuffTree.node f k l r ≠ root := by
      rintro rfl
      rcases hbelow with hlt | ⟨-, hnil⟩
      · exact Nat.lt_irrefl _ hlt
      · exact hnil rfl
    rw [decodeWalk, if_neg hne]
  | cons x bits ih =>
    have hsize : (HuffTree.node f k l r).size ≤ root.size := by
      rcases hbelow with hlt | ⟨rfl, -⟩
      · exact Nat.le_of_lt hlt
      · exact Nat.le_refl _
    have hlt := Nat.lt_of_lt_of_le (child_size_lt f k l r x) hsize
    have hnext : ∀ c ∈ walkCodes ((HuffTree.node f k l r).child x) [], ¬ c.2 <+: bits := fun c hc hprefix =>
      hno _ (cons_mem_walkCodes_node hc) ((List.prefix_cons_inj x).2 hprefix)
    rw [decodeWalk]
    cases hchild : (HuffTree.node f k l r).child x with
    | leaf s f' k' =>
      rw [hchild] at hnext
      exact absurd List.nil_prefix (hnext (s, []) (List.mem_singleton_self _))
    | node f' k' l' r' =>
      rw [hchild] at hlt hnext
      exact ih (.inl hlt) hnext

/-- Non-empty bits that no codeword begins are malformed before any byte is emitted. -/
theorem hufDecodeBits_malformed {root : HuffTree} {bits : Bits} (hne : bits ≠ [])
    (hno : ∀ c ∈ codesOf root, ¬ c.2 <+: bits) : hufDecodeBits root bits = .malformed := by
  cases root with
  | leaf s f k =>
    match bits, hne with
    | true :: _, _ => rfl
    | false :: bits, _ => exact absurd (List.prefix_append [false] bits) (hno _ (List.mem_singleton_self _))
  | node f k l r => exact decodeWalk_malformed (.inr ⟨rfl, hne⟩) hno

end Sys2Proof.Machine
end

section
/-! SUPPORT. HufParse and HUF_DEC on any input (43_huffman.md R169 to R171): what HufParse accepts is a valid stream,
and what HUF_DEC does with one. -/

namespace Sys2Proof.Machine

/-! ### HufParse accepts valid streams only -/

/-- The table loop accepts pairs of distinct symbols, none of them seen before, and nothing else. -/
theorem parseTable_eq_some {k : Nat} {seen xs payload : List Byte} {t : List (Byte × Nat)}
    (h : parseTable k seen xs = some (t, payload)) :
    ∃ tab : List (Byte × Byte), xs = Claims.tablePairs tab ++ payload ∧ tab.length = k ∧
      (tab.map Prod.fst).Nodup ∧ ∀ p ∈ tab, p.1 ∉ seen := by
  fun_induction parseTable k seen xs generalizing t with
  | case1 =>
    cases h
    exact ⟨[], rfl, rfl, List.nodup_nil, List.forall_mem_nil _⟩
  | case2 => cases h
  | case3 k seen s f rest hs t' payload' ht ih =>
    cases h
    obtain ⟨tab, hrest, hlen, hnodup, hseen⟩ := ih ht
    refine ⟨(s, f) :: tab, ?_, congrArg (· + 1) hlen, List.nodup_cons.2 ⟨fun hmem => ?_, hnodup⟩,
      List.forall_mem_cons.2 ⟨hs, fun p hp hmem => hseen p hp (List.mem_cons_of_mem s hmem)⟩⟩
    · rw [hrest]
      rfl
    · obtain ⟨p, hp, heq⟩ := List.mem_map.1 hmem
      exact hseen p hp (heq ▸ List.mem_cons_self)
  | case4 => cases h
  | case5 => cases h

/-- Any input is a valid stream, or HufParse finds it malformed. -/
theorem hufParse_cases (xs : List Byte) :
    hufParse xs = .error .malformedData ∨ ∃ tab bits, Claims.validHufStream xs tab bits := by
  match xs with
  | [] => exact .inl rfl
  | [_] => exact .inl rfl
  | pad :: size :: rest =>
    rw [hufParse]
    split_ifs with hpad hlen
    · exact .inl rfl
    · exact .inl rfl
    cases hparse : parseTable size.toNat [] rest with
    | none => exact .inl rfl
    | some parsed =>
      obtain ⟨t, payload⟩ := parsed
      by_cases hfill : pad.toNat > 8 * payload.length
      · exact .inl (if_pos hfill)
      · obtain ⟨tab, hrest, hsize, hnodup, -⟩ := parseTable_eq_some hparse
        exact .inr ⟨tab, _, pad, size, payload, by rw [hrest], hsize, hnodup, Nat.not_lt.1 hpad, Nat.not_lt.1 hfill, rfl⟩

/-! ### The parts of a stream -/

theorem tablePairs_injective : Function.Injective Claims.tablePairs := by
  intro tab tab' h
  induction tab generalizing tab' with
  | nil =>
    cases tab' with
    | nil => rfl
    | cons p tab' => cases h
  | cons p tab ih =>
    cases tab' with
    | nil => cases h
    | cons p' tab' =>
      obtain ⟨hfst, htail⟩ := List.cons.inj h
      obtain ⟨hsnd, htail⟩ := List.cons.inj htail
      rw [ih htail, Prod.ext hfst hsnd]

theorem tablePairs_length (tab : List (Byte × Byte)) : (Claims.tablePairs tab).length = 2 * tab.length :=
  length_flatMap_pair tab

/-- A valid stream has at least its two header bytes, a padding length of at most 7, and its whole table. -/
theorem valid_header {xs : List Byte} {tab : List (Byte × Byte)} {bits : Bits} (h : Claims.validHufStream xs tab bits) :
    ∃ pad size rest, xs = pad :: size :: rest ∧ pad.toNat ≤ 7 ∧ 2 * size.toNat ≤ rest.length := by
  obtain ⟨pad, size, payload, rfl, hsize, -, hpad, -, -⟩ := h
  refine ⟨pad, size, _, rfl, hpad, ?_⟩
  rw [List.length_append, tablePairs_length]
  omega

/-- A stream's bytes tell its table and its payload, so they are valid for that table only. -/
theorem valid_parts {pad size : Byte} {tab tab' : List (Byte × Byte)} {payload : List Byte} {bits : Bits}
    (hsize : tab.length = size.toNat)
    (h : Claims.validHufStream (pad :: size :: (Claims.tablePairs tab ++ payload)) tab' bits) :
    tab' = tab ∧ (tab.map Prod.fst).Nodup ∧ pad.toNat ≤ 8 * payload.length ∧ pad.toNat ≤ 7 ∧
      bits.length = 8 * payload.length - pad.toNat := by
  obtain ⟨pad', size', payload', hxs, hsize', hnodup, hpad, hfill, rfl⟩ := h
  obtain ⟨rfl, htail⟩ := List.cons.inj hxs
  obtain ⟨rfl, hrest⟩ := List.cons.inj htail
  obtain ⟨hpairs, rfl⟩ := List.append_inj hrest (by rw [tablePairs_length, tablePairs_length, hsize, hsize'])
  obtain rfl := tablePairs_injective hpairs
  exact ⟨rfl, hnodup, hfill, hpad, by rw [List.length_take, unpackMSB_length]; omega⟩

/-! ### The run -/

/-- An input that is no valid stream, or one with an empty table and bits to decode, is malformed. -/
theorem hufDec_of_invalid {xs : List Byte} (ram : Ram)
    (h : ∀ tab bits, Claims.validHufStream xs tab bits → tab = [] ∧ bits ≠ []) :
    hufDec ram xs = ⟨[], some .malformedData, ram⟩ := by
  rcases hufParse_cases xs with herror | ⟨tab, bits, hvalid⟩
  · rw [hufDec, herror]
  · obtain ⟨rfl, hbits⟩ := h tab bits hvalid
    rw [hufDec, hufParse_of_valid hvalid]
    exact congrArg (CodecRun.mk [] · ram) (if_pos (List.length_pos_iff.2 hbits))

/-- The tree of a valid stream has distinct symbols. -/
theorem symbols_nodup_of_valid {xs : List Byte} {tab : List (Byte × Byte)} {bits : Bits} {root : HuffTree}
    (h : Claims.validHufStream xs tab bits) (hroot : buildTree (sortTable (Claims.tableCounts tab)) = some root) :
    root.symbols.Nodup := by
  obtain ⟨-, -, -, -, -, hnodup, -⟩ := h
  have hsorted : (sortTable (Claims.tableCounts tab)).Perm (Claims.tableCounts tab) := List.perm_insertionSort _ _
  rw [((buildTree_symbols hroot).trans (hsorted.map Prod.fst)).nodup_iff, Claims.tableCounts, List.map_map]
  exact hnodup

/-- HUF_DEC on a valid stream whose bits are codewords emits their symbols. -/
theorem hufDec_of_codeBits {xs ys : List Byte} {tab : List (Byte × Byte)} {root : HuffTree} (ram : Ram)
    (hroot : buildTree (sortTable (Claims.tableCounts tab)) = some root) (hys : ∀ y ∈ ys, y ∈ tab.map Prod.fst)
    (h : Claims.validHufStream xs tab (Claims.codeBits root ys)) :
    hufDec ram xs = ⟨ys, none, { ram with arena := some root }⟩ := by
  have hdecode := hufDecodeBits_codeBits_append (fun y hy => (mem_symbols_sortTable hroot y).2 (hys y hy)) []
  rw [hufDecodeBits_nil, List.append_nil, Trace.done_out, List.append_nil] at hdecode
  rw [hufDec_of_valid ram h hroot, hdecode]
  rfl

/-- HUF_DEC on a valid stream whose bits are codewords and then non-empty bits that no codeword begins emits the
codewords' symbols before the error. -/
theorem hufDec_of_codeBits_append {xs ys : List Byte} {tab : List (Byte × Byte)} {root : HuffTree} {rest : Bits}
    (ram : Ram) (hroot : buildTree (sortTable (Claims.tableCounts tab)) = some root)
    (hys : ∀ y ∈ ys, y ∈ tab.map Prod.fst) (h : Claims.validHufStream xs tab (Claims.codeBits root ys ++ rest))
    (hne : rest ≠ []) (hno : ∀ y ∈ tab.map Prod.fst, ¬ Claims.codeOf root y <+: rest) :
    hufDec ram xs = ⟨ys, some .malformedData, { ram with arena := some root }⟩ := by
  have hno' : ∀ c ∈ codesOf root, ¬ c.2 <+: rest := by
    intro c hc
    obtain ⟨hmem, hcode⟩ := codeOf_of_mem_codesOf (symbols_nodup_of_valid h hroot) hc
    rw [← hcode]
    exact hno c.1 ((mem_symbols_sortTable hroot c.1).1 hmem)
  have hdecode := hufDecodeBits_codeBits_append (fun y hy => (mem_symbols_sortTable hroot y).2 (hys y hy)) rest
  rw [hufDecodeBits_malformed hne hno', Trace.malformed_out, List.append_nil] at hdecode
  rw [hufDec_of_valid ram h hroot, hdecode]
  rfl

end Sys2Proof.Machine
end

section
/-! The obligations on HUF_DEC. -/

open Sys2Proof Sys2Proof.Machine Sys2Proof.Claims

/-- Settles O49: the codewords are read as their symbols and the walk ends at the root, so only the length of the
output can be an error. -/
theorem hufDecCompletes : Obligations.HufDecCompletes := by
  refine ⟨fun s tab root ys hfits hroot hys hvalid => ?_, fun s hfits hinput => ?_⟩
  · have hrun := hufDec_of_codeBits s.ram hroot hys hvalid
    refine ⟨fun hcap => ?_, fun hcap => ⟨_, rfl, runCodec_overflows s hufDec hfits (by rwa [hrun])⟩⟩
    obtain ⟨hsucc, hram⟩ := runCodec_succeeds s hufDec hfits (by rw [hrun]) (by rwa [hrun])
    rw [hrun] at hsucc hram
    exact ⟨_, rfl, hsucc, (congrArg Ram.ft hram).trans rfl, (congrArg Ram.codeTable hram).trans rfl,
      (congrArg Ram.dict hram).trans rfl⟩
  · have hrun : hufDec s.ram s.input = ⟨[], none, s.ram⟩ := by
      rw [hinput]
      rfl
    have hres := runCodec_succeeds s hufDec hfits (by rw [hrun]) (by rw [hrun]; exact Nat.zero_le _)
    rw [hrun] at hres
    exact ⟨_, rfl, hres⟩

/-- An input that no table is valid for, unless it is empty with bits to decode, is MalformedData. -/
theorem hufDec_invalid_fails {s : State} (hfits : inputFits s)
    (h : ∀ tab bits, validHufStream s.input tab bits → tab = [] ∧ bits ≠ []) :
    ∃ t, exec .hufDec s = .next t ∧ FailedInCodec s t .malformedData := by
  have hrun := hufDec_of_invalid s.ram h
  exact ⟨_, rfl, runCodec_fails s hufDec _ hfits (by rw [hrun]) (by rw [hrun]; exact Nat.zero_le _)⟩

/-- Codewords that fit OUT_CAP and then bits that no codeword begins are MalformedData. -/
theorem hufDec_after_codewords_fails {s : State} {tab : List (Byte × Byte)} {root : HuffTree} {ys : List Byte}
    {rest : Bits} (hfits : inputFits s) (hroot : buildTree (sortTable (tableCounts tab)) = some root)
    (hys : ∀ y ∈ ys, y ∈ tab.map Prod.fst) (hvalid : validHufStream s.input tab (codeBits root ys ++ rest))
    (hne : rest ≠ []) (hno : ∀ y ∈ tab.map Prod.fst, ¬ codeOf root y <+: rest) (hcap : ys.length ≤ s.outCap.toNat) :
    ∃ t, exec .hufDec s = .next t ∧ FailedInCodec s t .malformedData := by
  have hrun := hufDec_of_codeBits_append s.ram hroot hys hvalid hne hno
  exact ⟨_, rfl, runCodec_fails s hufDec _ hfits (by rw [hrun]) (by rwa [hrun])⟩

/-- Settles O50: each fault of the header or the table contradicts a part of a valid stream, and bits that are no
codewords are some codewords followed by non-empty bits that none begins. -/
theorem hufDecRefusesMalformedStreams : Obligations.HufDecRefusesMalformedStreams := by
  refine ⟨fun s hfits hfault => hufDec_invalid_fails hfits fun tab bits hvalid => ?_,
    fun s tab root ys rest hfits hroot hys hvalid hne hno hcap =>
      hufDec_after_codewords_fails hfits hroot hys hvalid hne hno hcap,
    fun s tab root bits hfits hroot hvalid hcap hnone => ?_⟩
  · obtain ⟨pad, size, rest, hinput, hpad, hlen⟩ := valid_header hvalid
    rcases hfault with hshort | ⟨pad', rest', hinput', hpad'⟩ | ⟨pad', size', rest', hinput', htruncated⟩ |
      ⟨pad', size', tab', payload, hinput', hsize, htable⟩
    · rw [← input_length, hinput, List.length_cons, List.length_cons] at hshort
      omega
    · cases hinput.symm.trans hinput'
      omega
    · cases hinput.symm.trans hinput'
      omega
    · rw [hinput'] at hvalid
      obtain ⟨rfl, hnodup, hfill, hpad, hbits⟩ := valid_parts hsize hvalid
      rcases htable with hrepeat | hlong | ⟨hempty, hpayload⟩
      · exact absurd hnodup hrepeat
      · omega
      · have hpos := List.length_pos_iff.2 hpayload
        exact ⟨hempty, List.length_pos_iff.1 (by omega)⟩
  · obtain ⟨ys, rest, hys, rfl, hno⟩ := exists_codeBits_append root bits
    have hlen := length_le_codeBits_length hys
    rw [List.length_append] at hcap
    have hys' : ∀ y ∈ ys, y ∈ tab.map Prod.fst := fun y hy => (mem_symbols_sortTable hroot y).1 (hys y hy)
    refine hufDec_after_codewords_fails hfits hroot hys' hvalid ?_
      (fun y hy => hno y ((mem_symbols_sortTable hroot y).2 hy)) (by omega)
    rintro rfl
    exact hnone ⟨ys, hys', List.append_nil _⟩
end

section
/-! SUPPORT. HUF_DEC on HUF_ENC's output (43_huffman.md R161 to R163, R172): the stream of a table of 1 to 255 entries
is a valid stream, with its counts cut to a byte, and where these give the same codes HUF_DEC gives the input back. -/

namespace Sys2Proof.Machine

/-- A table with its counts cut to a byte, as a stream holds it (R162). -/
def byteTable (t : List (Byte × Nat)) : List (Byte × Byte) := t.map (fun p => (p.1, BitVec.ofNat 8 p.2))

theorem byteTable_map_fst (t : List (Byte × Nat)) : (byteTable t).map Prod.fst = t.map Prod.fst := by
  rw [byteTable, List.map_map]
  rfl

theorem tablePairs_byteTable (t : List (Byte × Nat)) :
    Claims.tablePairs (byteTable t) = t.flatMap (fun p => [p.1, BitVec.ofNat 8 p.2]) := by
  rw [Claims.tablePairs, byteTable, List.flatMap_map]

/-- Counts of at most 255 are not changed in the stream. -/
theorem tableCounts_byteTable {t : List (Byte × Nat)} (ht : ∀ p ∈ t, p.2 ≤ 255) :
    Claims.tableCounts (byteTable t) = t := by
  rw [Claims.tableCounts, byteTable, List.map_map]
  refine (List.map_congr_left fun p hp => ?_).trans (List.map_id t)
  have hle := ht p hp
  exact Prod.ext rfl (Nat.mod_eq_of_lt (show p.2 < 2 ^ 8 by omega))

/-- The stream of a table is valid where its size fits a byte. -/
theorem validHufStream_hufStream {t : List (Byte × Nat)} (bits : Bits) (hlen : t.length ≤ 255)
    (hnodup : (t.map Prod.fst).Nodup) : Claims.validHufStream (hufStream t bits) (byteTable t) bits := by
  have hpack := packMSB_length bits
  have hadd := add_padLen bits.length
  have hpad : (BitVec.ofNat 8 (padLen bits.length)).toNat = padLen bits.length := by
    have hle := padLen_le bits.length
    rw [BitVec.toNat_ofNat, Nat.mod_eq_of_lt (by omega)]
  refine ⟨_, _, (packMSB bits).1, by rw [hufStream_eq, tablePairs_byteTable], ?_, ?_, ?_, ?_, ?_⟩
  · rw [byteTable, List.length_map, BitVec.toNat_ofNat, Nat.mod_eq_of_lt (by omega)]
  · rwa [byteTable_map_fst]
  · rw [hpad]
    exact padLen_le _
  · rw [hpad]
    omega
  · rw [hpad, hpack, ← hadd, Nat.add_sub_cancel, unpackMSB_packMSB, List.take_left]

/-- Where the cut counts give the input the same codes, HUF_DEC on the input's stream emits the input. -/
theorem hufDec_hufStream {xs : List Byte} {root root' : HuffTree} (ram : Ram)
    (hlen : (Claims.symbolCounts xs).length ≤ 255)
    (hroot' : buildTree (sortTable (Claims.tableCounts (byteTable (Claims.symbolCounts xs)))) = some root')
    (hcodes : Claims.codeBits root' xs = Claims.codeBits root xs) :
    hufDec ram (hufStream (Claims.symbolCounts xs) (Claims.codeBits root xs)) =
      ⟨xs, none, { ram with arena := some root' }⟩ := by
  refine hufDec_of_codeBits ram hroot' (fun x hx => ?_) ?_
  · rw [byteTable_map_fst]
    exact mem_symbolCounts.2 hx
  · rw [hcodes]
    exact validHufStream_hufStream _ hlen (symbolCounts_nodup xs)

/-- Counts of at most 255 give HUF_DEC the tree of HUF_ENC. -/
theorem decoder_tree_of_counts_le {xs : List Byte} (hcounts : ∀ b, xs.count b ≤ 255) :
    sortTable (Claims.tableCounts (byteTable (Claims.symbolCounts xs))) = Claims.symbolCounts xs := by
  rw [tableCounts_byteTable fun p hp => symbolCounts_count hp ▸ hcounts p.1, sortTable_symbolCounts]

/-- HUF_DEC gives back an input that meets a condition of R172, from the stream of its tree. -/
theorem hufDec_hufStream_symbolCounts {xs : List Byte} {root : HuffTree} (ram : Ram)
    (hroot : buildTree (Claims.symbolCounts xs) = some root)
    (hcond : ((Claims.symbolCounts xs).length ≤ 255 ∧ ∀ b, xs.count b ≤ 255) ∨
      ∃ b n, 1 ≤ n ∧ xs = List.replicate n b) :
    ∃ ram', hufDec ram (hufStream (Claims.symbolCounts xs) (Claims.codeBits root xs)) = ⟨xs, none, ram'⟩ := by
  rcases hcond with ⟨hlen, hcounts⟩ | ⟨b, n, hn, rfl⟩
  · exact ⟨_, hufDec_hufStream ram hlen (by rw [decoder_tree_of_counts_le hcounts, hroot]) rfl⟩
  · have hone := symbolCounts_replicate hn b
    rw [hone] at hroot
    cases hroot
    refine ⟨_, hufDec_hufStream (root' := .leaf b (BitVec.ofNat 8 n).toNat 0) ram ?_ ?_ ?_⟩
    · rw [hone, List.length_singleton]
      decide
    · rw [hone]
      rfl
    · rw [codeBits_leaf_replicate, codeBits_leaf_replicate]

end Sys2Proof.Machine
end

section
/-! The obligations on HUF_DEC after HUF_ENC. -/

open Sys2Proof Sys2Proof.Machine Sys2Proof.Claims

/-- Settles O51: 256 is 00 as a byte, so the table is empty, and the pairs that follow are payload. -/
theorem hufFullTableStreamIsMalformed : Obligations.HufFullTableStreamIsMalformed := by
  intro s t ht hstatus hall
  cases ht
  have hsize : (symbolCounts s.input).length = 256 := (symbolCounts_length_eq_256_iff _).2 hall
  obtain ⟨root, -, hsucc⟩ := hufEnc_succeeded (List.ne_nil_of_mem (hall 0)) hstatus
  rw [hufStream_eq, hsize, ← hufPairs_eq] at hsucc
  refine ⟨_, hsucc, rfl, fun u hfits hinput => hufDec_invalid_fails hfits fun tab bits hvalid => ?_⟩
  rw [hinput] at hvalid
  obtain ⟨rfl, -, -, hpad, hbits⟩ := valid_parts (tab := []) (payload := hufPairs (symbolCounts s.input) ++ _) rfl hvalid
  rw [List.length_append, hufPairs_length, hsize] at hbits
  exact ⟨rfl, List.length_pos_iff.1 (by omega)⟩

/-- Settles O52: HUF_ENC's output is the stream of the input's tree, from which HUF_DEC emits the input without an
error of its own. -/
theorem hufRoundTrip : Obligations.HufRoundTrip := by
  intro s t ht hstatus hcond
  cases ht
  have hdecodes {out : List Byte} (hrun : ∀ ram, ∃ ram', hufDec ram out = ⟨s.input, none, ram'⟩) (u v : State)
      (hinput : u.input = out) (hv : exec .hufDec u = .next v) (hcap : v.status ≠ statusFailed .capacityExceeded) :
      Succeeded u v s.input := by
    cases hv
    obtain ⟨ram', hrun⟩ := hrun u.ram
    rw [← hinput] at hrun
    have hsucc := runCodec_succeeds_of_status_ne (s := u) (codec := hufDec) (by rw [hrun]) hcap
    rwa [hrun] at hsucc
  by_cases hempty : s.input = []
  · have hsucc := (runCodec_of_status_succeeded hstatus).2
    rw [hempty, hufEnc_nil] at hsucc
    exact ⟨_, hsucc, hdecodes fun ram => ⟨ram, by rw [hempty]; rfl⟩⟩
  · obtain ⟨root, hroot, hsucc⟩ := hufEnc_succeeded hempty hstatus
    have hcond' := (hcond.resolve_left hempty).imp_left And.right
    exact ⟨_, hsucc, hdecodes fun ram => hufDec_hufStream_symbolCounts ram hroot hcond'⟩
end

section
/-! SUPPORT. The Golomb codec on any input (44_golomb.md R201 to R204): the length of codewords, GOL_DEC after them,
and what no codeword begins. -/

namespace Sys2Proof.Machine

/-! ### Lengths -/

theorem golWords_length (xs : List Byte) :
    (xs.flatMap Claims.golWord).length = (xs.map fun v => v.toNat / 4 + 3).sum := by
  simp [List.length_flatMap, golWord_eq]

theorem golBytes_length (xs : List Byte) :
    (golBytes xs).length = (xs.map fun v => v.toNat / 4).sum + 3 * xs.length := by
  rw [golBytes_eq, golWords_length, List.sum_map_add, List.map_const', List.sum_replicate, smul_eq_mul, Nat.mul_comm]

theorem length_le_golWords_length (xs : List Byte) : xs.length ≤ (xs.flatMap Claims.golWord).length := by
  rw [← golBytes_eq, golBytes_length]
  omega

/-- The quotients of bytes are at most 63 each. -/
theorem quotients_sum_le (xs : List Byte) : (xs.map fun v => v.toNat / 4).sum ≤ 63 * xs.length := by
  have hle := List.sum_le_card_nsmul (xs.map fun v : Byte => v.toNat / 4) 63 fun q hq => by
    obtain ⟨v, -, rfl⟩ := List.mem_map.1 hq
    have := v.isLt
    omega
  rwa [List.length_map, smul_eq_mul, Nat.mul_comm] at hle

theorem quotients_sum_eq_zero_iff (xs : List Byte) :
    (xs.map fun v => v.toNat / 4).sum = 0 ↔ ∀ v ∈ xs, v.toNat < 4 := by
  rw [List.sum_eq_zero_iff, List.forall_mem_map]
  exact forall₂_congr fun v _ => Nat.div_eq_zero_iff_lt (by decide)

/-! ### GOL_DEC on codewords -/

/-- After codewords the decoder ends as it does on the bytes that follow them. -/
theorem golDecode_golWords_err (xs rest : List Byte) :
    (golDecode none (xs.flatMap Claims.golWord ++ rest)).err = (golDecode none rest).err := by
  induction xs with
  | nil => rfl
  | cons v xs ih => rw [List.flatMap_cons, List.append_assoc, golDecode_golWord, Trace.before_err, ih]

theorem golDec_golWords_append (ram : Ram) (xs rest : List Byte) :
    golDec ram (xs.flatMap Claims.golWord ++ rest) =
      ⟨xs ++ (golDecode none rest).out, (golDecode none rest).err, ram⟩ := by
  rw [← golDecode_golWords_out, ← golDecode_golWords_err xs rest]
  rfl

theorem golDec_golWords (ram : Ram) (xs : List Byte) : golDec ram (xs.flatMap Claims.golWord) = ⟨xs, none, ram⟩ := by
  have hrun := golDec_golWords_append ram xs []
  rwa [List.append_nil, golDecode_nil, if_pos rfl, Trace.done_out, List.append_nil] at hrun

/-! ### What no codeword begins -/

/-- Up to 63 ones, a zero and two bit bytes are a codeword. -/
theorem golWord_of_parts {n : Nat} (x1 x0 : Bool) (hn : n ≤ 63) :
    Claims.golWord (BitVec.ofNat 8 (4 * n + (2 * x1.toNat + x0.toNat))) =
      List.replicate n 0x01#8 ++ [0x00#8, bitByte x1, bitByte x0] := by
  have h1 := x1.toNat_lt
  have h0 := x0.toNat_lt
  have hv : (BitVec.ofNat 8 (4 * n + (2 * x1.toNat + x0.toNat))).toNat = 4 * n + (2 * x1.toNat + x0.toNat) := by
    rw [BitVec.toNat_ofNat, Nat.mod_eq_of_lt (by omega)]
  have hquotient : (4 * n + (2 * x1.toNat + x0.toNat)) / 4 = n := by omega
  have hhigh : (4 * n + (2 * x1.toNat + x0.toNat)) % 4 / 2 = x1.toNat := by omega
  have hlow : (4 * n + (2 * x1.toNat + x0.toNat)) % 2 = x0.toNat := by omega
  have hbit (x : Bool) : BitVec.ofNat 8 x.toNat = bitByte x := by cases x <;> rfl
  rw [Claims.golWord, hv, hquotient, hhigh, hlow, hbit, hbit]

/-- From inside a codeword, or on a non-empty input, GOL_DEC finds the rest of a codeword or MalformedData. -/
theorem golDecode_malformed_or_word (q : Option Nat) (xs : List Byte) (hq : q.getD 0 ≤ 63) (h : q ≠ none ∨ xs ≠ []) :
    golDecode q xs = .malformed ∨
      ∃ n x1 x0 rest, q.getD 0 + n ≤ 63 ∧ xs = List.replicate n 0x01#8 ++ [0x00#8, bitByte x1, bitByte x0] ++ rest := by
  induction xs generalizing q with
  | nil => exact .inl ((golDecode_nil q).trans (if_neg (h.resolve_right (· rfl))))
  | cons b xs ih =>
    rcases golDecode_cases q b xs with hmal | ⟨rfl, hq'⟩ | ⟨rfl, x1, x0, rest, rfl⟩
    · exact .inl hmal
    · rw [golDecode_one, if_neg (Nat.not_lt.2 hq')]
      refine (ih (some (q.getD 0 + 1)) hq' (.inl nofun)).imp_right ?_
      rintro ⟨n, x1, x0, rest, hn, rfl⟩
      rw [Option.getD_some] at hn
      exact ⟨n + 1, x1, x0, rest, by omega, rfl⟩
    · exact .inr ⟨0, x1, x0, rest, hq, rfl⟩

/-- GOL_DEC at the start of a codeword finds a non-empty input malformed that no codeword begins. -/
theorem golDecode_malformed {rest : List Byte} (hne : rest ≠ []) (hno : ∀ v, ¬ Claims.golWord v <+: rest) :
    golDecode none rest = .malformed := by
  refine (golDecode_malformed_or_word none rest (Nat.zero_le _) (.inr hne)).resolve_right ?_
  rintro ⟨n, x1, x0, tail, hn, rfl⟩
  rw [Option.getD_none, Nat.zero_add] at hn
  rw [← golWord_of_parts x1 x0 hn] at hno
  exact hno _ ⟨tail, rfl⟩

/-- GOL_DEC emits the codewords' bytes before it finds a non-empty rest malformed that no codeword begins. -/
theorem golDec_golWords_malformed (ram : Ram) (xs : List Byte) {rest : List Byte} (hne : rest ≠ [])
    (hno : ∀ v, ¬ Claims.golWord v <+: rest) :
    golDec ram (xs.flatMap Claims.golWord ++ rest) = ⟨xs, some .malformedData, ram⟩ := by
  rw [golDec_golWords_append, golDecode_malformed hne hno, Trace.malformed_out, List.append_nil, Trace.malformed_err]

/-- Any input is some codewords and a rest that no codeword begins. -/
theorem exists_golWords_append (xs : List Byte) :
    ∃ ys rest : List Byte, xs = ys.flatMap Claims.golWord ++ rest ∧ ∀ v, ¬ Claims.golWord v <+: rest := by
  induction hn : xs.length using Nat.strong_induction_on generalizing xs with
  | _ n ih =>
    by_cases hstop : ∀ v, ¬ Claims.golWord v <+: xs
    · exact ⟨[], xs, rfl, hstop⟩
    · push Not at hstop
      obtain ⟨v, tail, rfl⟩ := hstop
      have hpos : 0 < (Claims.golWord v).length := by simp [Claims.golWord]
      rw [List.length_append] at hn
      obtain ⟨ys, rest, rfl, hrest⟩ := ih tail.length (by omega) tail rfl
      exact ⟨v :: ys, rest, by rw [List.flatMap_cons, List.append_assoc], hrest⟩

end Sys2Proof.Machine
end

section
/-! The obligations on the Golomb codec. -/

open Sys2Proof Sys2Proof.Machine Sys2Proof.Claims

/-- Settles O28: GOL_ENC raises no error of its own, and its output is the input's codewords. -/
theorem golEncCompletes : Obligations.GolEncCompletes := by
  intro s hfits hcap
  have hrun : golEnc s.ram s.input = ⟨s.input.flatMap golWord, none, s.ram⟩ := by rw [golEnc, golBytes_eq]
  obtain ⟨hsucc, hram⟩ := runCodec_succeeds s golEnc hfits (by rw [hrun]) (by rwa [hrun, golWords_length])
  rw [hrun] at hsucc hram
  exact ⟨_, rfl, hsucc, hsucc.outLen.trans (golWords_length _), hram⟩

/-- Settles O29: each codeword has three bytes and as many more as its byte's quotient, 0 to 63. -/
theorem golEncLengthBounds : Obligations.GolEncLengthBounds := by
  intro xs
  rw [← quotients_sum_eq_zero_iff, golBytes_length]
  have hle := quotients_sum_le xs
  refine ⟨?_, ?_, ?_⟩ <;> omega

/-- Settles O30: GOL_DEC reads each codeword as its byte. -/
theorem golDecCompletes : Obligations.GolDecCompletes := by
  intro s xs hfits hinput hcap
  have hrun : golDec s.ram s.input = ⟨xs, none, s.ram⟩ := by rw [hinput, golDec_golWords]
  have hres := runCodec_succeeds s golDec hfits (by rw [hrun]) (by rwa [hrun])
  rw [hrun] at hres
  exact ⟨_, rfl, hres⟩

/-- Codewords whose bytes fit OUT_CAP and then bytes that no codeword begins are MalformedData. -/
theorem golDec_after_codewords_fails {s : State} {xs rest : List Byte} (hfits : inputFits s)
    (hinput : s.input = xs.flatMap golWord ++ rest) (hne : rest ≠ []) (hno : ∀ v, ¬ golWord v <+: rest)
    (hcap : xs.length ≤ s.outCap.toNat) : ∃ t, exec .golDec s = .next t ∧ FailedInCodec s t .malformedData := by
  have hrun := golDec_golWords_malformed s.ram xs hne hno
  rw [← hinput] at hrun
  exact ⟨_, rfl, runCodec_fails s golDec _ hfits (by rw [hrun]) (by rwa [hrun])⟩

/-- Settles O31: an input that is no sequence of codewords is some codewords, no more than it has bytes, followed by a
non-empty rest that no codeword begins. -/
theorem golDecRefusesEverythingElse : Obligations.GolDecRefusesEverythingElse := by
  refine ⟨fun s xs rest hfits hinput hne hno hcap => golDec_after_codewords_fails hfits hinput hne hno hcap,
    fun s hfits hcap hnone => ?_⟩
  obtain ⟨ys, rest, hinput, hno⟩ := exists_golWords_append s.input
  have hne : rest ≠ [] := by
    rintro rfl
    exact hnone ⟨ys, hinput.trans (List.append_nil _)⟩
  have hlen := length_le_golWords_length ys
  rw [← input_length, hinput, List.length_append] at hcap
  exact golDec_after_codewords_fails hfits hinput hne hno (by omega)

/-- Settles O32: GOL_ENC's output is the input's codewords, which GOL_DEC reads back, and neither raises an error of its
own. -/
theorem golRoundTrip : Obligations.GolRoundTrip := by
  intro s t _ ht hstatus
  cases ht
  refine ⟨golBytes s.input, runCodec_succeeds_of_status_ne rfl hstatus, fun u v hinput hv hstatus' => ?_⟩
  cases hv
  have hrun : golDec u.ram u.input = ⟨s.input, none, u.ram⟩ := by rw [hinput, golBytes_eq, golDec_golWords]
  have hsucc := runCodec_succeeds_of_status_ne (s := u) (codec := golDec) (by rw [hrun]) hstatus'
  rwa [hrun] at hsucc
end

section
/-! SUPPORT. The LZW dictionary along a run (45_lzw.md R220 to R225, R228): what a successful and a failed Insert say, what
every Insert of a loop keeps, how many entries each loop adds, and with which errors it ends. -/

namespace Sys2Proof.Machine

/-! ### Insert and the sequence of a code -/

theorem lzwInsert_eq_ok {guard : Bool} {cap : Nat} {dict dict' : List (List Byte)} {t : List Byte}
    (h : lzwInsert guard cap dict t = .ok dict') :
    ¬ (guard = true ∧ dict.length = 65536) ∧ dict' = dict ++ [t] := by
  rcases lzwInsert_cases guard cap dict t with ⟨-, -, e⟩ | ⟨-, -, e⟩ | ⟨hguard, -, e⟩ <;> cases e.symm.trans h
  exact ⟨hguard, rfl⟩

theorem lzwInsert_eq_error {guard : Bool} {cap : Nat} {dict : List (List Byte)} {t : List Byte} {e : CmdError}
    (h : lzwInsert guard cap dict t = .error e) :
    (e = .unsupportedInput ∧ guard = true ∧ dict.length = 65536) ∨
      (e = .capacityExceeded ∧ dict.length = cap ∧ ¬ (guard = true ∧ dict.length = 65536)) := by
  rcases lzwInsert_cases guard cap dict t with ⟨hg, hl, e⟩ | ⟨hguard, hl, e⟩ | ⟨-, -, e⟩ <;> cases e.symm.trans h
  · exact .inl ⟨rfl, hg, hl⟩
  · exact .inr ⟨rfl, hl, hguard⟩

theorem lzwEntry_of_lt {dict : List (List Byte)} {k : Nat} (w : List Byte) (h : k < dict.length) :
    lzwEntry dict w k = dict[k]? := if_pos h

theorem lzwEntry_length (dict : List (List Byte)) (w : List Byte) :
    lzwEntry dict w dict.length = some (w ++ w.take 1) := by
  rw [lzwEntry, if_neg (Nat.lt_irrefl _), if_pos rfl]

theorem lzwEntry_eq_none_iff (dict : List (List Byte)) (w : List Byte) (k : Nat) :
    lzwEntry dict w k = none ↔ dict.length < k := by
  rcases Nat.lt_trichotomy k dict.length with h | rfl | h
  · simp [lzwEntry_of_lt w h, h, h.not_gt]
  · simp [lzwEntry_length]
  · simp [lzwEntry, h, h.not_gt, h.ne']

/-- The sequence read for a code is its entry once the decoder has inserted. -/
theorem getElem?_of_lzwEntry {dict : List (List Byte)} {w e : List Byte} {k : Nat} (h : lzwEntry dict w k = some e) :
    (dict ++ [w ++ e.take 1])[k]? = some e := by
  rcases Nat.lt_trichotomy k dict.length with hk | rfl | hk
  · rw [List.getElem?_append_left hk, ← lzwEntry_of_lt w hk, h]
  · cases (lzwEntry_length dict w).symm.trans h
    rw [List.getElem?_concat_length]
    cases w <;> rfl
  · cases ((lzwEntry_eq_none_iff dict w k).2 hk).symm.trans h

/-! ### What every Insert keeps, a loop keeps -/

theorem lzwCodes_keeps {guard : Bool} {cap : Nat} {P : List (List Byte) → Prop}
    (hP : ∀ {d d' t}, t ∉ d → lzwInsert guard cap d t = .ok d' → P d → P d')
    (w : List Byte) {dict : List (List Byte)} (xs : List Byte) (h : P dict) : P (lzwCodes guard cap w dict xs).dict := by
  fun_induction lzwCodes guard cap w dict xs with
  | case1 => exact h
  | case2 w dict c xs hmem ih => exact ih h
  | case3 => exact h
  | case4 w dict c xs hmem dict' hins ih => exact ih (hP hmem hins h)

theorem lzwExpand_keeps {guard : Bool} {cap : Nat} {P : List (List Byte) → Prop}
    (hP : ∀ {d d' t}, lzwInsert guard cap d t = .ok d' → P d → P d')
    (w : List Byte) {dict : List (List Byte)} (ks : List Nat) (h : P dict) : P (lzwExpand guard cap w dict ks).dict := by
  fun_induction lzwExpand guard cap w dict ks with
  | case1 => exact h
  | case2 => exact h
  | case3 => exact h
  | case4 w dict k ks e he dict' hins ih => exact ih (hP hins h)

theorem lzwDecodeCodes_keeps {guard : Bool} {cap : Nat} {P : List (List Byte) → Prop}
    (hP : ∀ {d d' t}, lzwInsert guard cap d t = .ok d' → P d → P d') (ks : List Nat) (h : P lzwInit) :
    P (lzwDecodeCodes guard cap ks).dict := by
  cases ks with
  | nil => exact h
  | cons k ks =>
    rw [lzwDecodeCodes_cons]
    split
    · exact h
    · exact lzwExpand_keeps hP _ ks h

/-- Under the guard the codes stay 16-bit (45_lzw.md R222). -/
theorem lzwInsert_keeps_limit {guard : Bool} {cap : Nat} {dict dict' : List (List Byte)} {t : List Byte}
    (h : lzwInsert guard cap dict t = .ok dict') (hlimit : guard = true → dict.length ≤ 65536) :
    guard = true → dict'.length ≤ 65536 := by
  intro hg
  obtain ⟨hguard, rfl⟩ := lzwInsert_eq_ok h
  have hne : dict.length ≠ 65536 := fun hl => hguard ⟨hg, hl⟩
  have hle := hlimit hg
  rw [List.length_append, List.length_singleton]
  omega

theorem lzwInit_limit (guard : Bool) : guard = true → lzwInit.length ≤ 65536 := fun _ => by
  rw [lzwInit_length]
  decide

/-- Insert only appends. -/
theorem lzwInsert_keeps_prefix {guard : Bool} {cap : Nat} {d dict dict' : List (List Byte)} {t : List Byte}
    (h : lzwInsert guard cap dict t = .ok dict') (hd : d <+: dict) : d <+: dict' := by
  rw [(lzwInsert_eq_ok h).2]
  exact hd.trans (List.prefix_append _ _)

theorem lzwInsert_keeps_nodup {guard : Bool} {cap : Nat} {dict dict' : List (List Byte)} {t : List Byte} (hnew : t ∉ dict)
    (h : lzwInsert guard cap dict t = .ok dict') (hd : dict.Nodup) : dict'.Nodup := by
  rw [(lzwInsert_eq_ok h).2]
  exact List.nodup_append.2 ⟨hd, List.nodup_singleton t, fun x hx y hy hxy => hnew (List.mem_singleton.1 hy ▸ hxy ▸ hx)⟩

/-! ### Ends with an Insert's error -/

/-- The run ends with the error of Insert on its dictionary, which has fewer than `n` entries. -/
structure LzwEnd.InsertFails {α : Type} (guard : Bool) (cap n : Nat) (t : LzwEnd α) (e : CmdError) : Prop where
  err : t.err = some e
  insert : ∃ s, lzwInsert guard cap t.dict s = .error e
  length : t.dict.length < n

section
variable {α : Type} {guard : Bool} {cap n : Nat} {t : LzwEnd α} {e : CmdError}

theorem LzwEnd.InsertFails.after (h : t.InsertFails guard cap n e) (b : List α) : (t.after b).InsertFails guard cap n e :=
  ⟨h.err, h.insert, h.length⟩

/-- Insert fails at the guard's limit or at the capacity, either of which is below `n` then (45_lzw.md R222). -/
theorem LzwEnd.InsertFails.cases (h : t.InsertFails guard cap n e) :
    (e = .unsupportedInput ∧ guard = true ∧ 65536 < n) ∨
      (e = .capacityExceeded ∧ t.dict.length = cap ∧ cap < n ∧ ¬ (guard = true ∧ cap = 65536)) := by
  obtain ⟨s, hins⟩ := h.insert
  have hlen := h.length
  rcases lzwInsert_eq_error hins with ⟨he, hg, hl⟩ | ⟨he, hl, hguard⟩
  · exact .inl ⟨he, hg, hl ▸ hlen⟩
  · exact .inr ⟨he, hl, hl ▸ hlen, hl ▸ hguard⟩

/-- With room for `n` entries no Insert fails before there are `n`. -/
theorem LzwEnd.InsertFails.no_room (h : t.InsertFails guard cap n e) (hcap : n ≤ cap) : ¬ (guard = true → n ≤ 65536) := by
  intro hguard
  rcases h.cases with ⟨-, hg, hlt⟩ | ⟨-, -, hlt, -⟩
  · exact Nat.not_lt.2 (hguard hg) hlt
  · exact Nat.not_lt.2 hcap hlt

/-- Where no end but a failed Insert is CapacityExceeded, the guard with a dictionary of 65536 entries excludes it, and so
does a dictionary of `n` entries (45_lzw.md R228). -/
theorem LzwEnd.capacityExceeded_excluded (hlimit : guard = true → t.dict.length ≤ 65536)
    (hfails : t.err = some .capacityExceeded → t.InsertFails guard cap n .capacityExceeded) :
    (guard = true → 65536 ≤ cap → t.dict.length ≤ 65536 ∧ t.err ≠ some .capacityExceeded) ∧
      (n ≤ cap → t.err ≠ some .capacityExceeded) := by
  have hfull (herr : t.err = some .capacityExceeded) :
      t.dict.length = cap ∧ cap < n ∧ ¬ (guard = true ∧ cap = 65536) := by
    rcases (hfails herr).cases with ⟨he, -⟩ | ⟨-, hfull⟩
    · cases he
    · exact hfull
  refine ⟨fun hg hcap => ⟨hlimit hg, fun herr => ?_⟩, fun hn herr => Nat.not_lt.2 hn (hfull herr).2.1⟩
  obtain ⟨hl, -, hguard⟩ := hfull herr
  have hle := hlimit hg
  exact hguard ⟨hg, by omega⟩

end

/-! ### LZW_ENC's loop -/

/-- Every code but the last written has inserted an entry, and every byte read adds at most one code. -/
theorem lzwCodes_lengths (guard : Bool) (cap : Nat) {w : List Byte} (dict : List (List Byte)) (xs : List Byte)
    (hw : w ≠ []) :
    (lzwCodes guard cap w dict xs).dict.length + 1 = dict.length + (lzwCodes guard cap w dict xs).out.length ∧
      (lzwCodes guard cap w dict xs).out.length ≤ xs.length + 1 := by
  fun_induction lzwCodes guard cap w dict xs with
  | case1 w dict => simp [hw]
  | case2 w dict c xs hmem ih =>
    obtain ⟨hdict, hout⟩ := ih (by simp)
    exact ⟨hdict, Nat.le_succ_of_le hout⟩
  | case3 => simp
  | case4 w dict c xs hmem dict' hins ih =>
    obtain ⟨hdict, hout⟩ := ih (by simp)
    rw [(lzwInsert_eq_ok hins).2] at hdict hout ⊢
    simp only [LzwEnd.after_dict, LzwEnd.after_out, List.length_append, List.length_cons,
      List.length_nil] at *
    omega

theorem lzwCodes_insertFails {guard : Bool} {cap : Nat} {w : List Byte} {dict : List (List Byte)} {xs : List Byte}
    {e : CmdError} (herr : (lzwCodes guard cap w dict xs).err = some e) :
    (lzwCodes guard cap w dict xs).InsertFails guard cap (dict.length + xs.length) e := by
  fun_induction lzwCodes guard cap w dict xs with
  | case1 => cases herr
  | case2 w dict c xs hmem ih =>
    have hfails := ih herr
    exact ⟨herr, hfails.insert, Nat.lt_succ_of_lt hfails.length⟩
  | case3 w dict c xs hmem e' hins =>
    cases herr
    exact ⟨rfl, ⟨_, hins⟩, Nat.lt_add_of_pos_right (Nat.zero_lt_succ _)⟩
  | case4 w dict c xs hmem dict' hins ih =>
    obtain ⟨-, hins', hlen⟩ := ih herr
    refine ⟨herr, hins', ?_⟩
    rw [(lzwInsert_eq_ok hins).2, List.length_append, List.length_singleton] at hlen
    rw [(lzwInsert_eq_ok hins).2, LzwEnd.after_dict, List.length_cons]
    omega

/-- LZW_ENC on a non-empty input (45_lzw.md R228). -/
theorem lzwCodes_init_lengths (guard : Bool) (cap : Nat) {xs : List Byte} (hne : xs ≠ []) :
    (lzwCodes guard cap [] lzwInit xs).dict.length = 255 + (lzwCodes guard cap [] lzwInit xs).out.length ∧
      (lzwCodes guard cap [] lzwInit xs).out.length ≤ xs.length := by
  obtain ⟨c, xs, rfl⟩ := List.exists_cons_of_ne_nil hne
  rw [lzwCodes_start, List.length_cons]
  have hlengths := lzwCodes_lengths guard cap lzwInit xs (List.cons_ne_nil c [])
  rw [lzwInit_length] at hlengths
  omega

theorem lzwCodes_init_insertFails {guard : Bool} {cap : Nat} {xs : List Byte} {e : CmdError}
    (herr : (lzwCodes guard cap [] lzwInit xs).err = some e) :
    (lzwCodes guard cap [] lzwInit xs).InsertFails guard cap (255 + xs.length) e := by
  cases xs with
  | nil => cases herr
  | cons c xs =>
    rw [lzwCodes_start] at herr ⊢
    have hfails := lzwCodes_insertFails herr
    rwa [lzwInit_length, show 256 + xs.length = 255 + (xs.length + 1) by omega] at hfails

/-- LZW_ENC raises no error of its loop where an entry for each byte has room. -/
theorem lzwCodes_init_err_of_room {guard : Bool} {cap : Nat} {xs : List Byte} (hcap : 255 + xs.length ≤ cap)
    (hguard : guard = true → 255 + xs.length ≤ 65536) : (lzwCodes guard cap [] lzwInit xs).err = none := by
  cases herr : (lzwCodes guard cap [] lzwInit xs).err with
  | none => rfl
  | some e => exact absurd hguard ((lzwCodes_init_insertFails herr).no_room hcap)

/-! ### LZW_DEC's loop -/

/-- Every code read inserts an entry. -/
theorem lzwExpand_lengths (guard : Bool) (cap : Nat) (w : List Byte) (dict : List (List Byte)) (ks : List Nat) :
    (lzwExpand guard cap w dict ks).dict.length ≤ dict.length + ks.length ∧
      ((lzwExpand guard cap w dict ks).err = none →
        (lzwExpand guard cap w dict ks).dict.length = dict.length + ks.length) := by
  fun_induction lzwExpand guard cap w dict ks with
  | case1 => simp
  | case2 => simp
  | case3 => simp
  | case4 w dict k ks e he dict' hins ih =>
    rw [(lzwInsert_eq_ok hins).2, List.length_append, List.length_singleton] at ih
    rw [(lzwInsert_eq_ok hins).2, LzwEnd.after_dict, LzwEnd.after_err, List.length_cons]
    rwa [Nat.add_comm ks.length, ← Nat.add_assoc]

theorem lzwExpand_err {guard : Bool} {cap : Nat} {w : List Byte} {dict : List (List Byte)} {ks : List Nat} {e : CmdError}
    (herr : (lzwExpand guard cap w dict ks).err = some e) :
    e = .malformedData ∨ (lzwExpand guard cap w dict ks).InsertFails guard cap (dict.length + ks.length) e := by
  fun_induction lzwExpand guard cap w dict ks with
  | case1 => cases herr
  | case2 =>
    cases herr
    exact .inl rfl
  | case3 w dict k ks e he err hins =>
    cases herr
    exact .inr ⟨rfl, ⟨_, hins⟩, Nat.lt_add_of_pos_right (Nat.zero_lt_succ _)⟩
  | case4 w dict k ks e he dict' hins ih =>
    rw [(lzwInsert_eq_ok hins).2, List.length_append, List.length_singleton] at ih
    rw [(lzwInsert_eq_ok hins).2, List.length_cons, Nat.add_comm ks.length, ← Nat.add_assoc]
    rw [(lzwInsert_eq_ok hins).2] at herr
    exact (ih herr).imp_right fun hfails => hfails.after e

/-- LZW_DEC on at least one code (45_lzw.md R228). -/
theorem lzwDecodeCodes_lengths (guard : Bool) (cap : Nat) {ks : List Nat} (hne : ks ≠ []) :
    (lzwDecodeCodes guard cap ks).dict.length ≤ 255 + ks.length ∧
      ((lzwDecodeCodes guard cap ks).err = none → (lzwDecodeCodes guard cap ks).dict.length = 255 + ks.length) := by
  obtain ⟨k, ks, rfl⟩ := List.exists_cons_of_ne_nil hne
  rw [lzwDecodeCodes_cons, List.length_cons, show 255 + (ks.length + 1) = 256 + ks.length by omega, ← lzwInit_length]
  split
  · simp
  · exact lzwExpand_lengths guard cap _ lzwInit ks

theorem lzwDecodeCodes_err {guard : Bool} {cap : Nat} {ks : List Nat} {e : CmdError}
    (herr : (lzwDecodeCodes guard cap ks).err = some e) :
    e = .malformedData ∨ (lzwDecodeCodes guard cap ks).InsertFails guard cap (255 + ks.length) e := by
  cases ks with
  | nil => cases herr
  | cons k ks =>
    rw [lzwDecodeCodes_cons] at herr ⊢
    rw [List.length_cons, show 255 + (ks.length + 1) = 256 + ks.length by omega, ← lzwInit_length]
    split at herr
    next hk =>
      cases herr
      exact .inl rfl
    next hk =>
      rw [if_neg hk]
      exact (lzwExpand_err herr).imp_right fun hfails => hfails.after _

/-! ### The codes LZW_DEC accepts -/

/-- Each code is at most the next free code at its place, the first of which is `n` (45_lzw.md R224). -/
def Assignable (n : Nat) (ks : List Nat) : Prop := ∀ p k, ks[p]? = some k → k ≤ n + p

theorem assignable_nil (n : Nat) : Assignable n [] := nofun

theorem assignable_cons {n k : Nat} {ks : List Nat} : Assignable n (k :: ks) ↔ k ≤ n ∧ Assignable (n + 1) ks := by
  refine ⟨fun h => ⟨h 0 k rfl, fun p j hj => ?_⟩, fun h p j hj => ?_⟩
  · have := h (p + 1) j hj
    omega
  · cases p with
    | zero =>
      cases hj
      exact h.1
    | succ p =>
      have := h.2 p j hj
      omega

/-- Where the loop does not end in a failed Insert, it ends without error exactly on assignable codes. -/
theorem lzwExpand_err_eq_none_iff {guard : Bool} {cap : Nat} {w : List Byte} {dict : List (List Byte)} {ks : List Nat}
    (h : (lzwExpand guard cap w dict ks).err = none ∨ (lzwExpand guard cap w dict ks).err = some .malformedData) :
    (lzwExpand guard cap w dict ks).err = none ↔ Assignable dict.length ks := by
  fun_induction lzwExpand guard cap w dict ks with
  | case1 => exact iff_of_true rfl (assignable_nil _)
  | case2 w dict k ks he =>
    have hk := (lzwEntry_eq_none_iff dict w k).1 he
    exact iff_of_false nofun fun hks => Nat.not_lt.2 (assignable_cons.1 hks).1 hk
  | case3 w dict k ks e he err hins =>
    rcases h with h | h
    · cases h
    · cases h
      rcases lzwInsert_eq_error hins with ⟨h, -⟩ | ⟨h, -⟩ <;> cases h
  | case4 w dict k ks e he dict' hins ih =>
    have hk : k ≤ dict.length :=
      Nat.not_lt.1 (mt (lzwEntry_eq_none_iff dict w k).2 (Option.ne_none_iff_exists'.2 ⟨e, he⟩))
    rw [assignable_cons, and_iff_right hk, LzwEnd.after_err, ih h, (lzwInsert_eq_ok hins).2, List.length_append,
      List.length_singleton]

theorem lzwDecodeCodes_err_eq_none_iff {guard : Bool} {cap : Nat} {ks : List Nat}
    (h : (lzwDecodeCodes guard cap ks).err = none ∨ (lzwDecodeCodes guard cap ks).err = some .malformedData) :
    (lzwDecodeCodes guard cap ks).err = none ↔ Assignable 255 ks := by
  cases ks with
  | nil => exact iff_of_true rfl (assignable_nil _)
  | cons k ks =>
    rw [lzwDecodeCodes_cons] at h ⊢
    rw [assignable_cons]
    split
    next hk => exact iff_of_false nofun fun hks => Nat.not_lt.2 hks.1 hk
    next hk =>
      rw [if_neg hk] at h
      rw [and_iff_right (Nat.not_lt.1 hk), LzwEnd.after_err, lzwExpand_err_eq_none_iff h, lzwInit_length]

end Sys2Proof.Machine
end

section
/-! The obligations on Insert, the size of the dictionary and the codes LZW_DEC accepts. -/

open Sys2Proof Sys2Proof.Machine Sys2Proof.Claims

/-- Settles O33: Insert's three cases exclude each other, and a code is below, at or above the number of entries. -/
theorem lzwInsertAndEntryRules : Obligations.LzwInsertAndEntryRules := by
  intro guard cap dict w k
  have hnot (h : guard = false ∨ dict.length ≠ 65536) : ¬ (guard = true ∧ dict.length = 65536) := by
    rintro ⟨rfl, hl⟩
    exact h.elim nofun (· hl)
  refine ⟨fun hg hl => if_pos ⟨hg, hl⟩, fun hguard hcap => ?_, fun hguard hcap => ?_, lzwEntry_of_lt w,
    fun hk => hk ▸ lzwEntry_length dict w, (lzwEntry_eq_none_iff dict w k).2⟩
  · rw [lzwInsert, if_neg (hnot hguard), if_pos hcap]
  · rw [lzwInsert, if_neg (hnot hguard), if_neg hcap]

/-- Settles O36: each loop adds one entry per code but one, and its CapacityExceeded is a failed Insert's. -/
theorem lzwDictionaryBounds : Obligations.LzwDictionaryBounds := by
  refine ⟨fun guard cap xs hne => ?_, fun guard cap ks hne => ?_⟩
  · obtain ⟨hdict, hout⟩ := lzwCodes_init_lengths guard cap hne
    exact ⟨by omega, hout, fun _ => hdict, LzwEnd.capacityExceeded_excluded
      (lzwCodes_keeps (fun _ => lzwInsert_keeps_limit) [] xs (lzwInit_limit guard)) lzwCodes_init_insertFails⟩
  · obtain ⟨hle, heq⟩ := lzwDecodeCodes_lengths guard cap hne
    exact ⟨hle, heq, LzwEnd.capacityExceeded_excluded (lzwDecodeCodes_keeps lzwInsert_keeps_limit ks (lzwInit_limit guard))
      fun herr => (lzwDecodeCodes_err herr).resolve_left nofun⟩

/-- Settles O37: with room for every entry no Insert fails. -/
theorem lzwDecAcceptsExactlyAssignableCodes : Obligations.LzwDecAcceptsExactlyAssignableCodes := by
  intro guard cap ks hcap hguard
  have hend : (lzwDecodeCodes guard cap ks).err = none ∨ (lzwDecodeCodes guard cap ks).err = some .malformedData := by
    cases herr : (lzwDecodeCodes guard cap ks).err with
    | none => exact .inl rfl
    | some e =>
      rcases lzwDecodeCodes_err herr with rfl | hfails
      · exact .inr rfl
      · exact absurd hguard (hfails.no_room hcap)
  exact ⟨hend, lzwDecodeCodes_err_eq_none_iff hend⟩
end

section
/-! SUPPORT. The LZW codes of a run (45_lzw.md R220 to R227): LZW_DEC's output is the entries of the codes it reads, and
on the codes LZW_ENC writes LZW_DEC builds the same dictionary, one entry behind, and gives back the input. -/

namespace Sys2Proof.Machine

/-! ### LZW_DEC's output -/

/-- From entry `n` upward the dictionary has, for each code of the list and the next one, the entry of the first followed
by the first byte of the second's (45_lzw.md R224). -/
def ChainedFrom (n : Nat) (ks : List Nat) (dict : List (List Byte)) : Prop :=
  ∀ p k k', ks[p]? = some k → ks[p + 1]? = some k' →
    dict[n + p]? = some (dict.getD k [] ++ (dict.getD k' []).take 1)

theorem chainedFrom_singleton (n k : Nat) (dict : List (List Byte)) : ChainedFrom n [k] dict := fun _ _ _ _ => nofun

theorem ChainedFrom.cons {n k k' : Nat} {ks : List Nat} {dict : List (List Byte)}
    (hn : dict[n]? = some (dict.getD k [] ++ (dict.getD k' []).take 1)) (h : ChainedFrom (n + 1) (k' :: ks) dict) :
    ChainedFrom n (k :: k' :: ks) dict := by
  intro p j j' hj hj'
  cases p with
  | zero =>
    cases hj
    cases hj'
    exact hn
  | succ p =>
    rw [Nat.add_comm p, ← Nat.add_assoc]
    exact h p j j' hj hj'

/-- An entry stays where it is while the dictionary grows. -/
theorem getElem?_of_prefix {d dict : List (List Byte)} {k : Nat} {e : List Byte} (h : d <+: dict) (he : d[k]? = some e) :
    dict[k]? = some e := by
  obtain ⟨t, rfl⟩ := h
  rw [List.getElem?_append_left (List.getElem?_eq_some_iff.1 he).1, he]

theorem lzwExpand_prefix (guard : Bool) (cap : Nat) (w : List Byte) (dict : List (List Byte)) (ks : List Nat) :
    dict <+: (lzwExpand guard cap w dict ks).dict := lzwExpand_keeps lzwInsert_keeps_prefix w ks List.prefix_rfl

/-- What LZW_DEC's loop emits and inserts after the code `k0` whose sequence is `w`. -/
theorem lzwExpand_spelled {guard : Bool} {cap : Nat} {w : List Byte} {dict : List (List Byte)} {ks : List Nat} {k0 : Nat}
    (hk0 : dict[k0]? = some w) (herr : (lzwExpand guard cap w dict ks).err = none) :
    (lzwExpand guard cap w dict ks).out = ks.flatMap (fun k => (lzwExpand guard cap w dict ks).dict.getD k []) ∧
      (∀ k ∈ ks, k < (lzwExpand guard cap w dict ks).dict.length) ∧
      ChainedFrom dict.length (k0 :: ks) (lzwExpand guard cap w dict ks).dict := by
  fun_induction lzwExpand guard cap w dict ks generalizing k0 with
  | case1 w dict => exact ⟨rfl, List.forall_mem_nil _, chainedFrom_singleton _ _ _⟩
  | case2 => cases herr
  | case3 => cases herr
  | case4 w dict k ks e he dict' hins ih =>
    obtain ⟨-, rfl⟩ := lzwInsert_eq_ok hins
    have hprefix := lzwExpand_prefix guard cap e (dict ++ [w ++ e.take 1]) ks
    obtain ⟨hout, hlt, hchain⟩ := ih (getElem?_of_lzwEntry he) herr
    have hk := getElem?_of_prefix hprefix (getElem?_of_lzwEntry he)
    have hw := getElem?_of_prefix ((List.prefix_append dict _).trans hprefix) hk0
    have hnew := getElem?_of_prefix hprefix List.getElem?_concat_length
    rw [LzwEnd.after_dict, LzwEnd.after_out]
    rw [List.length_append, List.length_singleton] at hchain
    refine ⟨?_, List.forall_mem_cons.2 ⟨(List.getElem?_eq_some_iff.1 hk).1, hlt⟩, .cons ?_ hchain⟩
    · rw [List.flatMap_cons, List.getD_eq_getElem?_getD, hk, Option.getD_some, ← hout]
    · rw [List.getD_eq_getElem?_getD, List.getD_eq_getElem?_getD, hw, hk, hnew]
      rfl

/-- What LZW_DEC emits and inserts. -/
theorem lzwDecodeCodes_spelled {guard : Bool} {cap : Nat} {ks : List Nat}
    (herr : (lzwDecodeCodes guard cap ks).err = none) :
    (lzwDecodeCodes guard cap ks).out = ks.flatMap (fun k => (lzwDecodeCodes guard cap ks).dict.getD k []) ∧
      (∀ k ∈ ks, k < (lzwDecodeCodes guard cap ks).dict.length) ∧ lzwInit <+: (lzwDecodeCodes guard cap ks).dict ∧
      ChainedFrom 256 ks (lzwDecodeCodes guard cap ks).dict := by
  cases ks with
  | nil => exact ⟨rfl, List.forall_mem_nil _, List.prefix_rfl, nofun⟩
  | cons k ks =>
    by_cases hk : k > 255
    · rw [lzwDecodeCodes_cons, if_pos hk] at herr
      cases herr
    · rw [lzwDecodeCodes_cons, if_neg hk] at herr ⊢
      have hfirst : lzwInit[k]? = some [BitVec.ofNat 8 k] := lzwInit_getElem? k (by omega)
      have hprefix := lzwExpand_prefix guard cap [BitVec.ofNat 8 k] lzwInit ks
      have hk' := getElem?_of_prefix hprefix hfirst
      obtain ⟨hout, hlt, hchain⟩ := lzwExpand_spelled hfirst herr
      rw [lzwInit_length] at hchain
      rw [LzwEnd.after_dict, LzwEnd.after_out]
      refine ⟨?_, List.forall_mem_cons.2 ⟨(List.getElem?_eq_some_iff.1 hk').1, hlt⟩, hprefix, hchain⟩
      rw [List.flatMap_cons, List.getD_eq_getElem?_getD, hk', Option.getD_some, ← hout]

/-! ### LZW_DEC on the codes of LZW_ENC -/

/-- The code LZW_ENC writes for `v` right after it inserted `w` followed by `v`'s first byte is read as `v` by a decoder
that has not inserted that entry yet: it is then the code about to be assigned, or an older one (45_lzw.md R225). -/
theorem lzwEntry_lzwCode {dict : List (List Byte)} {w v : List Byte} (hw : w ≠ []) (hv : v ∈ dict ++ [w ++ v.take 1]) :
    lzwEntry dict w (lzwCode (dict ++ [w ++ v.take 1]) v) = some v := by
  obtain ⟨hlt, hget⟩ := lzwCode_spec _ v hv
  rw [List.length_append, List.length_singleton] at hlt
  rcases Nat.lt_or_eq_of_le (Nat.le_of_lt_succ hlt) with hold | hnext
  · rw [lzwEntry_of_lt w hold, ← hget, List.getElem?_append_left hold]
  · rw [hnext, List.getElem?_concat_length] at hget
    have hv' : w ++ v.take 1 = v := Option.some.inj hget
    have htake : v.take 1 = w.take 1 := by
      rw [← hv', List.take_append_of_le_length (List.length_pos_iff.2 hw)]
    rw [hnext, lzwEntry_length, ← htake, hv']

/-- LZW_ENC's dictionary only grows. -/
theorem lzwCodes_length_le (guard : Bool) (cap : Nat) (w : List Byte) (dict : List (List Byte)) (xs : List Byte) :
    dict.length ≤ (lzwCodes guard cap w dict xs).dict.length :=
  (lzwCodes_keeps (fun _ => lzwInsert_keeps_prefix) w xs List.prefix_rfl).length_le

/-- The run emits `out` and ends without error with the dictionary `dict`, unless an Insert fails before. -/
def LzwEnd.Yields (guard : Bool) (cap : Nat) (out : List Byte) (dict : List (List Byte)) (t : LzwEnd Byte) : Prop :=
  t = ⟨out, none, dict⟩ ∨ ∃ e, t.InsertFails guard cap dict.length e

theorem LzwEnd.Yields.after {guard : Bool} {cap : Nat} {out : List Byte} {dict : List (List Byte)} {t : LzwEnd Byte}
    (h : t.Yields guard cap out dict) (b : List Byte) : (t.after b).Yields guard cap (b ++ out) dict := by
  rcases h with rfl | ⟨e, hfails⟩
  · exact .inl rfl
  · exact .inr ⟨e, hfails.after b⟩

/-- LZW_DEC's loop on a code it reads as `v` emits `v` and goes on with the inserted entry. -/
theorem lzwExpand_yields {guard : Bool} {cap k : Nat} {w v out : List Byte} {dict final : List (List Byte)} {ks : List Nat}
    (hk : lzwEntry dict w k = some v) (hlen : dict.length < final.length)
    (h : (lzwExpand guard cap v (dict ++ [w ++ v.take 1]) ks).Yields guard cap out final) :
    (lzwExpand guard cap w dict (k :: ks)).Yields guard cap (v ++ out) final := by
  simp only [lzwExpand_cons, hk]
  cases hins : lzwInsert guard cap dict (w ++ v.take 1) with
  | error e => exact .inr ⟨e, rfl, ⟨_, hins⟩, hlen⟩
  | ok dict' =>
    obtain ⟨-, rfl⟩ := lzwInsert_eq_ok hins
    exact h.after v

/-- LZW_DEC after `w`, on the codes LZW_ENC writes from the current sequence `v`, where LZW_ENC's dictionary is one entry
ahead by what the decoder inserts next: it emits the rest of the input and ends with LZW_ENC's dictionary. -/
theorem lzwExpand_lzwCodes {guard : Bool} {cap : Nat} (guard' : Bool) (cap' : Nat) {w v : List Byte}
    {dict ahead : List (List Byte)} {xs : List Byte} (hw : w ≠ []) (hv : v ≠ []) (hinit : lzwInit <+: dict)
    (hahead : ahead = dict ++ [w ++ v.take 1]) (hmem : v ∈ ahead) (herr : (lzwCodes guard cap v ahead xs).err = none) :
    (lzwExpand guard' cap' w dict (lzwCodes guard cap v ahead xs).out).Yields guard' cap' (v ++ xs)
      (lzwCodes guard cap v ahead xs).dict := by
  fun_induction lzwCodes guard cap v ahead xs generalizing w dict with
  | case1 v ahead =>
    subst hahead
    rw [if_neg hv]
    exact lzwExpand_yields (lzwEntry_lzwCode hw hmem) (by simp) (.inl rfl)
  | case2 v ahead c xs hext ih =>
    have htake : (v ++ [c]).take 1 = v.take 1 := List.take_append_of_le_length (List.length_pos_iff.2 hv)
    rw [List.append_cons]
    exact ih hw (List.append_ne_nil_of_left_ne_nil hv _) hinit (by rw [hahead, htake]) hext herr
  | case3 => cases herr
  | case4 v ahead c xs hext ahead' hins ih =>
    obtain ⟨-, rfl⟩ := lzwInsert_eq_ok hins
    have hinit' : lzwInit <+: ahead := hahead ▸ hinit.trans (List.prefix_append _ _)
    have hmem' : [c] ∈ ahead ++ [v ++ [c]] := List.mem_append_left _ (hinit'.mem (single_mem_lzwInit c))
    have hlen := lzwCodes_length_le guard cap [c] (ahead ++ [v ++ [c]]) xs
    rw [List.length_append] at hlen
    have hrest := ih hv (List.cons_ne_nil c []) hinit' rfl hmem' herr
    subst hahead
    rw [List.length_append, List.length_singleton, List.length_singleton] at hlen
    exact lzwExpand_yields (lzwEntry_lzwCode hw hmem) (by rw [LzwEnd.after_dict]; omega) hrest

/-- The sequences of the initial dictionary have one byte. -/
theorem length_of_mem_lzwInit {w : List Byte} (h : w ∈ lzwInit) : w.length = 1 := by
  obtain ⟨k, -, rfl⟩ := List.mem_map.1 h
  rfl

/-- LZW_DEC reads the first code LZW_ENC writes as the input's first byte. -/
theorem lzwDecodeCodes_lzwCode (guard : Bool) (cap : Nat) (c : Byte) (ks : List Nat) :
    lzwDecodeCodes guard cap (lzwCode lzwInit [c] :: ks) = (lzwExpand guard cap [c] lzwInit ks).after [c] := by
  obtain ⟨hlt, hget⟩ := lzwCode_spec lzwInit [c] (single_mem_lzwInit c)
  rw [lzwInit_length] at hlt
  have hbyte : [BitVec.ofNat 8 (lzwCode lzwInit [c])] = [c] := Option.some.inj ((lzwInit_getElem? _ hlt).symm.trans hget)
  rw [lzwDecodeCodes_cons, if_neg (Nat.not_lt.2 (Nat.le_of_lt_succ hlt)), hbyte]

/-- LZW_DEC on the codes LZW_ENC writes for an input. -/
theorem lzwDecodeCodes_lzwCodes {guard : Bool} {cap : Nat} (guard' : Bool) (cap' : Nat) {xs : List Byte}
    (herr : (lzwCodes guard cap [] lzwInit xs).err = none) :
    (lzwDecodeCodes guard' cap' (lzwCodes guard cap [] lzwInit xs).out).Yields guard' cap' xs
      (lzwCodes guard cap [] lzwInit xs).dict := by
  cases xs with
  | nil => exact .inl rfl
  | cons c xs =>
    rw [lzwCodes_start] at herr ⊢
    obtain ⟨ext, rest, rfl, hmem, hrun⟩ :=
      lzwCodes_run guard cap [c] lzwInit xs (List.cons_ne_nil c []) (single_mem_lzwInit c)
    obtain rfl : ext = [] := List.eq_nil_of_length_eq_zero (Nat.succ.inj (length_of_mem_lzwInit hmem))
    rw [List.append_nil] at hrun
    rcases hrun with ⟨rfl, hrun⟩ | ⟨d, rest, rfl, -, hrun⟩
    · rw [List.append_nil] at hrun ⊢
      rw [hrun, lzwDecodeCodes_lzwCode]
      exact .inl rfl
    · rw [List.nil_append] at hrun herr ⊢
      rw [hrun] at herr ⊢
      cases hins : lzwInsert guard cap lzwInit ([c] ++ [d]) with
      | error e =>
        rw [hins] at herr
        cases herr
      | ok dict =>
        obtain ⟨-, rfl⟩ := lzwInsert_eq_ok hins
        rw [hins] at herr
        simp only [LzwEnd.after_out, List.singleton_append, lzwDecodeCodes_lzwCode]
        exact (lzwExpand_lzwCodes guard' cap' (List.cons_ne_nil c []) (List.cons_ne_nil d []) List.prefix_rfl rfl
          (List.mem_append_left _ (single_mem_lzwInit d)) herr).after [c]

/-- With room for all the entries no Insert fails before the run ends. -/
theorem LzwEnd.Yields.eq_of_room {guard : Bool} {cap : Nat} {out : List Byte} {dict : List (List Byte)} {t : LzwEnd Byte}
    (h : t.Yields guard cap out dict) (hcap : dict.length ≤ cap) (hguard : guard = true → dict.length ≤ 65536) :
    t = ⟨out, none, dict⟩ :=
  h.resolve_right fun ⟨_, hfails⟩ => hfails.no_room hcap hguard

end Sys2Proof.Machine
end

section
/-! SUPPORT. LZW_ENC and LZW_DEC as codec rules (45_lzw.md R221 to R224): their runs in terms of the loops. -/

namespace Sys2Proof.Machine

/-- A run with an error of its own completes with it unless CapacityExceeded is raised. -/
theorem runCodec_fails_of_status_ne {s : State} {codec : Ram → List Byte → CodecRun} {e : CmdError}
    (herr : (codec s.ram s.input).err = some e) (hstatus : (s.runCodec codec).status ≠ statusFailed .capacityExceeded) :
    FailedInCodec s (s.runCodec codec) e := by
  rcases runCodec_cases s codec with ⟨-, hlong⟩ | ⟨-, -, ⟨he, -⟩ | ⟨e', hfail, ⟨rfl, -⟩ | ⟨he, -⟩⟩⟩
  · exact absurd hlong.status hstatus
  · cases herr.symm.trans he
  · exact absurd hfail.status hstatus
  · cases herr.symm.trans he
    exact hfail

theorem lzwEnc_eq (guard : Bool) (cap : Nat) (ram : Ram) (xs : List Byte) :
    lzwEnc guard cap ram xs = ⟨(lzwCodes guard cap [] lzwInit xs).out.flatMap be16, (lzwCodes guard cap [] lzwInit xs).err,
      { ram with dict := (lzwCodes guard cap [] lzwInit xs).dict }⟩ := by
  rw [← lzwStream_eq]
  rfl

/-- LZW_DEC on a stream of 16-bit codes is its loop on them; of the RAMs it changes the dictionary at most. -/
theorem lzwDec_be16 (guard : Bool) (cap : Nat) (ram : Ram) {ks : List Nat} (hks : ∀ k ∈ ks, k < 65536) :
    ∃ dict, lzwDec guard cap ram (ks.flatMap be16) =
      ⟨(lzwDecodeCodes guard cap ks).out, (lzwDecodeCodes guard cap ks).err, { ram with dict := dict }⟩ := by
  cases ks with
  | nil => exact ⟨ram.dict, rfl⟩
  | cons k ks =>
    refine ⟨(lzwDecodeCodes guard cap (k :: ks)).dict, ?_⟩
    rw [lzwDec, if_neg (by rw [length_flatMap_be16]; omega), if_neg (by simp [be16]), lzwReadCodes_be16 hks]

theorem lzwDec_odd (guard : Bool) (cap : Nat) (ram : Ram) {xs : List Byte} (hodd : xs.length % 2 = 1) :
    lzwDec guard cap ram xs = ⟨[], some .malformedData, ram⟩ := if_pos hodd

/-- A first code above 255 is refused before any byte is emitted, as half a code is. -/
theorem lzwDec_unknown_start (guard : Bool) (cap : Nat) (ram : Ram) {h : Byte} (l : Byte) (rest : List Byte)
    (hh : h ≠ 0x00#8) : ∃ ram', lzwDec guard cap ram (h :: l :: rest) = ⟨[], some .malformedData, ram'⟩ := by
  by_cases hodd : (h :: l :: rest).length % 2 = 1
  · exact ⟨ram, lzwDec_odd guard cap ram hodd⟩
  · have hpos : h.toNat ≠ 0 := fun hzero => hh (BitVec.eq_of_toNat_eq hzero)
    have hcode : unBE16 h l > 255 := by
      rw [unBE16]
      omega
    refine ⟨{ ram with dict := lzwInit }, ?_⟩
    rw [lzwDec, if_neg hodd, if_neg (List.cons_ne_nil _ _), lzwReadCodes, lzwDecodeCodes_cons, if_pos hcode]

end Sys2Proof.Machine
end

section
/-! The obligations on the codes of LZW_ENC, the output of LZW_DEC, their completions and the round trip. -/

open Sys2Proof Sys2Proof.Machine Sys2Proof.Claims

/-- Settles O35: LZW_DEC with room for the same dictionary ends with it and the input, so its output's spelling is
LZW_ENC's; LZW_ENC inserts what is not yet an entry. -/
theorem lzwEncCodesSpellTheInput : Obligations.LzwEncCodesSpellTheInput := by
  intro guard cap xs codes dict hrun
  have hyields := lzwDecodeCodes_lzwCodes false dict.length (congrArg LzwEnd.err hrun)
  have hnodup : (lzwCodes guard cap [] lzwInit xs).dict.Nodup := lzwCodes_keeps lzwInsert_keeps_nodup [] xs lzwInit_nodup
  rw [hrun] at hyields hnodup
  have hdec := hyields.eq_of_room (Nat.le_refl _) nofun
  obtain ⟨hout, hlt, hinit, hchain⟩ := lzwDecodeCodes_spelled (congrArg LzwEnd.err hdec)
  rw [hdec] at hout hlt hinit hchain
  exact ⟨hout.symm, hlt, hnodup, hinit, hchain⟩

/-- Settles O38: each code inserts the entry that the claim names, and an entry once inserted stays. -/
theorem lzwDecOutputIsSpelledByTheCodes : Obligations.LzwDecOutputIsSpelledByTheCodes := by
  intro guard cap ks out dict hrun
  have hspelled := lzwDecodeCodes_spelled (congrArg LzwEnd.err hrun)
  rwa [hrun] at hspelled

/-- Settles O34: LZW_ENC's run is its loop's, two bytes a code, and with room for an entry a byte no Insert fails. -/
theorem lzwEncCompletes : Obligations.LzwEncCompletes := by
  intro s hfits
  have hrun := lzwEnc_eq s.guardLzwCode s.lzwDictCap s.ram s.input
  have hlen (h : 2 * (lzwEncEnd s).out.length ≤ s.outCap.toNat) :
      (lzwEnc s.guardLzwCode s.lzwDictCap s.ram s.input).out.length ≤ s.outCap.toNat := by rwa [lzwEnc_out_length]
  refine ⟨fun herr hcap => ?_, fun e herr hcap => ?_, fun hroom hguard => ?_⟩
  · obtain ⟨hsucc, hram⟩ := runCodec_succeeds s _ hfits (by rw [hrun]; exact herr) (hlen hcap)
    rw [hrun] at hsucc hram
    exact ⟨_, rfl, hsucc, by rw [hram]; rfl, by rw [hram], by rw [hram], by rw [hram]⟩
  · exact ⟨_, rfl, runCodec_fails s _ e hfits (by rw [hrun]; exact herr) (hlen hcap)⟩
  · rw [← input_length, Nat.add_comm] at hroom hguard
    refine ⟨lzwCodes_init_err_of_room hroom hguard, ?_⟩
    rw [← input_length, lzwEncEnd]
    by_cases hempty : s.input = []
    · rw [hempty]
      exact Nat.le_refl 0
    · exact (lzwCodes_init_lengths _ _ hempty).2

/-- Settles O39: LZW_DEC's run on the stream is its loop's on the codes. -/
theorem lzwDecCompletes : Obligations.LzwDecCompletes := by
  intro s ks hfits hinput hks hcap
  obtain ⟨dict, hrun⟩ := lzwDec_be16 s.guardLzwCode s.lzwDictCap s.ram hks
  rw [← hinput] at hrun
  refine ⟨fun herr => ?_, fun e herr => ?_⟩
  · obtain ⟨hsucc, hram⟩ := runCodec_succeeds s (lzwDec s.guardLzwCode s.lzwDictCap) hfits (by rw [hrun]; exact herr)
      (by rwa [hrun])
    rw [hrun] at hsucc hram
    exact ⟨_, rfl, hsucc, by rw [hram], by rw [hram], by rw [hram]⟩
  · exact ⟨_, rfl, runCodec_fails s _ e hfits (by rw [hrun]; exact herr) (by rwa [hrun])⟩

/-- Settles O40: both are found before any byte is emitted. -/
theorem lzwDecRefusesHalfCodesAndUnknownStarts : Obligations.LzwDecRefusesHalfCodesAndUnknownStarts := by
  intro s hfits
  have hfails {ram : Ram} (hrun : lzwDec s.guardLzwCode s.lzwDictCap s.ram s.input = ⟨[], some .malformedData, ram⟩) :
      ∃ t, exec .lzwDec s = .next t ∧ FailedInCodec s t .malformedData :=
    ⟨_, rfl, runCodec_fails s _ _ hfits (by rw [hrun]) (by rw [hrun]; exact Nat.zero_le _)⟩
  refine ⟨fun hodd => hfails (lzwDec_odd _ _ _ (by rwa [input_length])), fun h l rest hinput hh => ?_⟩
  obtain ⟨ram, hrun⟩ := lzwDec_unknown_start s.guardLzwCode s.lzwDictCap s.ram l rest hh
  exact hfails (hinput ▸ hrun)

/-- LZW_DEC after LZW_ENC, without CapacityExceeded: the input comes back, or LZW_DEC's guard meets an entry that has no
16-bit code. -/
theorem lzwDec_after_lzwEnc {s u : State} (herr : (lzwEncEnd s).err = none) (hcodes : ∀ k ∈ (lzwEncEnd s).out, k < 65536)
    (hinput : u.input = (lzwEncEnd s).out.flatMap be16)
    (hstatus : (u.runCodec (lzwDec u.guardLzwCode u.lzwDictCap)).status ≠ statusFailed .capacityExceeded) :
    Succeeded u (u.runCodec (lzwDec u.guardLzwCode u.lzwDictCap)) s.input ∨
      (u.guardLzwCode = true ∧ 65536 < (lzwEncEnd s).dict.length ∧
        FailedInCodec u (u.runCodec (lzwDec u.guardLzwCode u.lzwDictCap)) .unsupportedInput) := by
  obtain ⟨dict, hrun⟩ := lzwDec_be16 u.guardLzwCode u.lzwDictCap u.ram hcodes
  rw [← hinput] at hrun
  rcases lzwDecodeCodes_lzwCodes u.guardLzwCode u.lzwDictCap herr with hend | ⟨e, hfails⟩
  · rw [lzwEncEnd, hend] at hrun
    have hsucc := runCodec_succeeds_of_status_ne (by rw [hrun]) hstatus
    rw [hrun] at hsucc
    exact .inl hsucc
  · have hfailed : FailedInCodec u _ e := runCodec_fails_of_status_ne (by rw [hrun]; exact hfails.err) hstatus
    rcases hfails.cases with ⟨rfl, hguard, hlarge⟩ | ⟨rfl, -⟩
    · exact .inr ⟨hguard, hlarge, hfailed⟩
    · exact absurd hfailed.status hstatus

/-- Settles O41: LZW_DEC follows LZW_ENC one entry behind to the same dictionary. Only its guard can stop it, at a 65537th
entry, which LZW_ENC under the guard does not make; and a code is below the number of entries. -/
theorem lzwRoundTrip : Obligations.LzwRoundTrip := by
  refine ⟨fun s herr hsmall k hk => ?_, fun s t ht hstatus hcodes => ?_⟩
  · obtain ⟨-, hlt, -⟩ := lzwEncCodesSpellTheInput _ _ s.input (lzwEncEnd s).out (lzwEncEnd s).dict
      (by rw [← herr]; rfl)
    exact Nat.lt_of_lt_of_le (hlt k hk) hsmall
  · cases ht
    obtain ⟨herr, hsucc⟩ := runCodec_of_status_succeeded hstatus
    rw [lzwEnc_eq] at herr hsucc
    refine ⟨_, hsucc, fun u v hinput hv hstatus' => ?_⟩
    cases hv
    have hlimit : s.guardLzwCode = true → (lzwEncEnd s).dict.length ≤ 65536 :=
      lzwCodes_keeps (fun _ => lzwInsert_keeps_limit) [] s.input (lzwInit_limit _)
    rcases lzwDec_after_lzwEnc herr hcodes hinput hstatus' with hback | ⟨hguard, hlarge, hfailed⟩
    · exact ⟨fun _ => hback, fun _ => .inl hback⟩
    · refine ⟨fun hallowed => ?_, fun _ => .inr ⟨hlarge, hfailed⟩⟩
      exact absurd hlarge (Nat.not_lt.2 ((hallowed hguard).elim hlimit id))
end

section
/-! SUPPORT. Which errors each command can raise (60_exceptions.md R251 to R254): the errors of each codec rule, and
from them those that a completion can record. -/

namespace Sys2Proof.Machine

/-! ### The errors of the codec rules -/

theorem rleDec_err {ram : Ram} {xs : List Byte} {e : CmdError} (h : (rleDec ram xs).err = some e) :
    e = .malformedData := by
  rw [rleDec] at h
  split at h <;> cases h
  rfl

theorem decodeSingle_err {sym : Byte} {bits : Bits} {e : CmdError} (h : (decodeSingle sym bits).err = some e) :
    e = .malformedData := by
  fun_induction decodeSingle sym bits with
  | case1 => cases h
  | case2 =>
    cases h
    rfl
  | case3 bits ih => exact ih h

theorem decodeWalk_err {root cur : HuffTree} {bits : Bits} {e : CmdError}
    (h : (decodeWalk root cur bits).err = some e) : e = .malformedData := by
  fun_induction decodeWalk root cur bits with
  | case1 => cases h
  | case2 =>
    cases h
    rfl
  | case3 cur x bits sym f k hchild ih => exact ih h
  | case4 cur x bits f k l r hchild ih => exact ih h

theorem hufDecodeBits_err {root : HuffTree} {bits : Bits} {e : CmdError} (h : (hufDecodeBits root bits).err = some e) :
    e = .malformedData := by
  cases root with
  | leaf => exact decodeSingle_err h
  | node => exact decodeWalk_err h

theorem hufDec_err {ram : Ram} {xs : List Byte} {e : CmdError} (h : (hufDec ram xs).err = some e) :
    e = .malformedData := by
  rcases hufParse_cases xs with herror | ⟨tab, bits, hvalid⟩
  · rw [hufDec, herror] at h
    cases h
    rfl
  cases hroot : buildTree (sortTable (Claims.tableCounts tab)) with
  | none =>
    simp only [hufDec, hufParse_of_valid hvalid, hroot] at h
    split at h <;> cases h
    rfl
  | some root =>
    rw [hufDec_of_valid ram hvalid hroot] at h
    exact hufDecodeBits_err h

theorem golDec_err {ram : Ram} {xs : List Byte} {e : CmdError} (h : (golDec ram xs).err = some e) :
    e = .malformedData := by
  obtain ⟨ys, rest, rfl, hno⟩ := exists_golWords_append xs
  rw [golDec_golWords_append] at h
  by_cases hne : rest = []
  · rw [hne, golDecode_nil, if_pos rfl] at h
    cases h
  · rw [golDecode_malformed hne hno] at h
    cases h
    rfl

/-- On a non-empty input HUF_ENC's error is that of its guard checks (43_huffman.md R167). -/
theorem hufEnc_err_eq_hufGuards (guardTable guardCount : Bool) (ram : Ram) {xs : List Byte} (hne : xs ≠ []) :
    (hufEnc guardTable guardCount ram xs).err = hufGuards guardTable guardCount (buildFT xs) := by
  rw [hufEnc, if_neg hne]
  cases hguards : hufGuards guardTable guardCount (buildFT xs) with
  | some e => simp only [hguards]
  | none =>
    simp only [hguards]
    cases buildTree (ftTable (buildFT xs)) <;> rfl

/-- HUF_ENC raises only UnsupportedInput, and only under a guard that is set (43_huffman.md R167). -/
theorem hufEnc_err {guardTable guardCount : Bool} {ram : Ram} {xs : List Byte} {e : CmdError}
    (h : (hufEnc guardTable guardCount ram xs).err = some e) :
    e = .unsupportedInput ∧ (guardTable = true ∨ guardCount = true) := by
  refine ⟨?_, ?_⟩
  · by_cases hne : xs = []
    · rw [hne, hufEnc_nil] at h
      cases h
    · rw [hufEnc_err_eq_hufGuards _ _ _ hne] at h
      exact hufGuards_eq_some h
  · by_contra hunset
    obtain ⟨htable, hcount⟩ := not_or.1 hunset
    rw [Bool.eq_false_of_not_eq_true htable, Bool.eq_false_of_not_eq_true hcount, hufEnc_no_guard] at h
    cases h

/-- LZW_ENC's errors are those of Insert (45_lzw.md R222). -/
theorem lzwEnc_err {guard : Bool} {cap : Nat} {ram : Ram} {xs : List Byte} {e : CmdError}
    (h : (lzwEnc guard cap ram xs).err = some e) :
    (e = .unsupportedInput ∧ guard = true) ∨ e = .capacityExceeded := by
  rw [lzwEnc_eq] at h
  rcases (lzwCodes_init_insertFails h).cases with ⟨he, hguard, -⟩ | ⟨he, -⟩
  · exact .inl ⟨he, hguard⟩
  · exact .inr he

/-- LZW_DEC's errors are those of Insert and MalformedData (45_lzw.md R222, R224). -/
theorem lzwDec_err {guard : Bool} {cap : Nat} {ram : Ram} {xs : List Byte} {e : CmdError}
    (h : (lzwDec guard cap ram xs).err = some e) :
    e = .malformedData ∨ (e = .unsupportedInput ∧ guard = true) ∨ e = .capacityExceeded := by
  rw [lzwDec] at h
  split at h
  · cases h
    exact .inl rfl
  split at h
  · cases h
  rcases lzwDecodeCodes_err h with he | hfails
  · exact .inl he
  rcases hfails.cases with ⟨he, hguard, -⟩ | ⟨he, -⟩
  · exact .inr (.inl ⟨he, hguard⟩)
  · exact .inr (.inr he)

/-! ### The errors of the commands -/

/-- The errors that 60_exceptions.md R251 to R254 leave to a command under the guards of a state. -/
def MayRaise (s : State) (i : Instr) : CmdError → Prop
  | .unsupportedAlgorithm => i ∈ Claims.reservedCommands
  | .malformedData => i ∈ Claims.decoders
  | .unsupportedInput =>
    (i = .hufEnc ∧ (s.guardHufTable = true ∨ s.guardHufCount = true)) ∨
      ((i = .lzwEnc ∨ i = .lzwDec) ∧ s.guardLzwCode = true)
  | .capacityExceeded => i ∈ Claims.definedCommands

theorem mayRaise_malformedData {s : State} {i : Instr} {e : CmdError} (hi : i ∈ Claims.decoders)
    (he : e = .malformedData) : MayRaise s i e := he ▸ hi

theorem mem_definedCommands_of_codecRule_some {s : State} {i : Instr} {codec : Ram → List Byte → CodecRun}
    (h : codecRule s i = some codec) : i ∈ Claims.definedCommands := by
  cases i
  case rleEnc | rleDec | hufEnc | hufDec | golEnc | golDec | lzwEnc | lzwDec => decide
  all_goals cases h

theorem mem_reservedCommands_of_codecRule_none {s : State} {i : Instr} (h : codecRule s i = none) :
    i ∈ Claims.reservedCommands := by
  cases i
  case rleEnc | rleDec | hufEnc | hufDec | golEnc | golDec | lzwEnc | lzwDec => cases h
  all_goals decide

/-- An error of a command's codec rule is one that the command may raise. -/
theorem mayRaise_of_codecRule_err {s : State} {codec : Ram → List Byte → CodecRun} {ram : Ram} {xs : List Byte}
    {e : CmdError} : ∀ {i : Instr}, codecRule s i = some codec → (codec ram xs).err = some e → MayRaise s i e
  | .rleEnc, rfl, h => nomatch h
  | .rleDec, rfl, h => mayRaise_malformedData (by decide) (rleDec_err h)
  | .hufEnc, rfl, h => by
    obtain ⟨rfl, hguard⟩ := hufEnc_err h
    exact .inl ⟨rfl, hguard⟩
  | .hufDec, rfl, h => mayRaise_malformedData (by decide) (hufDec_err h)
  | .golEnc, rfl, h => nomatch h
  | .golDec, rfl, h => mayRaise_malformedData (by decide) (golDec_err h)
  | .lzwEnc, rfl, h => by
    rcases lzwEnc_err h with ⟨rfl, hguard⟩ | rfl
    · exact .inr ⟨.inl rfl, hguard⟩
    · exact mem_definedCommands_of_codecRule_some (s := s) rfl
  | .lzwDec, rfl, h => by
    rcases lzwDec_err h with he | ⟨rfl, hguard⟩ | rfl
    · exact mayRaise_malformedData (by decide) he
    · exact .inr ⟨.inr rfl, hguard⟩
    · exact mem_definedCommands_of_codecRule_some (s := s) rfl

/-- The error that a defined command's completion records is CapacityExceeded or its codec rule's own. -/
theorem runCodec_status_failed {s : State} {codec : Ram → List Byte → CodecRun} {e : CmdError}
    (hstatus : (s.runCodec codec).status = statusFailed e) :
    e = .capacityExceeded ∨ (codec s.ram s.input).err = some e := by
  rcases runCodec_cases s codec with ⟨-, hlong⟩ | ⟨-, -, ⟨-, -, hsucc⟩ | ⟨e', hfail, hcause⟩⟩
  · exact .inl (statusFailed_injective _ _ (hstatus.symm.trans hlong.status))
  · exact absurd (hstatus.symm.trans hsucc.status) (statusFailed_ne_succeeded e)
  · cases statusFailed_injective _ _ (hstatus.symm.trans hfail.status)
    exact hcause.imp And.left And.left

/-- The error that a completion records is one that the command may raise. -/
theorem exec_status_mayRaise {i : Instr} {s t : State} {e : CmdError} (ht : exec i s = .next t)
    (hstatus : t.status = statusFailed e) : MayRaise s i e := by
  rw [exec_eq_codecRule] at ht
  cases ht
  cases hrule : codecRule s i with
  | none =>
    rw [hrule] at hstatus
    cases statusFailed_injective _ _ (hstatus.symm.trans (runReserved_fails s).status)
    exact mem_reservedCommands_of_codecRule_none hrule
  | some codec =>
    rw [hrule] at hstatus
    rcases runCodec_status_failed hstatus with rfl | herr
    · exact mem_definedCommands_of_codecRule_some hrule
    · exact mayRaise_of_codecRule_err hrule herr

/-- A reserved command's completion is its failure before any buffer access (40_dispatch.md R109). -/
theorem exec_reserved_fails {i : Instr} {s t : State} (hi : i ∈ Claims.reservedCommands) (ht : exec i s = .next t) :
    FailedBeforeAccess s t .unsupportedAlgorithm := by
  rw [exec_of_mem_reservedCommands hi] at ht
  cases ht
  exact runReserved_fails s

end Sys2Proof.Machine
end

section
/-! The obligation on which commands raise which errors. -/

open Sys2Proof Sys2Proof.Machine Sys2Proof.Claims

/-- Settles O17: the recorded error is one the command may raise, and a reserved command, which alone may raise
UnsupportedAlgorithm, always fails with it before any buffer access. -/
theorem errorsComeFromTheirCommands : Obligations.ErrorsComeFromTheirCommands := by
  intro i s t ht
  have hreserved (hstatus : t.status = statusFailed .unsupportedAlgorithm) : i ∈ reservedCommands :=
    exec_status_mayRaise ht hstatus
  refine ⟨⟨hreserved, fun hi => (exec_reserved_fails hi ht).status⟩, fun hstatus => ?_,
    exec_status_mayRaise ht, exec_status_mayRaise ht⟩
  have hfails := exec_reserved_fails (hreserved hstatus) ht
  exact ⟨hfails.outMem, hfails.same.inMem⟩
end

section
/-! SUPPORT. The host's reset and its accesses to a BUSY core (70_reset_and_hazards.md R280 to R282, R286), and the
range of a buffer capacity (00_scope.md R7). -/

namespace Sys2Proof.Machine

/-! ### Parameters -/

theorem one_le_capacityOf (choice : Nat) : 1 ≤ (Config.capacityOf choice).toNat := by
  simp only [Config.capacityOf, BitVec.toNat_ofNat]
  omega

/-! ### Reset -/

/-- In the host's turn reset takes effect at once, whatever runs. -/
theorem step_reset {s : State} {rest : List HostStmt} (h : Claims.hostsTurn s) (hh : s.host = .reset :: rest) :
    step s = .next (s.popHost rest).assertReset :=
  step_host s _ rest (engineTurn_of_hostsTurn h hh) hh

/-- Reset makes every byte of IN_MEM a free value of the next numbered drawing. -/
@[simp] theorem State.assertReset_inByte (s : State) (a : Nat) :
    s.assertReset.inByte a = Config.freeInByte (s.inEpoch + 1) a := rfl

/-! ### Accesses while BUSY -/

/-- A register write to a BUSY core is ignored, and its turn is spent. -/
theorem step_regWrite_busy {s : State} {off : Nat} {v : Word} {rest : List HostStmt} (hp : s.phase = .busy)
    (hd : s.delay ≠ 0) (hh : s.host = .act (.regWrite off v) :: rest) : step s = .next (s.popHost rest) := by
  rw [step_act (.inr hd) hh, State.act, regWrite_busy (s.popHost rest) off v hp]

/-- A write to IN_MEM of a BUSY core is ignored, and its turn is spent. -/
theorem step_inWrite_busy {s : State} {a : Nat} {b : Byte} {rest : List HostStmt} (hp : s.phase = .busy)
    (hd : s.delay ≠ 0) (hh : s.host = .act (.inWrite a b) :: rest) : step s = .next (s.popHost rest) := by
  rw [step_act (.inr hd) hh, State.act, inWrite_busy (s.popHost rest) a b hp]

/-- A register read answers the register's value, in both phases. -/
theorem step_regRead {s : State} {off : Nat} {rest : List HostStmt} (h : Claims.hostsTurn s)
    (hh : s.host = .act (.regRead off) :: rest) :
    step s = .next ((s.popHost rest).respond (.word (s.regRead off))) := by
  rw [step_act h hh, State.act, State.popHost_regRead]

/-- A read of IN_MEM below IN_CAP answers the byte there, in both phases. -/
theorem step_inRead_below {s : State} {a : Nat} {rest : List HostStmt} (h : Claims.hostsTurn s)
    (ha : a < s.inCap.toNat) (hh : s.host = .act (.inRead a) :: rest) :
    step s = .next ((s.popHost rest).respond (.byte (s.inByte a))) := by
  rw [step_act h hh, State.act, inRead_below (s.popHost rest) ha, State.popHost_inByte]

/-! ### The invariant -/

/-- The parameters are in their range, the buffers list no byte, no command has started, and the RAMs have their
sizes. -/
theorem Inv.reset : Inv State.reset where
  inCap := one_le_capacityOf _
  outCap := one_le_capacityOf _
  lzwDictCap := Nat.le_add_right _ _
  inMem := reset_memories_wf.1
  inMemBelow := by simp
  outMem := reset_memories_wf.2
  outMemBelow := by simp
  outLen := Nat.zero_le _
  status := .fresh rfl rfl rfl
  ram := Ram.reset_sized _

end Sys2Proof.Machine
end

section
/-! The obligations on reset and on the host's accesses while BUSY. -/

open Sys2Proof Sys2Proof.Machine

/-- Settles O7: the host's turn takes the access; a BUSY core ignores a write and answers a read. -/
theorem busyIgnoresWritesAndAnswersReads : Obligations.BusyIgnoresWritesAndAnswersReads := by
  intro s rest hbusy hdelay
  exact ⟨fun _ _ => step_regWrite_busy hbusy hdelay, fun _ _ => step_inWrite_busy hbusy hdelay,
    fun _ => step_regRead (.inr hdelay), fun _ => step_inRead_below (.inr hdelay)⟩

/-- Settles O54, clause by clause of the invariant. -/
theorem resetMeetsTheInvariant : Obligations.ResetMeetsTheInvariant := Inv.reset

/-- Settles O55: the first reset and a later one set the same registers; a later one keeps the capacities. -/
theorem resetValues : Obligations.ResetValues := by
  refine ⟨⟨State.reset_inCap, State.reset_outCap⟩, fun s t ht => ?_⟩
  have hcaps (h : t = s.assertReset) : t.inCap = s.inCap ∧ t.outCap = s.outCap := by
    rw [h, State.assertReset_inCap, State.assertReset_outCap]
    exact ⟨rfl, rfl⟩
  rcases ht with rfl | rfl <;> exact ⟨rfl, rfl, rfl, rfl, rfl, rfl, decodeOp_encode .rleEnc, hcaps⟩

/-- Settles O56: in the host's turn reset is asserted, and the state it leaves lists no byte of either buffer. -/
theorem resetAbandonsTheCommand : Obligations.ResetAbandonsTheCommand := by
  intro s rest hturn hhost
  refine ⟨_, step_reset hturn hhost, ?_⟩
  simp
end
